-- ==== Sys2Proof/Word.lean ====
section
/-! DEFINITION. The widths of the machine's data (00_scope.md R5, R7, R9; 30_encoding.md R112). -/

namespace Sys2Proof

/-- One byte of a wire message. -/
abbrev Byte := BitVec 8

/-- The 16-bit fields of the header and of the command word (30_encoding.md R91, R109). -/
abbrev Half := BitVec 16

/-- The 32-bit word of the wire, of the command port and of the registers. -/
abbrev Word := BitVec 32

/-- An opaque 32-bit token that stands for one owned OS file handle (00_scope.md R4, `HANDLE_BITS`). -/
abbrev Handle := BitVec 32

/-- An IEEE 754 binary64 bit pattern (41_fixed_point.md R160). -/
abbrev F64 := BitVec 64

/-- The byte order of the wire (10_state.md R21): 0 is `le`, 1 is `be`. -/
inductive ByteOrder where
  | le
  | be
  deriving DecidableEq, Repr, Inhabited

end Sys2Proof
end

