-- ==== Sys2Proof/Config.lean ====
section
/-! DEFINITION. The parameters of the block (00_scope.md R4) and its free values. -/

namespace Sys2Proof

/-- `HEADER_BYTES` (00_scope.md R4). -/
abbrev Config.headerBytes : Nat := 8

/-- `PAYLOAD_MAX` = 65535 - 8 (00_scope.md R4, 30_encoding.md R91). -/
abbrev Config.payloadMax : Nat := 65527

/-- The most bytes that one `Bytes` item carries (30_encoding.md R112, R114). -/
abbrev Config.itemBytesMax : Nat := 65535

/-- `PAD_FILL`: every padding byte the encoder writes (00_scope.md R4, 30_encoding.md R101). -/
abbrev Config.padFill : Byte := 0x00

/-- `BYTE_ORDER`, left OPEN by 00_scope.md R4: the level of the strap when the machine is built. No proof can
see which order it is, so what is proved of `State.reset` holds for both. DESIGN CHOICE, safe; log 1. -/
opaque Config.byteOrder : ByteOrder

/-- `DESC_MAX`, left OPEN by 00_scope.md R4: the capacity of the descriptor list of the block that
`State.reset` is the state of. No proof can see which number it is, so what is proved of `State.reset` holds for
every capacity that the 32-bit register `DCNT` can count. DESIGN CHOICE; log 6. -/
opaque Config.descMax : Word

/-- The result words that the spec leaves open (41_fixed_point.md R152, 93_implementation_defined.md U3): the
n-th draw. It has no body, so it may be any word. Safe; log 5. -/
opaque Config.freeWord : Nat → Word

end Sys2Proof
end

