-- ==== Sys2Proof/Syntax.lean ====
section
/-! DEFINITION. Wire types, items, command packets and instructions: one constructor of `Instr` for each row of
spec/opcode_table.json (30_encoding.md R105 to R113, 00_scope.md R9). -/

namespace Sys2Proof

/-- The closed set of wire types (00_scope.md R9). -/
inductive Ty where
  | int
  | uint
  | fixed
  | string
  | array
  | newid
  | fd
  | seq (t : Ty)
  deriving DecidableEq, Repr

/-- The values of a wire type (00_scope.md R9). -/
abbrev Ty.Val : Ty → Type
  | .int => Word
  | .uint => Word
  | .fixed => Word
  | .string => List Byte
  | .array => List Byte
  | .newid => List Byte × Word
  | .fd => Handle
  | .seq t => List t.Val

/-- One element of an operand or result stream (30_encoding.md R112). -/
inductive Item where
  | word (w : Word)
  | bytes (bs : List Byte)
  | handle (h : Handle)
  | f64 (d : F64)
  deriving DecidableEq, Repr

/-- One packet on the command port: the command word, then the operand beats up to the marked last beat
(20_memory.md R68, 30_encoding.md R114). -/
structure Packet where
  word : Word
  operands : List Word
  deriving DecidableEq, Repr

/-- The commands with the operands they arrive with: one constructor for each row of spec/opcode_table.json
(30_encoding.md R106). -/
inductive Instr where
  /-- FRAME (40_framer.md R130). -/
  | frame
  /-- DISCARD (40_framer.md R132). -/
  | discard
  /-- SKIP n (40_framer.md R133). -/
  | skip (n : Half)
  /-- RDREG r (44_system.md R230). -/
  | rdreg (r : Half)
  /-- DEC.INT (42_decode.md R171). -/
  | decInt
  /-- DEC.UINT (42_decode.md R172). -/
  | decUint
  /-- DEC.FIXED (42_decode.md R173). -/
  | decFixed
  /-- DEC.STRING (42_decode.md R174). -/
  | decString
  /-- DEC.ARRAY (42_decode.md R175). -/
  | decArray
  /-- DEC.NEWID (42_decode.md R176). -/
  | decNewid
  /-- DEC.FD (42_decode.md R177). -/
  | decFd
  /-- DEC.SEQ (42_decode.md R178): `depth` levels of SEQ around the type `base`; `base` 7 to 15 names no
  supported type (30_encoding.md R108, R111). -/
  | decSeq (depth base : BitVec 4)
  /-- ENC.BEGIN opcode, with operand `Word sender` (43_encode.md R201). -/
  | encBegin (opcode : Half) (sender : Word)
  /-- ENC.INT (43_encode.md R202). -/
  | encInt (v : Word)
  /-- ENC.UINT (43_encode.md R203). -/
  | encUint (v : Word)
  /-- ENC.FIXED (43_encode.md R204). -/
  | encFixed (v : Word)
  /-- ENC.STRING (43_encode.md R205): the content, without terminator. -/
  | encString (s : List Byte)
  /-- ENC.ARRAY (43_encode.md R206). -/
  | encArray (b : List Byte)
  /-- ENC.NEWID (43_encode.md R207). -/
  | encNewid (name : List Byte) (version : Word)
  /-- ENC.FD (43_encode.md R208). -/
  | encFd (h : Handle)
  /-- ENC.SEQ (43_encode.md R209) with its operand items (30_encoding.md R113); an unsupported `base` has its
  operand items dropped whole (R111), so it carries none. -/
  | encSeq (depth base : BitVec 4) (items : List Item)
  /-- ENC.END (43_encode.md R210). -/
  | encEnd
  /-- FX.FROMINT (41_fixed_point.md R151). -/
  | fxFromint (n : Word)
  /-- FX.FROMFLOAT (41_fixed_point.md R152). -/
  | fxFromfloat (x : F64)
  /-- FX.INTEGER (41_fixed_point.md R153). -/
  | fxInteger (v : Word)
  /-- FX.FRACTION (41_fixed_point.md R154). -/
  | fxFraction (v : Word)
  /-- FX.FLOAT (41_fixed_point.md R155). -/
  | fxFloat (v : Word)
  deriving DecidableEq, Repr

end Sys2Proof
end

