-- ==== Sys2Proof/Machine/Operands.lean ====
section
/-! DEFINITION. Operand forms: byte order, padding, wire layouts, the encoding function, items and their
carriage in beats (00_scope.md R7; 30_encoding.md R94 to R103, R107, R108, R112 to R114; 43_encode.md R200). -/

namespace Sys2Proof.Machine

/-- `u32(b)`: the word that a list of four bytes stands for (00_scope.md R7). It is only applied to lists of
exactly four bytes. -/
def u32 (bo : ByteOrder) (b : List Byte) : Word :=
  let b0 := (b.getD 0 0).toNat
  let b1 := (b.getD 1 0).toNat
  let b2 := (b.getD 2 0).toNat
  let b3 := (b.getD 3 0).toNat
  match bo with
  | .le => BitVec.ofNat 32 (b0 + 2 ^ 8 * b1 + 2 ^ 16 * b2 + 2 ^ 24 * b3)
  | .be => BitVec.ofNat 32 (2 ^ 24 * b0 + 2 ^ 16 * b1 + 2 ^ 8 * b2 + b3)

/-- `bytes32(v)`, the inverse of `u32` (00_scope.md R7). -/
def bytes32 (bo : ByteOrder) (v : Word) : List Byte :=
  let b0 : Byte := v.extractLsb' 0 8
  let b1 : Byte := v.extractLsb' 8 8
  let b2 : Byte := v.extractLsb' 16 8
  let b3 : Byte := v.extractLsb' 24 8
  match bo with
  | .le => [b0, b1, b2, b3]
  | .be => [b3, b2, b1, b0]

/-- A natural number as a 32-bit word: a length prefix or a count (30_encoding.md R95, R96, R99). -/
def lenWord (n : Nat) : Word := BitVec.ofNat 32 n

/-- `PAD(L)` (30_encoding.md R100). -/
def pad (l : Nat) : Nat := (4 - l % 4) % 4

/-- The padding bytes the encoder writes after `l` bytes (30_encoding.md R101). -/
def padding (l : Nat) : List Byte := List.replicate (pad l) Config.padFill

/-- `wire_len(t, v)` (30_encoding.md R103). -/
def wireLen : (t : Ty) → t.Val → Nat
  | .int, _ => 4
  | .uint, _ => 4
  | .fixed, _ => 4
  | .string, s => 4 + (s.length + 1) + pad (s.length + 1)
  | .array, b => 4 + b.length + pad b.length
  | .newid, (s, _) => 4 + (s.length + 1) + pad (s.length + 1) + 4
  | .fd, _ => 0
  | .seq t, vs => 4 + (vs.map (wireLen t)).sum

/-- The `STRING` layout (30_encoding.md R95, 43_encode.md R205). -/
def stringBytes (bo : ByteOrder) (s : List Byte) : List Byte :=
  bytes32 bo (lenWord (s.length + 1)) ++ s ++ [0x00] ++ padding (s.length + 1)

/-- The `ARRAY` layout (30_encoding.md R96, 43_encode.md R206). -/
def arrayBytes (bo : ByteOrder) (b : List Byte) : List Byte :=
  bytes32 bo (lenWord b.length) ++ b ++ padding b.length

/-- `enc(t, v)`: the payload bytes and the handles of a value (43_encode.md R200, R202 to R209). -/
def enc (bo : ByteOrder) : (t : Ty) → t.Val → List Byte × List Handle
  | .int, v => (bytes32 bo v, [])
  | .uint, v => (bytes32 bo v, [])
  | .fixed, v => (bytes32 bo v, [])
  | .string, s => (stringBytes bo s, [])
  | .array, b => (arrayBytes bo b, [])
  | .newid, (name, ver) => (stringBytes bo name ++ bytes32 bo ver, [])
  | .fd, h => ([], [h])
  | .seq t, vs =>
    (bytes32 bo (lenWord vs.length) ++ (vs.map fun e => (enc bo t e).1).flatten,
      (vs.map fun e => (enc bo t e).2).flatten)

/-- The base type that a `BASE` tag names; 7 to 15 name none (30_encoding.md R107). -/
def baseTy (base : BitVec 4) : Option Ty :=
  if base = 0 then some .int
  else if base = 1 then some .uint
  else if base = 2 then some .fixed
  else if base = 3 then some .string
  else if base = 4 then some .array
  else if base = 5 then some .newid
  else if base = 6 then some .fd
  else none

/-- `n` levels of `SEQ` around a type (30_encoding.md R108). -/
def seqOf : Nat → Ty → Ty
  | 0, t => t
  | n + 1, t => .seq (seqOf n t)

/-- The type that a `DEPTH` and a `BASE` denote (30_encoding.md R108). -/
def typeOf (depth base : BitVec 4) : Option Ty := (baseTy base).map (seqOf depth.toNat)

/-- `items(t, v)`: the items that carry a value (30_encoding.md R113). -/
def items : (t : Ty) → t.Val → List Item
  | .int, v => [.word v]
  | .uint, v => [.word v]
  | .fixed, v => [.word v]
  | .string, s => [.bytes s]
  | .array, b => [.bytes b]
  | .newid, (name, ver) => [.bytes name, .word ver]
  | .fd, h => [.handle h]
  | .seq t, vs => .word (lenWord vs.length) :: (vs.map (items t)).flatten

/-- Reads `n` values one after another from a stream. -/
def readMany {α β : Type} (f : β → Option (α × β)) : Nat → β → Option (List α × β)
  | 0, r => some ([], r)
  | n + 1, r =>
    match f r with
    | none => none
    | some (v, r1) =>
      match readMany f n r1 with
      | none => none
      | some (vs, r2) => some (v :: vs, r2)

/-- The value of type `t` that a list of items begins with, and the items after it: the reading of
`items(t, v)` by one who knows `t` (30_encoding.md R113). -/
def ofItems : (t : Ty) → List Item → Option (t.Val × List Item)
  | .int, .word v :: r => some (v, r)
  | .uint, .word v :: r => some (v, r)
  | .fixed, .word v :: r => some (v, r)
  | .string, .bytes s :: r => some (s, r)
  | .array, .bytes b :: r => some (b, r)
  | .newid, .bytes name :: .word ver :: r => some ((name, ver), r)
  | .fd, .handle h :: r => some (h, r)
  | .seq t, .word n :: r => readMany (ofItems t) n.toNat r
  | _, _ => none

/-- Byte `4k+j` of the list in bits `[8j+7:8j]` of data beat `k`, unused lanes 0 (30_encoding.md R114). -/
def packBytes : List Byte → List Word
  | [] => []
  | [b0] => [u32 .le [b0, 0, 0, 0]]
  | [b0, b1] => [u32 .le [b0, b1, 0, 0]]
  | [b0, b1, b2] => [u32 .le [b0, b1, b2, 0]]
  | b0 :: b1 :: b2 :: b3 :: bs => u32 .le [b0, b1, b2, b3] :: packBytes bs

/-- The beats of one item (30_encoding.md R114). -/
def itemBeats : Item → List Word
  | .word w => [w]
  | .handle h => [h]
  | .f64 d => [d.extractLsb' 0 32, d.extractLsb' 32 32]
  | .bytes bs => lenWord bs.length :: packBytes bs

/-- The beats of an item list (30_encoding.md R114). -/
def itemsBeats (is : List Item) : List Word := (is.map itemBeats).flatten

/-- Reads one `Bytes` item from operand beats: its length, at most 65535, then as many data beats as hold the
bytes; the unused lanes of the last are not looked at (30_encoding.md R114; log 13). -/
def takeBytes : List Word → Option (List Byte × List Word)
  | [] => none
  | n :: r =>
    let beats := (n.toNat + 3) / 4
    if n.toNat > Config.itemBytesMax then none
    else if r.length < beats then none
    else some ((((r.take beats).map (bytes32 .le)).flatten).take n.toNat, r.drop beats)

/-- Reads the items of one value of type `t` from operand beats (30_encoding.md R114). -/
def takeItems : Ty → List Word → Option (List Item × List Word)
  | .int, w :: r => some ([.word w], r)
  | .uint, w :: r => some ([.word w], r)
  | .fixed, w :: r => some ([.word w], r)
  | .fd, h :: r => some ([.handle h], r)
  | .string, r => (takeBytes r).map fun (bs, r1) => ([.bytes bs], r1)
  | .array, r => (takeBytes r).map fun (bs, r1) => ([.bytes bs], r1)
  | .newid, r =>
    match takeBytes r with
    | some (bs, ver :: r1) => some ([.bytes bs, .word ver], r1)
    | _ => none
  | .seq t, n :: r =>
    (readMany (takeItems t) n.toNat r).map fun (iss, r1) => (.word n :: iss.flatten, r1)
  | _, [] => none

/-- An item that one packet can carry: a `Bytes` of at most 65535 bytes (30_encoding.md R112, R114). -/
def itemFits : Item → Bool
  | .bytes bs => bs.length ≤ Config.itemBytesMax
  | .word _ => true
  | .handle _ => true
  | .f64 _ => true

/-- The operand shape check of ENC.SEQ: the items are those of exactly one value of the type
(30_encoding.md R110, R114; 43_encode.md R209). -/
def shapeOk (t : Ty) (is : List Item) : Bool :=
  is.all itemFits &&
    match ofItems t is with
    | some (_, []) => true
    | _ => false

end Sys2Proof.Machine
end

