-- ==== Sys2Proof/WellFormed.lean ====
section
/-! DEFINITION. Which instructions a packet on the command port can stand for (30_encoding.md R110 to R114). -/

namespace Sys2Proof

/-- The checks that rule R110 of 30_encoding.md makes on a command's fields and operand items. -/
def Instr.wf : Instr → Bool
  | .frame => true
  | .discard => true
  | .skip _ => true
  | .rdreg _ => true
  | .decInt => true
  | .decUint => true
  | .decFixed => true
  | .decString => true
  | .decArray => true
  | .decNewid => true
  | .decFd => true
  | .decSeq depth _ => depth != 0
  | .encBegin _ _ => true
  | .encInt _ => true
  | .encUint _ => true
  | .encFixed _ => true
  | .encString s => Machine.itemFits (.bytes s)
  | .encArray b => Machine.itemFits (.bytes b)
  | .encNewid name _ => Machine.itemFits (.bytes name)
  | .encFd _ => true
  | .encSeq depth base is =>
    depth != 0 &&
      match Machine.typeOf depth base with
      | some t => Machine.shapeOk t is
      | none => is.isEmpty
  | .encEnd => true
  | .fxFromint _ => true
  | .fxFromfloat _ => true
  | .fxInteger _ => true
  | .fxFraction _ => true
  | .fxFloat _ => true

/-- A well-formed instruction. -/
abbrev WellFormed (i : Instr) : Prop := i.wf = true

end Sys2Proof
end

