-- ==== Sys2Proof/Decode.lean ====
section
/-! DEFINITION. Command words and their operand beats, read and written (30_encoding.md R105 to R114). -/

namespace Sys2Proof

/-- Why a packet stands for no row of the opcode table. The first four make the command malformed
(30_encoding.md R110); the last requests a type outside the supported set (R111). The block answers each of
them itself (60_exceptions.md R248): a rejection never stops the machine. -/
inductive Reject where
  /-- `OP` is none of the fifteen values of R106. -/
  | reservedOp
  /-- A field that the operation does not use is not zero. -/
  | unusedField
  /-- `DEPTH` is not 0 for OP 0x10 or 0x21, or is 0 for OP 0x11 or 0x22. -/
  | badDepth
  /-- The operand beats do not have the shape that the command requires. -/
  | badOperands
  /-- OP 0x10 or 0x21 with `BASE` 7 to 15, in the command word given. -/
  | unsupportedType (w : Word)
  deriving DecidableEq, Repr

/-- `OP`, bits [7:0] (30_encoding.md R105). -/
def opField (w : Word) : Byte := w.extractLsb' 0 8

/-- `BASE`, bits [11:8] (30_encoding.md R105). -/
def baseField (w : Word) : BitVec 4 := w.extractLsb' 8 4

/-- `DEPTH`, bits [15:12] (30_encoding.md R105). -/
def depthField (w : Word) : BitVec 4 := w.extractLsb' 12 4

/-- `IMM16`, bits [31:16] (30_encoding.md R105). -/
def immField (w : Word) : Half := w.extractLsb' 16 16

/-- Format `CMD0`: only `OP` may be non-zero (30_encoding.md R105). -/
def formatCmd0 (w : Word) (r : Except Reject Instr) : Except Reject Instr :=
  if baseField w = 0 ∧ depthField w = 0 ∧ immField w = 0 then r else .error .unusedField

/-- Format `CMDI`: `OP` and `IMM16` (30_encoding.md R105). -/
def formatCmdI (w : Word) (r : Except Reject Instr) : Except Reject Instr :=
  if baseField w = 0 ∧ depthField w = 0 then r else .error .unusedField

/-- Format `CMDT` with `DEPTH` = 0: one base type (30_encoding.md R108, R110). -/
def formatBase (w : Word) (r : Except Reject Instr) : Except Reject Instr :=
  if immField w ≠ 0 then .error .unusedField
  else if depthField w ≠ 0 then .error .badDepth
  else r

/-- Format `CMDT` with `DEPTH` at least 1: a sequence type (30_encoding.md R108, R110). -/
def formatSeq (w : Word) (r : Except Reject Instr) : Except Reject Instr :=
  if immField w ≠ 0 then .error .unusedField
  else if depthField w = 0 then .error .badDepth
  else r

/-- A command that takes no operand items. -/
def takesNone (ops : List Word) (i : Instr) : Except Reject Instr :=
  match ops with
  | [] => .ok i
  | _ => .error .badOperands

/-- A command that takes one `Word` or one `Handle`. -/
def takesWord (ops : List Word) (f : Word → Instr) : Except Reject Instr :=
  match ops with
  | [v] => .ok (f v)
  | _ => .error .badOperands

/-- A command that takes one `F64`, low half first (30_encoding.md R114). -/
def takesF64 (ops : List Word) (f : F64 → Instr) : Except Reject Instr :=
  match ops with
  | [lo, hi] => .ok (f ((hi.zeroExtend 64 <<< 32) ||| lo.zeroExtend 64))
  | _ => .error .badOperands

/-- A command that takes one `Bytes`. -/
def takesBytes (ops : List Word) (f : List Byte → Instr) : Except Reject Instr :=
  match Machine.takeBytes ops with
  | some (bs, []) => .ok (f bs)
  | _ => .error .badOperands

/-- A command that takes a `Bytes` and then a `Word`. -/
def takesBytesWord (ops : List Word) (f : List Byte → Word → Instr) : Except Reject Instr :=
  match Machine.takeBytes ops with
  | some (bs, [v]) => .ok (f bs v)
  | _ => .error .badOperands

/-- A command that takes the items of one value of a type (30_encoding.md R113, R114). -/
def takesItems (t : Ty) (ops : List Word) (f : List Item → Instr) : Except Reject Instr :=
  match Machine.takeItems t ops with
  | some (is, []) => .ok (f is)
  | _ => .error .badOperands

/-- OP 0x10 by `BASE` (30_encoding.md R106, R107). The operand check applies to a supported type only
(60_exceptions.md R248 (1); log 14). -/
def decodeDec (w : Word) (ops : List Word) : Except Reject Instr :=
  let base := baseField w
  if base = 0 then takesNone ops .decInt
  else if base = 1 then takesNone ops .decUint
  else if base = 2 then takesNone ops .decFixed
  else if base = 3 then takesNone ops .decString
  else if base = 4 then takesNone ops .decArray
  else if base = 5 then takesNone ops .decNewid
  else if base = 6 then takesNone ops .decFd
  else .error (.unsupportedType w)

/-- OP 0x11 (30_encoding.md R106): a sequence of a supported type takes no operand item. -/
def decodeDecSeq (w : Word) (ops : List Word) : Except Reject Instr :=
  match Machine.typeOf (depthField w) (baseField w) with
  | some _ => takesNone ops (.decSeq (depthField w) (baseField w))
  | none => .ok (.decSeq (depthField w) (baseField w))

/-- OP 0x21 by `BASE` (30_encoding.md R106, R107); an unsupported type's operands are dropped whole (R111). -/
def decodeEnc (w : Word) (ops : List Word) : Except Reject Instr :=
  let base := baseField w
  if base = 0 then takesWord ops .encInt
  else if base = 1 then takesWord ops .encUint
  else if base = 2 then takesWord ops .encFixed
  else if base = 3 then takesBytes ops .encString
  else if base = 4 then takesBytes ops .encArray
  else if base = 5 then takesBytesWord ops .encNewid
  else if base = 6 then takesWord ops .encFd
  else .error (.unsupportedType w)

/-- OP 0x22 (30_encoding.md R106): the operands are the items of one value of the type; an unsupported type's
operands are dropped whole (R111). -/
def decodeEncSeq (w : Word) (ops : List Word) : Except Reject Instr :=
  match Machine.typeOf (depthField w) (baseField w) with
  | some t => takesItems t ops (.encSeq (depthField w) (baseField w))
  | none => .ok (.encSeq (depthField w) (baseField w) [])

/-- The command that a packet stands for (30_encoding.md R105, R106, R110, R111). -/
def decode (p : Packet) : Except Reject Instr :=
  let w := p.word
  let ops := p.operands
  let op := opField w
  if op = 0x01 then formatCmd0 w (takesNone ops .frame)
  else if op = 0x02 then formatCmd0 w (takesNone ops .discard)
  else if op = 0x03 then formatCmdI w (takesNone ops (.skip (immField w)))
  else if op = 0x08 then formatCmdI w (takesNone ops (.rdreg (immField w)))
  else if op = 0x10 then formatBase w (decodeDec w ops)
  else if op = 0x11 then formatSeq w (decodeDecSeq w ops)
  else if op = 0x20 then formatCmdI w (takesWord ops (.encBegin (immField w)))
  else if op = 0x21 then formatBase w (decodeEnc w ops)
  else if op = 0x22 then formatSeq w (decodeEncSeq w ops)
  else if op = 0x23 then formatCmd0 w (takesNone ops .encEnd)
  else if op = 0x30 then formatCmd0 w (takesWord ops .fxFromint)
  else if op = 0x31 then formatCmd0 w (takesF64 ops .fxFromfloat)
  else if op = 0x32 then formatCmd0 w (takesWord ops .fxInteger)
  else if op = 0x33 then formatCmd0 w (takesWord ops .fxFraction)
  else if op = 0x34 then formatCmd0 w (takesWord ops .fxFloat)
  else .error .reservedOp

/-- A command word from its fields (30_encoding.md R105). -/
def commandWord (op : Byte) (base depth : BitVec 4) (imm : Half) : Word := 
  (imm.zeroExtend 32 <<< 16) ||| (depth.zeroExtend 32 <<< 12) ||| (base.zeroExtend 32 <<< 8) ||| op.zeroExtend 32

/-- The command word of an instruction (30_encoding.md R106; the Encoding lines of files 40 to 44). -/
def encodeWord : Instr → Word
  | .frame => commandWord 0x01 0 0 0
  | .discard => commandWord 0x02 0 0 0
  | .skip n => commandWord 0x03 0 0 n
  | .rdreg r => commandWord 0x08 0 0 r
  | .decInt => commandWord 0x10 0 0 0
  | .decUint => commandWord 0x10 1 0 0
  | .decFixed => commandWord 0x10 2 0 0
  | .decString => commandWord 0x10 3 0 0
  | .decArray => commandWord 0x10 4 0 0
  | .decNewid => commandWord 0x10 5 0 0
  | .decFd => commandWord 0x10 6 0 0
  | .decSeq depth base => commandWord 0x11 base depth 0
  | .encBegin opcode _ => commandWord 0x20 0 0 opcode
  | .encInt _ => commandWord 0x21 0 0 0
  | .encUint _ => commandWord 0x21 1 0 0
  | .encFixed _ => commandWord 0x21 2 0 0
  | .encString _ => commandWord 0x21 3 0 0
  | .encArray _ => commandWord 0x21 4 0 0
  | .encNewid _ _ => commandWord 0x21 5 0 0
  | .encFd _ => commandWord 0x21 6 0 0
  | .encSeq depth base _ => commandWord 0x22 base depth 0
  | .encEnd => commandWord 0x23 0 0 0
  | .fxFromint _ => commandWord 0x30 0 0 0
  | .fxFromfloat _ => commandWord 0x31 0 0 0
  | .fxInteger _ => commandWord 0x32 0 0 0
  | .fxFraction _ => commandWord 0x33 0 0 0
  | .fxFloat _ => commandWord 0x34 0 0 0

/-- The operand items of an instruction (30_encoding.md R106, R113). -/
def operandItems : Instr → List Item
  | .frame => []
  | .discard => []
  | .skip _ => []
  | .rdreg _ => []
  | .decInt => []
  | .decUint => []
  | .decFixed => []
  | .decString => []
  | .decArray => []
  | .decNewid => []
  | .decFd => []
  | .decSeq _ _ => []
  | .encBegin _ sender => [.word sender]
  | .encInt v => [.word v]
  | .encUint v => [.word v]
  | .encFixed v => [.word v]
  | .encString s => [.bytes s]
  | .encArray b => [.bytes b]
  | .encNewid name version => [.bytes name, .word version]
  | .encFd h => [.handle h]
  | .encSeq _ _ is => is
  | .encEnd => []
  | .fxFromint n => [.word n]
  | .fxFromfloat x => [.f64 x]
  | .fxInteger v => [.word v]
  | .fxFraction v => [.word v]
  | .fxFloat v => [.word v]

/-- The packet of an instruction: its command word, then the beats of its operand items (30_encoding.md R114). -/
def encode (i : Instr) : Packet := ⟨encodeWord i, Machine.itemsBeats (operandItems i)⟩

/-- How many operand beats a command word is followed by when every one of them is zero: a zero beat is a
`Word`, a `Handle`, half an `F64`, an empty `Bytes` or an empty sequence (30_encoding.md R106, R114; log 21). -/
def zeroBeats (w : Word) : Nat :=
  let op := opField w
  if op = 0x31 then 2
  else if op = 0x21 then (if baseField w = 5 then 2 else 1)
  else if op = 0x20 ∨ op = 0x22 ∨ op = 0x30 ∨ op = 0x32 ∨ op = 0x33 ∨ op = 0x34 then 1
  else 0

/-- The packet whose bits are `w`, the command word in bits 31..0 and each operand beat in the next 32 bits;
bits from `nbits` on are 0 (log 21). -/
def tablePacket (nbits w : Nat) : Packet :=
  let v := w % 2 ^ nbits
  let word := BitVec.ofNat 32 v
  ⟨word, (List.range (zeroBeats word)).map fun k => BitVec.ofNat 32 (v >>> (32 * (k + 1)))⟩

/-- The instruction that the decoder reads from an instruction of the opcode table whose bits are `w`. -/
def decodeTableWord (nbits w : Nat) : Option Instr :=
  match decode (tablePacket nbits w) with
  | .ok i => some i
  | .error _ => none

end Sys2Proof
end

