-- ==== Sys2Proof/Machine/State.lean ====
section
/-! DEFINITION. The state of the block, of its ports and of its inputs, and the state after reset
(10_state.md R20 to R47; 20_memory.md R60; 70_reset_and_hazards.md R280). -/

namespace Sys2Proof.Machine

/-- `MODE`, the receive-side operating state (10_state.md R22). -/
inductive Mode where
  | idle
  | ready
  | decodeFault
  | dead
  deriving DecidableEq, Repr

/-- `TXMODE`, the transmit-side state (10_state.md R35). -/
inductive TxMode where
  | txIdle
  | txOpen
  | txFault
  deriving DecidableEq, Repr

/-- The status of a response (30_encoding.md R115); the codes are in Flags.lean. -/
inductive Status where
  | ok
  | hdrRead
  | badSize
  | shortPayload
  | ancParse
  | malformedString
  | descUnderflow
  | payloadUnderrun
  | typeContract
  | encOverflow
  | badCmd
  | badMode
  | badReg
  deriving DecidableEq, Repr

/-- One ancillary record, already classified by the transport (20_memory.md R65). -/
inductive AncRecord where
  /-- A file-descriptor-rights record with its handles in order. -/
  | rights (hs : List Handle)
  /-- A record that is not a rights record. -/
  | notRights
  /-- A record or remainder with any other parse failure. -/
  | bad
  deriving DecidableEq, Repr

/-- One event on an output port (00_scope.md R10). -/
inductive Output where
  /-- The response of a command (30_encoding.md R116). -/
  | response (status : Status) (items : List Item)
  /-- `Close(h)` (20_memory.md R67). -/
  | close (h : Handle)
  /-- `TxEmit(bytes, handles)` (20_memory.md R66). -/
  | txEmit (bytes : List Byte) (handles : List Handle)
  deriving DecidableEq, Repr

/-- What the outside world can do to the block (20_memory.md R60, R64, R65, R68; 70_reset_and_hazards.md R280,
R281, R283). DESIGN CHOICE; log 2. -/
inductive Event where
  /-- The command master puts a command on the command port. -/
  | command (p : Packet)
  /-- The transport delivers bytes of the RX stream. -/
  | deliver (bs : List Byte)
  /-- The transport presents the ancillary records of the next FRAME that has none yet. -/
  | records (rs : List AncRecord)
  /-- The transport reports that the RX stream has ended or failed. -/
  | streamEnd
  /-- The transport presents a new connection. -/
  | connect
  /-- The `BYTE_ORDER` strap takes a level. -/
  | strap (bo : ByteOrder)
  /-- Reset is asserted. -/
  | reset
  deriving DecidableEq, Repr

/-- The faults of the machine: none. The spec has no condition that stops the block (60_exceptions.md: a
failure ends a command and is reported in its response), so no meaning raises a fault. Safe. -/
inductive Fault where
  deriving DecidableEq, Repr

/-- Why the model refuses an instruction. -/
inductive Refusal where
  /-- Raised by an arm of `exec` for an instruction that has no meaning yet, by its mnemonic; safe. No arm
  raises it now. -/
  | notModelled (mnemonic : String)
  deriving DecidableEq, Repr

/-- The whole state: the registers and buffers of 10_state.md R20, then the ports and inputs of 20_memory.md
R60, then the parameter `DESC_MAX`, then two fields of the model. -/
structure State where
  /-- `CFG.BO` (10_state.md R21). -/
  bo : ByteOrder
  /-- `MODE` (R22). -/
  mode : Mode
  /-- `SENDER` (R23). -/
  sender : Word
  /-- `OPCODE` (R24). -/
  opcode : Half
  /-- `SIZE` (R25). -/
  size : Half
  /-- `PLEN` (R26). -/
  plen : Half
  /-- `PAYLOAD` (R27): the byte at offset k is entry k (log 18). -/
  payload : List Byte
  /-- `CUR` (R30). -/
  cur : Half
  /-- `DESC` (R28). -/
  desc : List Handle
  /-- `DCNT` (R28). -/
  dcnt : Word
  /-- `DCUR` (R30). -/
  dcur : Word
  /-- `ERR` (R31). -/
  err : Byte
  /-- `ERRINFO` (R32). -/
  errinfo : Word
  /-- `LEAK` (R33). -/
  leak : Bool
  /-- `LEAKCNT` (R34). -/
  leakcnt : Word
  /-- `TXMODE` (R35). -/
  txmode : TxMode
  /-- `TXSENDER` (R36). -/
  txsender : Word
  /-- `TXOPCODE` (R36). -/
  txopcode : Half
  /-- `TXBUF` (R37): the byte at offset k is entry k (log 18). -/
  txbuf : List Byte
  /-- `TXLEN` (R37). -/
  txlen : Half
  /-- `TXDESC` (R38). -/
  txdesc : List Handle
  /-- `TXDCNT` (R38). -/
  txdcnt : Word
  /-- `TXERR` (R39). -/
  txerr : Byte
  /-- The command port (20_memory.md R68): commands waiting, the one being carried out at the head. -/
  cmdPort : List Packet
  /-- The RX byte stream (R64): bytes that have arrived and no FRAME has consumed. -/
  rx : List Byte
  /-- The transport has reported end or failure of the stream (R64). -/
  rxEnd : Bool
  /-- The ancillary record port (R60, R65): one list for each FRAME to come (log 11). -/
  anc : List (List AncRecord)
  /-- The `BYTE_ORDER` strap (70_reset_and_hazards.md R281). -/
  strap : ByteOrder
  /-- The reset input (R280). -/
  resetIn : Bool
  /-- The response, TX message and CLOSE ports: every event so far, oldest first (20_memory.md R76; log 4). -/
  out : List Output
  /-- The parameter `DESC_MAX` (00_scope.md R4): the capacity of the descriptor list `DESC`. The model takes it
  as an argument here; no step changes it (log 6). -/
  descMax : Word
  /-- The MODEL's own: what the outside world will do, first first (log 2). -/
  agenda : List Event
  /-- The MODEL's own: how many free values have been used (log 5). -/
  draws : Nat
  deriving DecidableEq, Repr

/-- The machine right after reset (70_reset_and_hazards.md R280, 10_state.md R47), with nothing waiting at any
port (logs 1 to 6, 9). -/
def State.reset : State where
  bo := Config.byteOrder
  mode := .idle
  sender := 0
  opcode := 0
  size := 0
  plen := 0
  payload := []
  cur := 0
  desc := []
  dcnt := 0
  dcur := 0
  err := 0
  errinfo := 0
  leak := false
  leakcnt := 0
  txmode := .txIdle
  txsender := 0
  txopcode := 0
  txbuf := []
  txlen := 0
  txdesc := []
  txdcnt := 0
  txerr := 0
  cmdPort := []
  rx := []
  rxEnd := false
  anc := []
  strap := Config.byteOrder
  resetIn := false
  out := []
  descMax := Config.descMax
  agenda := []
  draws := 0

/-- The buffers hold no more than their capacity of 65527 bytes (10_state.md R27, R37). A list of bytes by
offset has one form only, so equal contents are equal data (log 18). -/
abbrev Memory.wf (s : State) : Prop :=
  s.payload.length ≤ Config.payloadMax ∧ s.txbuf.length ≤ Config.payloadMax

end Sys2Proof.Machine
end

