-- ==== Sys2Proof/Machine/Flags.lean ====
section
/-! DEFINITION. Status codes and their classes, the mode and flag bits as software reads them, and the register
map (30_encoding.md R115, R116; 10_state.md R22, R35, R40 to R42). -/

namespace Sys2Proof.Machine

/-- The classes of a status code (60_exceptions.md R240). -/
inductive StatusClass where
  | success
  | transport
  | framing
  | decode
  | typeContract
  | encode
  | refusal
  deriving DecidableEq, Repr

/-- The status code (30_encoding.md R115). -/
def Status.code : Status → Byte
  | .ok => 0x00
  | .hdrRead => 0x10
  | .badSize => 0x20
  | .shortPayload => 0x21
  | .ancParse => 0x22
  | .malformedString => 0x30
  | .descUnderflow => 0x31
  | .payloadUnderrun => 0x32
  | .typeContract => 0x40
  | .encOverflow => 0x50
  | .badCmd => 0x60
  | .badMode => 0x61
  | .badReg => 0x62

/-- The class of a status (30_encoding.md R115). -/
def Status.cls : Status → StatusClass
  | .ok => .success
  | .hdrRead => .transport
  | .badSize => .framing
  | .shortPayload => .framing
  | .ancParse => .framing
  | .malformedString => .decode
  | .descUnderflow => .decode
  | .payloadUnderrun => .decode
  | .typeContract => .typeContract
  | .encOverflow => .encode
  | .badCmd => .refusal
  | .badMode => .refusal
  | .badReg => .refusal

/-- The two bits of `MODE` (10_state.md R22). -/
def Mode.bits : Mode → BitVec 2
  | .idle => 0
  | .ready => 1
  | .decodeFault => 2
  | .dead => 3

/-- The two bits of `TXMODE` (10_state.md R35). -/
def TxMode.bits : TxMode → BitVec 2
  | .txIdle => 0
  | .txOpen => 1
  | .txFault => 2

/-- The bit `CFG.BO` (10_state.md R21). -/
def orderBit : ByteOrder → BitVec 1
  | .le => 0
  | .be => 1

/-- Register `STATUS` (10_state.md R41). -/
def State.statusReg (s : State) : Word :=
  s.mode.bits.zeroExtend 32 ||| (s.txmode.bits.zeroExtend 32 <<< 2) ||| ((BitVec.ofBool s.leak).zeroExtend 32 <<< 4)

/-- Register `CFG` (10_state.md R42). -/
def State.cfgReg (s : State) : Word := (orderBit s.bo).zeroExtend 32

/-- The register map: a number that it does not list is reserved (10_state.md R40). -/
def State.readReg (s : State) (r : Half) : Option Word :=
  if r = 0x00 then some s.cfgReg
  else if r = 0x01 then some s.statusReg
  else if r = 0x02 then some (s.err.zeroExtend 32)
  else if r = 0x03 then some s.errinfo
  else if r = 0x04 then some s.sender
  else if r = 0x05 then some (s.opcode.zeroExtend 32)
  else if r = 0x06 then some (s.size.zeroExtend 32)
  else if r = 0x07 then some (s.plen.zeroExtend 32)
  else if r = 0x08 then some (s.cur.zeroExtend 32)
  else if r = 0x09 then some s.dcnt
  else if r = 0x0A then some s.dcur
  else if r = 0x0B then some s.leakcnt
  else if r = 0x10 then some s.txsender
  else if r = 0x11 then some (s.txopcode.zeroExtend 32)
  else if r = 0x12 then some (s.txlen.zeroExtend 32)
  else if r = 0x13 then some s.txdcnt
  else if r = 0x14 then some (s.txerr.zeroExtend 32)
  else none

/-- The packet of a response: one beat with the status code in bits [7:0] and zero elsewhere, then the result
items (30_encoding.md R114). -/
def responsePacket (status : Status) (is : List Item) : List Word :=
  status.code.zeroExtend 32 :: itemsBeats is

end Sys2Proof.Machine
end

