-- ==== Sys2Proof/Machine/Ops.lean ====
section
/-! DEFINITION. The named operations over the buffers, streams and ports, the entry into a failure, the return
from one, the order of checks, reset, and the moves of the outside world (00_scope.md R8; 20_memory.md R61 to
R67; 40_framer.md R131; 60_exceptions.md R248 to R258; 70_reset_and_hazards.md R280). -/

namespace Sys2Proof.Machine

/-! ### Buffers -/

/-- `MemRead(addr, n)`: n bytes of `PAYLOAD` from offset addr, only when `addr + n <= PLEN` in natural
arithmetic (20_memory.md R61, 00_scope.md R6). Where R29 of 10_state.md does not hold and `PAYLOAD` is shorter
than `PLEN`, the missing bytes do not exist either (log 8). -/
def State.memRead (s : State) (addr n : Nat) : Option (List Byte) :=
  if addr + n ≤ s.plen.toNat ∧ addr + n ≤ s.payload.length then some ((s.payload.drop addr).take n) else none

/-- `MemWrite(addr, n, v)` with n the length of v: the bytes v into `TXBUF` at offset addr (20_memory.md R63). -/
def State.memWrite (s : State) (addr : Nat) (v : List Byte) : State :=
  { s with txbuf := s.txbuf.take addr ++ v ++ s.txbuf.drop (addr + v.length) }

/-- `DESC[d]` for `d < DCNT` (20_memory.md R62; log 8). -/
def State.descAt (s : State) (d : Nat) : Option Handle :=
  if d < s.dcnt.toNat then s.desc[d]? else none

/-! ### Ports -/

/-- `Close(h)` for each handle in order (20_memory.md R67). -/
def State.closeAll (s : State) (hs : List Handle) : State :=
  { s with out := s.out ++ hs.map Output.close }

/-- `TxEmit(bytes, handles)` (20_memory.md R66). -/
def State.txEmit (s : State) (bytes : List Byte) (handles : List Handle) : State :=
  { s with out := s.out ++ [Output.txEmit bytes handles] }

/-- `Respond(status, items)`: the response of the command at the head of the command port, which is then done
with (00_scope.md R8, 20_memory.md R68, 30_encoding.md R116). -/
def State.respond (s : State) (status : Status) (is : List Item) : State :=
  { s with cmdPort := s.cmdPort.tail, out := s.out ++ [Output.response status is] }

/-- The answer of `RxRead` (20_memory.md R64), with the stream that is left. -/
inductive RxAnswer where
  | ok (b : List Byte) (rest : List Byte)
  | short (k : Nat) (rest : List Byte)
  | wait
  deriving DecidableEq, Repr

/-- `RxRead(n)` (20_memory.md R64): exactly n bytes once they have arrived, `Short(k)` when the stream has ended
after k more, and no answer until then. `RxRead(0)` answers at once. -/
def rxRead (n : Nat) (rx : List Byte) (ended : Bool) : RxAnswer :=
  if n ≤ rx.length then .ok (rx.take n) (rx.drop n)
  else if ended then .short rx.length []
  else .wait

/-- The ancillary records of the FRAME being carried out: what `AncTake()` answers (20_memory.md R65; log 11). -/
def State.ancRecords (s : State) : List AncRecord := s.anc.headD []

/-- The transport's accumulation for this FRAME is gone: taken by `AncTake()`, or dropped by the transport when
FRAME failed before (10_state.md R44; log 11). -/
def State.ancDone (s : State) : State := { s with anc := s.anc.tail }

/-- The result of going through the records: all handles, or a fatal record with the handles collected. -/
inductive AncScan where
  | handles (ds : List Handle)
  | fatal (j : Nat) (ds : List Handle)
  deriving DecidableEq, Repr

/-- Step 4 of FRAME (40_framer.md R130, R135) from record number j on, with the handles collected so far. More
handles than the capacity `max` of the descriptor list are the fatal case of 93_implementation_defined.md U7; that
the record which passes the capacity is then the one named is the model's choice (log 6). -/
def scanRecords (max : Nat) : List AncRecord → Nat → List Handle → AncScan
  | [], _, ds => .handles ds
  | .rights hs :: rs, j, ds =>
    if (ds ++ hs).length > max then .fatal j (ds ++ hs) else scanRecords max rs (j + 1) (ds ++ hs)
  | .notRights :: rs, j, ds => scanRecords max rs (j + 1) ds
  | .bad :: _, j, ds => .fatal j ds

/-! ### Discard, and the entry into a failure -/

/-- `n <- DCNT - DCUR`: how many descriptors the caller has not consumed (40_framer.md R131; log 19). -/
def State.unconsumed (s : State) : Nat := s.dcnt.toNat - s.dcur.toNat

/-- The envelope registers and buffers at their cleared values (40_framer.md R131). -/
def State.clearEnvelope (s : State) : State :=
  { s with
    sender := 0
    opcode := 0
    size := 0
    plen := 0
    cur := 0
    dcnt := 0
    dcur := 0
    payload := []
    desc := [] }

/-- `do_discard()` (40_framer.md R131). -/
def State.doDiscard (s : State) : State :=
  let n := s.unconsumed
  let s1 := s.closeAll ((s.desc.drop s.dcur.toNat).take n)
  { s1.clearEnvelope with
    leak := s.leak || decide (0 < n)
    leakcnt := BitVec.ofNat 32 n
    err := 0
    errinfo := 0
    mode := .idle }

/-- An envelope is loaded: `MODE` is `READY` or `DECODE_FAULT` (10_state.md R22). -/
def State.loaded (s : State) : Bool := s.mode == .ready || s.mode == .decodeFault

/-- `do_discard()` when an envelope is loaded, nothing otherwise (40_framer.md R130, 60_exceptions.md R253). -/
def State.discardLoaded (s : State) : State := if s.loaded then s.doDiscard else s

/-- `raise E(info)`: the entry of the failure's class (60_exceptions.md R250 to R255). -/
def State.raise (s : State) (e : Status) (info : Word) : State :=
  match e.cls with
  | .success => s.respond e []
  | .transport => { s with mode := .dead, err := e.code, errinfo := info }.respond e []
  | .framing => { s with mode := .dead, err := e.code, errinfo := info }.respond e []
  | .decode => { s with mode := .decodeFault, err := e.code, errinfo := info }.respond e []
  | .typeContract => { s.discardLoaded with mode := .dead, err := e.code, errinfo := info }.respond e []
  | .encode => { s with txmode := .txFault, txerr := e.code }.respond e []
  | .refusal => s.respond e []

/-! ### The order of checks (60_exceptions.md R248) -/

/-- Checks 3, 5 and 6 for a command whose word, operands and type have passed: `DEAD`, mode legality by R261,
execution. -/
def State.checked (s : State) (legal : Bool) (body : State → State) : State :=
  if s.mode = .dead then s.raise .badMode 0
  else if legal then body s
  else s.raise .badMode 0

/-- Checks 3 and 4 for a command with an unsupported type: `DEAD`, then the type contract, which records the
command word. -/
def State.unsupported (s : State) (word : Word) : State :=
  if s.mode = .dead then s.raise .badMode 0 else s.raise .typeContract word

/-- The answer to a packet that stands for no row of the opcode table (30_encoding.md R110, R111). -/
def State.reject (s : State) : Reject → State
  | .reservedOp => s.raise .badCmd 0
  | .unusedField => s.raise .badCmd 0
  | .badDepth => s.raise .badCmd 0
  | .badOperands => s.raise .badCmd 0
  | .unsupportedType w => s.unsupported w

/-! ### FRAME's reads (40_framer.md R130, R134, R137) -/

/-- `parse_header` (40_framer.md R134): sender, size, opcode of 8 header bytes. -/
def parseHeader (bo : ByteOrder) (h : List Byte) : Word × Half × Half :=
  let w1 := u32 bo (h.drop 4)
  (u32 bo (h.take 4), w1.extractLsb' 16 16, w1.extractLsb' 0 16)

/-- `pack_header` (40_framer.md R134, 43_encode.md R210). -/
def packHeader (bo : ByteOrder) (sender : Word) (size opcode : Half) : List Byte :=
  bytes32 bo sender ++ bytes32 bo ((size.zeroExtend 32 <<< 16) ||| opcode.zeroExtend 32)

/-- What the reads of one FRAME come to. -/
inductive FrameRead where
  /-- Some read has no answer yet: FRAME holds. -/
  | holds
  /-- A read came back short, or the size is bad: the failure, its detail and the stream left. -/
  | fails (e : Status) (info : Word) (rest : List Byte)
  /-- The header, the payload bytes and the stream left. -/
  | done (sender : Word) (size opcode : Half) (payload rest : List Byte)
  deriving DecidableEq, Repr

/-- Steps 1 to 3 of FRAME on the RX stream (40_framer.md R130). -/
def readFrame (bo : ByteOrder) (rx : List Byte) (ended : Bool) : FrameRead :=
  match rxRead 4 rx ended with
  | .wait => .holds
  | .short k rest => .fails .hdrRead (BitVec.ofNat 32 k) rest
  | .ok r0 rx1 =>
    match rxRead 4 rx1 ended with
    | .wait => .holds
    | .short k rest => .fails .hdrRead (BitVec.ofNat 32 (4 + k)) rest
    | .ok r1 rx2 =>
      let w1 := u32 bo r1
      let (sender, size, opcode) := parseHeader bo (r0 ++ r1)
      if size.toNat < Config.headerBytes then .fails .badSize w1 rx2
      else
        match rxRead (size.toNat - Config.headerBytes) rx2 ended with
        | .wait => .holds
        | .short k rest => .fails .shortPayload (BitVec.ofNat 32 k) rest
        | .ok rp rx3 => .done sender size opcode rp rx3

/-! ### Reset and the outside world -/

/-- The command being carried out is a FRAME that holds (40_framer.md R137). -/
def State.frameHolds (s : State) : Bool :=
  match s.cmdPort with
  | [] => false
  | p :: _ =>
    decide (decode p = .ok .frame) && s.mode != .dead && decide (readFrame s.bo s.rx s.rxEnd = .holds)

/-- Reset (70_reset_and_hazards.md R280 to R282): every register and buffer of the block at its reset value,
`CFG.BO` from the strap, a FRAME that holds abandoned without a response, no port event. What belongs to the
master and the transport stays (log 9). -/
def State.applyReset (s : State) : State :=
  { State.reset with
    bo := s.strap
    cmdPort := if s.frameHolds then s.cmdPort.tail else s.cmdPort
    rx := s.rx
    rxEnd := s.rxEnd
    anc := s.anc
    strap := s.strap
    resetIn := false
    out := s.out
    descMax := s.descMax
    agenda := s.agenda
    draws := s.draws }

/-- One event of the outside world happens (logs 2, 9, 12). -/
def State.occur (s : State) : Event → State
  | .command p => { s with cmdPort := s.cmdPort ++ [p] }
  | .deliver bs => if s.rxEnd then s else { s with rx := s.rx ++ bs }
  | .records rs => { s with anc := s.anc ++ [rs] }
  | .streamEnd => { s with rxEnd := true }
  | .connect => { s with rx := [], rxEnd := false, anc := [] }
  | .strap bo => { s with strap := bo }
  | .reset => { s with resetIn := true }

/-- The block waits for a command, or holds in FRAME: the next event of the outside world happens, if there is
one (40_framer.md R137, 70_reset_and_hazards.md R280; logs 2, 15). -/
def State.await (s : State) : State :=
  match s.agenda with
  | [] => s
  | e :: es => { s with agenda := es }.occur e

end Sys2Proof.Machine
end

