-- ==== Sys2Proof/Machine/Codec.lean ====
section
/-! DEFINITION. The pure decoding function, and the wrappers that every DEC command and every ENC value command
share (42_decode.md R170, R179, R180; 43_encode.md R200, R211). -/

namespace Sys2Proof.Machine

/-- What `dec` answers: a value with the new cursor and the new descriptor index, or a failure
(42_decode.md R170). -/
abbrev DecResult (α : Type) : Type := Except Status (α × Nat × Nat)

/-- `dec_u32(c)` (42_decode.md R179). -/
def decU32 (s : State) (c : Nat) : Except Status (Word × Nat) :=
  match s.memRead c 4 with
  | none => .error .payloadUnderrun
  | some b => .ok (u32 s.bo b, c + 4)

/-- A scalar at cursor c (42_decode.md R171 to R173). -/
def decScalar (s : State) (c d : Nat) : DecResult Word :=
  match decU32 s c with
  | .error e => .error e
  | .ok (v, c1) => .ok (v, c1, d)

/-- `dec(STRING, c, d)` (42_decode.md R174). -/
def decStringAt (s : State) (c d : Nat) : DecResult (List Byte) :=
  match decU32 s c with
  | .error e => .error e
  | .ok (l, c1) =>
    if l = 0 then .error .malformedString
    else
      let n := l.toNat + pad l.toNat
      match s.memRead c1 n with
      | none => .error .payloadUnderrun
      | some body =>
        if body[l.toNat - 1]? = some 0x00 then .ok (body.take (l.toNat - 1), c1 + n, d)
        else .error .malformedString

/-- `dec(ARRAY, c, d)` (42_decode.md R175). -/
def decArrayAt (s : State) (c d : Nat) : DecResult (List Byte) :=
  match decU32 s c with
  | .error e => .error e
  | .ok (l, c1) =>
    let n := l.toNat + pad l.toNat
    match s.memRead c1 n with
    | none => .error .payloadUnderrun
    | some body => .ok (body.take l.toNat, c1 + n, d)

/-- `dec(NEWID, c, d)` (42_decode.md R176). -/
def decNewidAt (s : State) (c d : Nat) : DecResult (List Byte × Word) :=
  match decStringAt s c d with
  | .error e => .error e
  | .ok (name, c1, d1) =>
    match decU32 s c1 with
    | .error e => .error e
    | .ok (ver, c2) => .ok ((name, ver), c2, d1)

/-- `dec(FD, c, d)` (42_decode.md R177). -/
def decFdAt (s : State) (c d : Nat) : DecResult Handle :=
  match s.descAt d with
  | none => .error .descUnderflow
  | some h => .ok (h, c, d + 1)

/-- `repeat N times` of `dec(SEQ(t), c, d)`: N elements one after another (42_decode.md R178). -/
def decMany {α : Type} (f : Nat → Nat → DecResult α) : Nat → Nat → Nat → DecResult (List α)
  | 0, c, d => .ok ([], c, d)
  | n + 1, c, d =>
    match f c d with
    | .error e => .error e
    | .ok (v, c1, d1) =>
      match decMany f n c1 d1 with
      | .error e => .error e
      | .ok (vs, c2, d2) => .ok (v :: vs, c2, d2)

/-- `dec(t, c, d)` (42_decode.md R170 to R178). -/
def dec (s : State) : (t : Ty) → Nat → Nat → DecResult t.Val
  | .int, c, d => decScalar s c d
  | .uint, c, d => decScalar s c d
  | .fixed, c, d => decScalar s c d
  | .string, c, d => decStringAt s c d
  | .array, c, d => decArrayAt s c d
  | .newid, c, d => decNewidAt s c d
  | .fd, c, d => decFdAt s c d
  | .seq t, c, d =>
    match decU32 s c with
    | .error e => .error e
    | .ok (n, c1) => decMany (dec s t) n.toNat c1 d

/-- The wrapper of every DEC command: both cursors are committed together, or nothing is (42_decode.md R170,
R180; 60_exceptions.md R252; log 16). -/
def State.decodeArg (t : Ty) (s : State) : State :=
  match dec s t s.cur.toNat s.dcur.toNat with
  | .error e => s.raise e (s.cur.zeroExtend 32)
  | .ok (v, c, d) =>
    { s with cur := BitVec.ofNat 16 c, dcur := BitVec.ofNat 32 d }.respond .ok (items t v)

/-- The wrapper of every ENC value command (43_encode.md R200): bytes and handles appended together, or nothing
when the payload would exceed 65527 bytes (R211). -/
def State.encodeArg (t : Ty) (v : t.Val) (s : State) : State :=
  let (bs, hs) := enc s.bo t v
  if s.txlen.toNat + bs.length > Config.payloadMax then s.raise .encOverflow 0
  else
    let s1 := s.memWrite s.txlen.toNat bs
    { s1 with
      txlen := BitVec.ofNat 16 (s.txlen.toNat + bs.length)
      txdesc := s.txdesc ++ hs
      txdcnt := s.txdcnt + BitVec.ofNat 32 hs.length }.respond .ok []

end Sys2Proof.Machine
end

