-- ==== Sys2Proof/Machine/Decoder.lean ====
section
/-! DEFINITION. The decode commands, legal in `READY` only (42_decode.md; 60_exceptions.md R261). -/

namespace Sys2Proof.Machine

/-- A DEC command of a supported type: checks 3 and 5 of 60_exceptions.md R248, then the shared wrapper. -/
def State.decCommand (t : Ty) (s : State) : State :=
  s.checked (s.mode == .ready) (State.decodeArg t)

/-- DEC.INT (42_decode.md R171). -/
def execDecInt (s : State) : Host.Outcome State Fault Refusal := .next (s.decCommand .int)

/-- DEC.UINT (42_decode.md R172). -/
def execDecUint (s : State) : Host.Outcome State Fault Refusal := .next (s.decCommand .uint)

/-- DEC.FIXED (42_decode.md R173). -/
def execDecFixed (s : State) : Host.Outcome State Fault Refusal := .next (s.decCommand .fixed)

/-- DEC.STRING (42_decode.md R174). -/
def execDecString (s : State) : Host.Outcome State Fault Refusal := .next (s.decCommand .string)

/-- DEC.ARRAY (42_decode.md R175). -/
def execDecArray (s : State) : Host.Outcome State Fault Refusal := .next (s.decCommand .array)

/-- DEC.NEWID (42_decode.md R176). -/
def execDecNewid (s : State) : Host.Outcome State Fault Refusal := .next (s.decCommand .newid)

/-- DEC.FD (42_decode.md R177). -/
def execDecFd (s : State) : Host.Outcome State Fault Refusal := .next (s.decCommand .fd)

/-- DEC.SEQ (42_decode.md R178): `DEPTH` = 0 is malformed (30_encoding.md R110), `BASE` 7 to 15 a type-contract
violation that records the command word (R111, 60_exceptions.md R248, R253; logs 14, 22). -/
def execDecSeq (depth base : BitVec 4) (s : State) : Host.Outcome State Fault Refusal :=
  if depth = 0 then .next (s.raise .badCmd 0)
  else
    match typeOf depth base with
    | none => .next (s.unsupported (encodeWord (.decSeq depth base)))
    | some t => .next (s.decCommand t)

end Sys2Proof.Machine
end

