-- ==== Sys2Proof/Machine/Encoder.lean ====
section
/-! DEFINITION. The encode commands (43_encode.md): refused in `DEAD`, and all but ENC.BEGIN legal in `TX_OPEN`
only (60_exceptions.md R261). -/

namespace Sys2Proof.Machine

/-- An ENC value command of a supported type: checks 3 and 5 of 60_exceptions.md R248, then the shared wrapper. -/
def State.encCommand (t : Ty) (v : t.Val) (s : State) : State :=
  s.checked (s.txmode == .txOpen) (State.encodeArg t v)

/-- ENC.BEGIN once its mode check has passed (43_encode.md R201). -/
def State.beginBody (opcode : Half) (sender : Word) (s : State) : State :=
  { s with
    txsender := sender
    txopcode := opcode
    txbuf := []
    txlen := 0
    txdesc := []
    txdcnt := 0
    txerr := 0
    txmode := .txOpen }.respond .ok []

/-- ENC.BEGIN, legal in every `TXMODE` (43_encode.md R201, R213). -/
def execEncBegin (opcode : Half) (sender : Word) (s : State) : Host.Outcome State Fault Refusal :=
  .next (s.checked true (State.beginBody opcode sender))

/-- ENC.INT (43_encode.md R202). -/
def execEncInt (v : Word) (s : State) : Host.Outcome State Fault Refusal := .next (s.encCommand .int v)

/-- ENC.UINT (43_encode.md R203). -/
def execEncUint (v : Word) (s : State) : Host.Outcome State Fault Refusal := .next (s.encCommand .uint v)

/-- ENC.FIXED (43_encode.md R204). -/
def execEncFixed (v : Word) (s : State) : Host.Outcome State Fault Refusal := .next (s.encCommand .fixed v)

/-- ENC.STRING (43_encode.md R205). -/
def execEncString (bs : List Byte) (s : State) : Host.Outcome State Fault Refusal :=
  .next (s.encCommand .string bs)

/-- ENC.ARRAY (43_encode.md R206). -/
def execEncArray (bs : List Byte) (s : State) : Host.Outcome State Fault Refusal :=
  .next (s.encCommand .array bs)

/-- ENC.NEWID (43_encode.md R207). -/
def execEncNewid (name : List Byte) (version : Word) (s : State) : Host.Outcome State Fault Refusal :=
  .next (s.encCommand .newid (name, version))

/-- ENC.FD (43_encode.md R208, R213). -/
def execEncFd (h : Handle) (s : State) : Host.Outcome State Fault Refusal := .next (s.encCommand .fd h)

/-- ENC.SEQ (43_encode.md R209): `DEPTH` = 0 or items that are not those of one value are malformed
(30_encoding.md R110), `BASE` 7 to 15 a type-contract violation that records the command word (R111; logs 14,
22). -/
def execEncSeq (depth base : BitVec 4) (is : List Item) (s : State) : Host.Outcome State Fault Refusal :=
  if depth = 0 then .next (s.raise .badCmd 0)
  else
    match typeOf depth base with
    | none => .next (s.unsupported (encodeWord (.encSeq depth base is)))
    | some t =>
      match ofItems t is with
      | some (v, []) => .next (s.encCommand t v)
      | _ => .next (s.raise .badCmd 0)

/-- ENC.END once its mode check has passed (43_encode.md R210). -/
def State.endBody (s : State) : State :=
  let size := BitVec.ofNat 16 (Config.headerBytes + s.txlen.toNat)
  let s1 := s.txEmit (packHeader s.bo s.txsender size s.txopcode ++ s.txbuf.take s.txlen.toNat) s.txdesc
  { s1 with
    txsender := 0
    txopcode := 0
    txbuf := []
    txlen := 0
    txdesc := []
    txdcnt := 0
    txmode := .txIdle }.respond .ok [.word (size.zeroExtend 32)]

/-- ENC.END (43_encode.md R210). -/
def execEncEnd (s : State) : Host.Outcome State Fault Refusal :=
  .next (s.checked (s.txmode == .txOpen) State.endBody)

end Sys2Proof.Machine
end

