-- ==== Sys2Proof/Machine/Float64.lean ====
section
/-! DEFINITION. The exact arithmetic between binary64 patterns and 24.8 words (41_fixed_point.md R150 to R160). -/

namespace Sys2Proof.Machine

/-- A finite binary64 as its sign and the numerator n and exponent k of its magnitude n / 2^k; NaN and the
infinities have none (41_fixed_point.md R160). -/
def f64Parts (x : F64) : Option (Bool × Nat × Nat) :=
  let neg := x.getLsbD 63
  let e := (x.extractLsb' 52 11).toNat
  let m := (x.extractLsb' 0 52).toNat
  if e = 2047 then none
  else if e = 0 then some (neg, m, 1074)
  else if e ≤ 1075 then some (neg, 2 ^ 52 + m, 1075 - e)
  else some (neg, (2 ^ 52 + m) * 2 ^ (e - 1075), 0)

/-- `trunc(x)` from the parts of x: the integer nearest x not larger in magnitude (41_fixed_point.md R152). -/
def f64Trunc (neg : Bool) (n k : Nat) : Int :=
  if neg then -((n / 2 ^ k : Nat) : Int) else ((n / 2 ^ k : Nat) : Int)

/-- `r` = floor(|f| * 256 + 1/2) with |f| = (n mod 2^k) / 2^k: to the nearest integer, ties away from zero
(41_fixed_point.md R152). -/
def f64Round256 (n k : Nat) : Nat := ((n % 2 ^ k) * 512 + 2 ^ k) / 2 ^ (k + 1)

/-- FX.FROMFLOAT's construction: the integer part shifted left 8 bits, OR'd with the rounded fraction, which is
not masked. `none` where the spec states no result: a NaN, an infinity, or an integer part outside 32 signed
bits (41_fixed_point.md R152; logs 5, 16). -/
def fixedOfF64 (x : F64) : Option Word :=
  match f64Parts x with
  | none => none
  | some (neg, n, k) =>
    let i := f64Trunc neg n k
    if i < -(2 ^ 31) ∨ i > 2 ^ 31 - 1 then none
    else some (BitVec.ofInt 32 i <<< 8 ||| BitVec.ofNat 32 (f64Round256 n k))

/-- The binary64 pattern of n / 256 for |n| at most 2^52; 0 gives +0.0 (41_fixed_point.md R155, R157; log 17). -/
def f64Of256ths (n : Int) : F64 :=
  if n = 0 then 0
  else
    let a := n.natAbs
    let p := Nat.log2 a
    BitVec.ofNat 64 ((if n < 0 then 2 ^ 63 else 0) + (1023 + p - 8) * 2 ^ 52 + (a * 2 ^ (52 - p) - 2 ^ 52))

/-- The integer part `asr(v, 8)` (41_fixed_point.md R150, R153). -/
def fixedInteger (v : Word) : Word := (v.extractLsb' 8 24).signExtend 32

/-- The fraction part `v[7:0]` (41_fixed_point.md R150, R154). -/
def fixedFraction (v : Word) : Word := (v.extractLsb' 0 8).zeroExtend 32

/-- FX.FLOAT: `asr(v,8) + v[7:0] / 256`, exact (41_fixed_point.md R155, R157). -/
def f64OfFixed (v : Word) : F64 :=
  f64Of256ths ((fixedInteger v).toInt * 256 + ((fixedFraction v).toNat : Int))

end Sys2Proof.Machine
end

