-- ==== Sys2Proof/Machine/FixedPoint.lean ====
section
/-! DEFINITION. The fixed-point commands: pure functions of their operand, legal in every `MODE`
(41_fixed_point.md R150 to R161). -/

namespace Sys2Proof.Machine

/-- FX.FROMINT: `n` shifted left 8 bits, truncated to 32 bits (41_fixed_point.md R151). -/
def execFxFromint (n : Word) (s : State) : Host.Outcome State Fault Refusal :=
  .next (s.respond .ok [.word (n <<< 8)])

/-- FX.FROMFLOAT (41_fixed_point.md R152); where the spec states no result the result word is a free value, the
next draw (93_implementation_defined.md U3; log 5). -/
def execFxFromfloat (x : F64) (s : State) : Host.Outcome State Fault Refusal :=
  match fixedOfF64 x with
  | some v => .next (s.respond .ok [.word v])
  | none => .next ({ s with draws := s.draws + 1 }.respond .ok [.word (Config.freeWord s.draws)])

/-- FX.INTEGER (41_fixed_point.md R153). -/
def execFxInteger (v : Word) (s : State) : Host.Outcome State Fault Refusal :=
  .next (s.respond .ok [.word (fixedInteger v)])

/-- FX.FRACTION (41_fixed_point.md R154). -/
def execFxFraction (v : Word) (s : State) : Host.Outcome State Fault Refusal :=
  .next (s.respond .ok [.word (fixedFraction v)])

/-- FX.FLOAT (41_fixed_point.md R155). -/
def execFxFloat (v : Word) (s : State) : Host.Outcome State Fault Refusal :=
  .next (s.respond .ok [.f64 (f64OfFixed v)])

end Sys2Proof.Machine
end

