-- ==== Sys2Proof/Machine/Framer.lean ====
section
/-! DEFINITION. The message framer: FRAME, DISCARD, SKIP (40_framer.md). -/

namespace Sys2Proof.Machine

/-- The commit of FRAME (40_framer.md R130, the lines from `SENDER <- sender` on). -/
def State.commitEnvelope (s : State) (sender : Word) (size opcode : Half) (payload : List Byte)
    (ds : List Handle) : State :=
  { s with
    sender := sender
    opcode := opcode
    size := size
    plen := BitVec.ofNat 16 (size.toNat - Config.headerBytes)
    payload := payload
    cur := 0
    desc := ds
    dcnt := BitVec.ofNat 32 ds.length
    dcur := 0
    mode := .ready }

/-- FRAME once its mode check has passed (40_framer.md R130, R135 to R137): it holds while a read has no answer,
and is one transition with its implicit discard otherwise. `ERRINFO` has 32 bits and the number of records no
bound: the index of a record from 2^32 on is recorded modulo 2^32, which the spec leaves open. DESIGN CHOICE,
unsafe; log 23. -/
def State.frameBody (s : State) : State :=
  match readFrame s.bo s.rx s.rxEnd with
  | .holds => s.await
  | .fails e info rest => { s.discardLoaded.ancDone with rx := rest }.raise e info
  | .done sender size opcode payload rest =>
    let s1 := { s.discardLoaded.ancDone with rx := rest }
    match scanRecords s.descMax.toNat s.ancRecords 0 [] with
    | .fatal j ds => (s1.closeAll ds).raise .ancParse (BitVec.ofNat 32 j)
    | .handles ds =>
      (s1.commitEnvelope sender size opcode payload ds).respond .ok
        [.word sender, .word (opcode.zeroExtend 32), .word (size.zeroExtend 32)]

/-- FRAME (40_framer.md R130 to R137). -/
def execFrame (s : State) : Host.Outcome State Fault Refusal :=
  .next (s.checked true State.frameBody)

/-- DISCARD once its mode check has passed: in `IDLE` no state change at all (40_framer.md R132). -/
def State.discardBody (s : State) : State :=
  if s.mode = .idle then s.respond .ok [.word 0]
  else s.doDiscard.respond .ok [.word (BitVec.ofNat 32 s.unconsumed)]

/-- DISCARD (40_framer.md R132). -/
def execDiscard (s : State) : Host.Outcome State Fault Refusal :=
  .next (s.checked true State.discardBody)

/-- SKIP once its mode check has passed (40_framer.md R133). -/
def State.skipBody (n : Half) (s : State) : State :=
  if s.cur.toNat + n.toNat > s.plen.toNat then s.raise .payloadUnderrun (s.cur.zeroExtend 32)
  else { s with cur := BitVec.ofNat 16 (s.cur.toNat + n.toNat) }.respond .ok []

/-- SKIP n (40_framer.md R133), legal in `READY` only. -/
def execSkip (n : Half) (s : State) : Host.Outcome State Fault Refusal :=
  .next (s.checked (s.mode == .ready) (State.skipBody n))

end Sys2Proof.Machine
end

