-- ==== Sys2Proof/Machine/System.lean ====
section
/-! DEFINITION. The system command RDREG (44_system.md). -/

namespace Sys2Proof.Machine

/-- RDREG r: the register zero-extended to 32 bits, or the refusal `E_BAD_REG` for a reserved number; legal in
every `MODE` and `TXMODE` (44_system.md R230, 60_exceptions.md R248 (2)). -/
def execRdreg (r : Half) (s : State) : Host.Outcome State Fault Refusal :=
  match s.readReg r with
  | some v => .next (s.respond .ok [.word v])
  | none => .next (s.raise .badReg 0)

end Sys2Proof.Machine
end

