-- ==== Sys2Proof/Machine/Dispatch.lean ====
section
/-! DEFINITION. The meaning of each instruction: one arm for each constructor of `Instr`. -/

namespace Sys2Proof.Machine

def exec (i : Instr) (s : State) : Host.Outcome State Fault Refusal :=
  match i with
  | .frame => Sys2Proof.Machine.execFrame s
  | .discard => Sys2Proof.Machine.execDiscard s
  | .skip n => Sys2Proof.Machine.execSkip n s
  | .rdreg r => Sys2Proof.Machine.execRdreg r s
  | .decInt => Sys2Proof.Machine.execDecInt s
  | .decUint => Sys2Proof.Machine.execDecUint s
  | .decFixed => Sys2Proof.Machine.execDecFixed s
  | .decString => Sys2Proof.Machine.execDecString s
  | .decArray => Sys2Proof.Machine.execDecArray s
  | .decNewid => Sys2Proof.Machine.execDecNewid s
  | .decFd => Sys2Proof.Machine.execDecFd s
  | .decSeq depth base => Sys2Proof.Machine.execDecSeq depth base s
  | .encBegin opcode sender => Sys2Proof.Machine.execEncBegin opcode sender s
  | .encInt v => Sys2Proof.Machine.execEncInt v s
  | .encUint v => Sys2Proof.Machine.execEncUint v s
  | .encFixed v => Sys2Proof.Machine.execEncFixed v s
  | .encString bs => Sys2Proof.Machine.execEncString bs s
  | .encArray bs => Sys2Proof.Machine.execEncArray bs s
  | .encNewid name version => Sys2Proof.Machine.execEncNewid name version s
  | .encFd h => Sys2Proof.Machine.execEncFd h s
  | .encSeq depth base is => Sys2Proof.Machine.execEncSeq depth base is s
  | .encEnd => Sys2Proof.Machine.execEncEnd s
  | .fxFromint n => Sys2Proof.Machine.execFxFromint n s
  | .fxFromfloat x => Sys2Proof.Machine.execFxFromfloat x s
  | .fxInteger v => Sys2Proof.Machine.execFxInteger v s
  | .fxFraction v => Sys2Proof.Machine.execFxFraction v s
  | .fxFloat v => Sys2Proof.Machine.execFxFloat v s

end Sys2Proof.Machine
end

