-- ==== Sys2Proof/Machine/Step.lean ====
section
/-! DEFINITION. One step of the machine (00_scope.md R10; 20_memory.md R68, R76). -/

namespace Sys2Proof.Machine

/-- One step: reset when its input is asserted; else the command at the head of the command port, answered by
the block itself when it stands for no instruction; else the block waits (70_reset_and_hazards.md R280;
60_exceptions.md R248; log 2). -/
def step (s : State) : Host.Outcome State Fault Refusal :=
  if s.resetIn then .next s.applyReset
  else
    match s.cmdPort with
    | [] => .next s.await
    | p :: _ =>
      match decode p with
      | .ok i => exec i s
      | .error r => .next (s.reject r)

/-- The state with an instruction of the opcode table at the head of the command port and reset not asserted, so
that the next step carries it out (logs 3, 21). -/
def State.withFetchWord (s : State) (nbits w : Nat) : State :=
  { s with cmdPort := tablePacket nbits w :: s.cmdPort, resetIn := false }

end Sys2Proof.Machine
end

