-- ==== Sys2Proof/Safety.lean ====
section
/-! DEFINITION. What counts as a consistent state, which command is legal where, and the words the statements
use (10_state.md R29 to R39; 60_exceptions.md R261; 41_fixed_point.md R157). -/

namespace Sys2Proof.Safety

open Sys2Proof.Machine

/-! ### The invariant -/

/-- The part of the envelope invariant for `READY` and `DECODE_FAULT` (10_state.md R29, R27), with the bound of
`DCNT` (R28). -/
abbrev LoadedEnvelope (s : State) : Prop :=
  8 ≤ s.size.toNat ∧ s.plen.toNat = s.size.toNat - 8 ∧ s.payload.length = s.plen.toNat ∧
    s.cur.toNat ≤ s.plen.toNat ∧ s.dcnt.toNat = s.desc.length ∧ s.dcur.toNat ≤ s.dcnt.toNat ∧
    s.dcnt.toNat ≤ s.descMax.toNat

/-- The part of the envelope invariant for `IDLE` and `DEAD` (10_state.md R29). -/
abbrev ClearedEnvelope (s : State) : Prop :=
  s.sender = 0 ∧ s.opcode = 0 ∧ s.size = 0 ∧ s.plen = 0 ∧ s.cur = 0 ∧ s.dcnt = 0 ∧ s.dcur = 0 ∧
    s.payload = [] ∧ s.desc = []

/-- The envelope invariant (10_state.md R29). -/
abbrev EnvelopeOk (s : State) : Prop :=
  (s.loaded = true → LoadedEnvelope s) ∧ (s.loaded = false → ClearedEnvelope s)

/-- `ERR` and `ERRINFO` hold the failure that put `MODE` where it is, and 0 otherwise (10_state.md R31, R32;
60_exceptions.md R241, R250 to R253). -/
abbrev ErrOk (s : State) : Prop :=
  (s.mode = .idle ∨ s.mode = .ready → s.err = 0 ∧ s.errinfo = 0) ∧
    (s.mode = .decodeFault →
      (s.err = 0x30 ∨ s.err = 0x31 ∨ s.err = 0x32) ∧ s.errinfo = s.cur.zeroExtend 32) ∧
    (s.mode = .dead →
      s.err = 0x10 ∨ s.err = 0x20 ∨ s.err = 0x21 ∨ s.err = 0x22 ∨ s.err = 0x40)

/-- The transmit registers and buffers agree (10_state.md R36 to R39; 43_encode.md R210, R212 (5)). -/
abbrev TransmitOk (s : State) : Prop :=
  s.txlen.toNat = s.txbuf.length ∧ s.txbuf.length ≤ 65527 ∧ s.txlen.toNat % 4 = 0 ∧
    s.txdcnt = BitVec.ofNat 32 s.txdesc.length ∧
    (s.txmode = .txIdle → s.txsender = 0 ∧ s.txopcode = 0 ∧ s.txbuf = [] ∧ s.txdesc = []) ∧
    s.txerr = (if s.txmode = .txFault then 0x50 else 0)

/-- The invariant of the block: the envelope, the error registers, the transmit side. -/
abbrev BlockOk (s : State) : Prop := EnvelopeOk s ∧ ErrOk s ∧ TransmitOk s

/-! ### Frames -/

/-- The receive-side registers and buffers of 10_state.md section 2 are the same. -/
abbrev SameReceive (s t : State) : Prop :=
  t.mode = s.mode ∧ t.sender = s.sender ∧ t.opcode = s.opcode ∧ t.size = s.size ∧ t.plen = s.plen ∧
    t.payload = s.payload ∧ t.cur = s.cur ∧ t.desc = s.desc ∧ t.dcnt = s.dcnt ∧ t.dcur = s.dcur ∧
    t.err = s.err ∧ t.errinfo = s.errinfo ∧ t.leak = s.leak ∧ t.leakcnt = s.leakcnt

/-- The transmit-side registers and buffers of 10_state.md section 3 are the same. -/
abbrev SameTransmit (s t : State) : Prop :=
  t.txmode = s.txmode ∧ t.txsender = s.txsender ∧ t.txopcode = s.txopcode ∧ t.txbuf = s.txbuf ∧
    t.txlen = s.txlen ∧ t.txdesc = s.txdesc ∧ t.txdcnt = s.txdcnt ∧ t.txerr = s.txerr

/-- Every register and buffer of 10_state.md R20 is the same. -/
abbrev SameBlock (s t : State) : Prop := t.bo = s.bo ∧ SameReceive s t ∧ SameTransmit s t

/-! ### Legality -/

/-- The side of the legality table of 60_exceptions.md R261 that an instruction stands on. -/
inductive Legality where
  /-- Legal in every `MODE` and `TXMODE`: RDREG and the FX commands. -/
  | anywhere
  /-- Legal unless `DEAD`: FRAME, DISCARD, ENC.BEGIN. -/
  | unlessDead
  /-- Legal in `READY` only: SKIP and the DEC commands. -/
  | readyOnly
  /-- Legal unless `DEAD`, in `TX_OPEN` only: the ENC value commands and ENC.END. -/
  | txOpenOnly
  deriving DecidableEq, Repr

/-- The row of the legality table (60_exceptions.md R261). -/
def legality : Instr → Legality
  | .frame => .unlessDead
  | .discard => .unlessDead
  | .skip _ => .readyOnly
  | .rdreg _ => .anywhere
  | .decInt => .readyOnly
  | .decUint => .readyOnly
  | .decFixed => .readyOnly
  | .decString => .readyOnly
  | .decArray => .readyOnly
  | .decNewid => .readyOnly
  | .decFd => .readyOnly
  | .decSeq _ _ => .readyOnly
  | .encBegin _ _ => .unlessDead
  | .encInt _ => .txOpenOnly
  | .encUint _ => .txOpenOnly
  | .encFixed _ => .txOpenOnly
  | .encString _ => .txOpenOnly
  | .encArray _ => .txOpenOnly
  | .encNewid _ _ => .txOpenOnly
  | .encFd _ => .txOpenOnly
  | .encSeq _ _ _ => .txOpenOnly
  | .encEnd => .txOpenOnly
  | .fxFromint _ => .anywhere
  | .fxFromfloat _ => .anywhere
  | .fxInteger _ => .anywhere
  | .fxFraction _ => .anywhere
  | .fxFloat _ => .anywhere

/-- The command is legal in the state's `MODE` and `TXMODE` (60_exceptions.md R261). -/
def legalIn (i : Instr) (s : State) : Bool :=
  match legality i with
  | .anywhere => true
  | .unlessDead => s.mode != .dead
  | .readyOnly => s.mode == .ready
  | .txOpenOnly => s.mode != .dead && s.txmode == .txOpen

/-- The command names a type of the supported set (30_encoding.md R107, R111). -/
def typeSupported : Instr → Bool
  | .decSeq _ base => base.toNat < 7
  | .encSeq _ base _ => base.toNat < 7
  | .frame | .discard | .skip _ | .rdreg _ => true
  | .decInt | .decUint | .decFixed | .decString | .decArray | .decNewid | .decFd => true
  | .encBegin _ _ | .encInt _ | .encUint _ | .encFixed _ | .encString _ | .encArray _ => true
  | .encNewid _ _ | .encFd _ | .encEnd => true
  | .fxFromint _ | .fxFromfloat _ | .fxInteger _ | .fxFraction _ | .fxFloat _ => true

/-- The value that an ENC value command of a supported type carries (43_encode.md R200, R202 to R209). -/
def encodedValue : Instr → Option ((t : Ty) × t.Val)
  | .encInt v => some ⟨.int, v⟩
  | .encUint v => some ⟨.uint, v⟩
  | .encFixed v => some ⟨.fixed, v⟩
  | .encString bs => some ⟨.string, bs⟩
  | .encArray bs => some ⟨.array, bs⟩
  | .encNewid name version => some ⟨.newid, (name, version)⟩
  | .encFd h => some ⟨.fd, h⟩
  | .encSeq depth base is =>
    if depth = 0 then none
    else
      match typeOf depth base with
      | none => none
      | some t =>
        match ofItems t is with
        | some (v, []) => some ⟨t, v⟩
        | _ => none
  | .frame | .discard | .skip _ | .rdreg _ => none
  | .decInt | .decUint | .decFixed | .decString | .decArray | .decNewid | .decFd | .decSeq _ _ => none
  | .encBegin _ _ | .encEnd => none
  | .fxFromint _ | .fxFromfloat _ | .fxInteger _ | .fxFraction _ | .fxFloat _ => none

/-! ### Records, outputs, values -/

/-- All handles of the rights records, in encounter order (10_state.md R28, 40_framer.md R135). -/
def rightsHandles : List AncRecord → List Handle
  | [] => []
  | .rights hs :: rs => hs ++ rightsHandles rs
  | .notRights :: rs => rightsHandles rs
  | .bad :: rs => rightsHandles rs

/-- The handles that a list of outputs closes. -/
def closedHandles : List Output → List Handle
  | [] => []
  | .close h :: os => h :: closedHandles os
  | .response _ _ :: os => closedHandles os
  | .txEmit _ _ :: os => closedHandles os

/-- The responses in a list of outputs. -/
def responsesOf : List Output → List (Status × List Item)
  | [] => []
  | .response st is :: os => (st, is) :: responsesOf os
  | .close _ :: os => responsesOf os
  | .txEmit _ _ :: os => responsesOf os

/-- The payload holds the bytes `bs` at offset `c` (20_memory.md R61). -/
abbrev PayloadHas (s : State) (c : Nat) (bs : List Byte) : Prop :=
  c + bs.length ≤ s.plen.toNat ∧ (s.payload.drop c).take bs.length = bs

/-- The descriptor list holds the handles `hs` from index `d` on (20_memory.md R62). -/
abbrev DescHas (s : State) (d : Nat) (hs : List Handle) : Prop :=
  d + hs.length ≤ s.dcnt.toNat ∧ (s.desc.drop d).take hs.length = hs

/-- Every count and every length of the value fits the 32-bit word that carries it (30_encoding.md R95, R96,
R99). -/
def countsFit : (t : Ty) → t.Val → Bool
  | .int, _ => true
  | .uint, _ => true
  | .fixed, _ => true
  | .string, s => s.length + 1 < 2 ^ 32
  | .array, b => b.length < 2 ^ 32
  | .newid, (s, _) => s.length + 1 < 2 ^ 32
  | .fd, _ => true
  | .seq t, vs => vs.length < 2 ^ 32 && vs.all (countsFit t)

/-! ### The wire, as relations on the payload and the descriptor list (30_encoding.md R94 to R101) -/

/-- A `STRING` field of this content at offset `c`, with any padding bytes, ends at `c'` (R95, R101). -/
def StringAt (s : State) (name : List Byte) (c c' : Nat) : Prop :=
  ∃ p : List Byte, p.length = (4 - (name.length + 1) % 4) % 4 ∧ c' = c + 4 + (name.length + 1) + p.length ∧
    PayloadHas s c (bytes32 s.bo (BitVec.ofNat 32 (name.length + 1)) ++ name ++ [0x00] ++ p)

/-- An `ARRAY` field of this content at offset `c`, with any padding bytes, ends at `c'` (R96, R101). -/
def ArrayAt (s : State) (content : List Byte) (c c' : Nat) : Prop :=
  ∃ p : List Byte, p.length = (4 - content.length % 4) % 4 ∧ c' = c + 4 + content.length + p.length ∧
    PayloadHas s c (bytes32 s.bo (BitVec.ofNat 32 content.length) ++ content ++ p)

/-- Elements one after another, each from where the one before it ends (R99). -/
def ElementsAt {α : Type} (R : α → Nat → Nat → Nat → Nat → Prop) : List α → Nat → Nat → Nat → Nat → Prop
  | [], c, d, c', d' => c' = c ∧ d' = d
  | v :: vs, c, d, c', d' => ∃ m k, R v c d m k ∧ ElementsAt R vs m k c' d'

/-- The value stands at offset `c` of the payload and index `d` of the descriptor list, and ends at `c'` and `d'`
(R94 to R99; 42_decode.md R171 to R178). -/
def WireAt (s : State) : (t : Ty) → t.Val → Nat → Nat → Nat → Nat → Prop
  | .int, v, c, d, c', d' => PayloadHas s c (bytes32 s.bo v) ∧ c' = c + 4 ∧ d' = d
  | .uint, v, c, d, c', d' => PayloadHas s c (bytes32 s.bo v) ∧ c' = c + 4 ∧ d' = d
  | .fixed, v, c, d, c', d' => PayloadHas s c (bytes32 s.bo v) ∧ c' = c + 4 ∧ d' = d
  | .string, name, c, d, c', d' => StringAt s name c c' ∧ d' = d
  | .array, content, c, d, c', d' => ArrayAt s content c c' ∧ d' = d
  | .newid, (name, version), c, d, c', d' =>
    ∃ m, StringAt s name c m ∧ PayloadHas s m (bytes32 s.bo version) ∧ c' = m + 4 ∧ d' = d
  | .fd, h, c, d, c', d' => DescHas s d [h] ∧ c' = c ∧ d' = d + 1
  | .seq t, vs, c, d, c', d' => vs.length < 2 ^ 32 ∧
    PayloadHas s c (bytes32 s.bo (BitVec.ofNat 32 vs.length)) ∧ ElementsAt (WireAt s t) vs (c + 4) d c' d'

/-- A string cannot be read at offset `c`: its tests in their order (42_decode.md R174). -/
def StringFails (s : State) (c : Nat) (e : Status) : Prop :=
  (s.plen.toNat < c + 4 ∧ e = .payloadUnderrun) ∨
  ∃ l : Word, PayloadHas s c (bytes32 s.bo l) ∧
    ((l = 0 ∧ e = .malformedString) ∨
      (l ≠ 0 ∧ s.plen.toNat < c + 4 + (l.toNat + 3) / 4 * 4 ∧ e = .payloadUnderrun) ∨
      (l ≠ 0 ∧ c + 4 + (l.toNat + 3) / 4 * 4 ≤ s.plen.toNat ∧
        s.payload[c + 4 + (l.toNat - 1)]? ≠ some 0x00 ∧ e = .malformedString))

/-- No value of the type can be read at offset `c` and index `d`, and the failure is `e`: that of the first test
that fails, in a sequence that of its first failing element (42_decode.md R171 to R179). -/
def FailsAt (s : State) : Ty → Nat → Nat → Status → Prop
  | .int, c, _, e => s.plen.toNat < c + 4 ∧ e = .payloadUnderrun
  | .uint, c, _, e => s.plen.toNat < c + 4 ∧ e = .payloadUnderrun
  | .fixed, c, _, e => s.plen.toNat < c + 4 ∧ e = .payloadUnderrun
  | .string, c, _, e => StringFails s c e
  | .array, c, _, e => e = .payloadUnderrun ∧ (s.plen.toNat < c + 4 ∨
    ∃ l : Word, PayloadHas s c (bytes32 s.bo l) ∧ s.plen.toNat < c + 4 + (l.toNat + 3) / 4 * 4)
  | .newid, c, _, e => StringFails s c e ∨
    ∃ name m, StringAt s name c m ∧ s.plen.toNat < m + 4 ∧ e = .payloadUnderrun
  | .fd, _, d, e => s.dcnt.toNat ≤ d ∧ e = .descUnderflow
  | .seq t, c, d, e => (s.plen.toNat < c + 4 ∧ e = .payloadUnderrun) ∨
    ∃ (n : Word) (vs : List t.Val) (m k : Nat), PayloadHas s c (bytes32 s.bo n) ∧ vs.length < n.toNat ∧
      ElementsAt (WireAt s t) vs (c + 4) d m k ∧ FailsAt s t m k e

/-! ### The shape of a command (30_encoding.md R106, R110, R114) -/

/-- The fields of a command word are those of a row of the table of R106: `OP` is one of the fifteen values,
fields not in use are zero, `DEPTH` fits, and a `BASE` in use names a type (R107). -/
abbrev FieldsFit (w : Word) : Prop :=
  (opField w ∈ [0x01, 0x02, 0x23, 0x30, 0x31, 0x32, 0x33, 0x34] ∧
    baseField w = 0 ∧ depthField w = 0 ∧ immField w = 0) ∨
  (opField w ∈ [0x03, 0x08, 0x20] ∧ baseField w = 0 ∧ depthField w = 0) ∨
  (opField w ∈ [0x10, 0x21] ∧ immField w = 0 ∧ depthField w = 0 ∧ (baseField w).toNat < 7) ∨
  (opField w ∈ [0x11, 0x22] ∧ immField w = 0 ∧ depthField w ≠ 0 ∧ (baseField w).toNat < 7)

/-- One `Bytes` item: its length, at most 65535, and the beats that hold so many bytes (R114). -/
def BytesBeats (ws : List Word) : Prop :=
  ∃ (n : Word) (r : List Word), ws = n :: r ∧ n.toNat ≤ 65535 ∧ r.length = (n.toNat + 3) / 4

/-- The beats of the items of one value of the type, and no beat more (R113, R114). -/
def ValueBeats : Ty → List Word → Prop
  | .int, ws => ws.length = 1
  | .uint, ws => ws.length = 1
  | .fixed, ws => ws.length = 1
  | .fd, ws => ws.length = 1
  | .string, ws => BytesBeats ws
  | .array, ws => BytesBeats ws
  | .newid, ws => ∃ (bs : List Word) (version : Word), ws = bs ++ [version] ∧ BytesBeats bs
  | .seq t, ws => ∃ (n : Word) (parts : List (List Word)), ws = n :: parts.flatten ∧ parts.length = n.toNat ∧
    ∀ part ∈ parts, ValueBeats t part

/-- The operand beats have the shape that the command word requires (the operand column of R106). -/
def OperandsFit (w : Word) (ops : List Word) : Prop :=
  if opField w ∈ [0x20, 0x30, 0x32, 0x33, 0x34] then ops.length = 1
  else if opField w = 0x31 then ops.length = 2
  else if opField w ∈ [0x21, 0x22] then
    match typeOf (depthField w) (baseField w) with
    | some t => ValueBeats t ops
    | none => True
  else ops = []

/-! ### Real numbers -/

/-- The real number of a finite binary64 by IEEE 754 (41_fixed_point.md R160). -/
def f64Value (x : F64) : Option ℚ :=
  let sign : ℚ := if x.getLsbD 63 then -1 else 1
  let e := (x.extractLsb' 52 11).toNat
  let m := (x.extractLsb' 0 52).toNat
  if e = 2047 then none
  else if e = 0 then some (sign * m * (2 : ℚ) ^ (-1074 : ℤ))
  else some (sign * (2 ^ 52 + m) * (2 : ℚ) ^ ((e : ℤ) - 1075))

/-- `trunc(q)`: the integer nearest q not larger in magnitude (41_fixed_point.md R152). -/
def truncRat (q : ℚ) : ℤ := if 0 ≤ q then ⌊q⌋ else ⌈q⌉

end Sys2Proof.Safety
end

