-- ==== Sys2Proof/Certificates/Slice0/Obligations.lean ====
section
/-! DEFINITION. The statements for the provers. Each docstring names the rules of spec/ it rests on; `respond`
is the model's own name for the response of a command (it takes the command off the command port and puts the
response on the list of outputs; log 4), `await` for a move of the outside world (log 2). -/

open Sys2Proof Sys2Proof.Machine Sys2Proof.Safety

/-! ### Encodings -/

/-- Every well-formed instruction is read back from its packet (30_encoding.md R105 to R109, R113, R114). -/
def Obligations.DecodeInvertsEncode : Prop :=
  ∀ i : Instr, WellFormed i → decode (encode i) = .ok i

/-- A packet that decodes carries exactly the command word of its instruction, and the instruction is
well-formed: no command word has two meanings (30_encoding.md R105, R106, R110). -/
def Obligations.DecodedWordIsTheInstructions : Prop :=
  ∀ (p : Packet) (i : Instr), decode p = .ok i → encodeWord i = p.word ∧ WellFormed i

/-- The command word of every Encoding line of files 40 to 44 decodes to its instruction, with operand beats of the
kind it takes (40_framer.md R130, R132, R133; 41_fixed_point.md R151 to R155; 42_decode.md R171 to R178;
43_encode.md R201 to R210; 44_system.md R230; 30_encoding.md R106, R113, R114): `IMM16`, `DEPTH` and `BASE` at every
value the lines allow, `Word` and `Handle` operands at every value, an `F64` and the `Bytes` by examples, ENC.SEQ of
every type with no element and SEQ(UINT) with two. -/
def Obligations.PrintedWordsDecode : Prop :=
  (decode ⟨0x00000001, []⟩ = .ok .frame ∧ decode ⟨0x00000002, []⟩ = .ok .discard ∧
    decode ⟨0x00000023, []⟩ = .ok .encEnd) ∧
  (∀ n : Half, decode ⟨(n.zeroExtend 32 <<< 16) ||| 0x03, []⟩ = .ok (.skip n) ∧
    decode ⟨(n.zeroExtend 32 <<< 16) ||| 0x08, []⟩ = .ok (.rdreg n) ∧
    ∀ sender : Word, decode ⟨(n.zeroExtend 32 <<< 16) ||| 0x20, [sender]⟩ = .ok (.encBegin n sender)) ∧
  (decode ⟨0x00000010, []⟩ = .ok .decInt ∧ decode ⟨0x00000110, []⟩ = .ok .decUint ∧
    decode ⟨0x00000210, []⟩ = .ok .decFixed ∧ decode ⟨0x00000310, []⟩ = .ok .decString ∧
    decode ⟨0x00000410, []⟩ = .ok .decArray ∧ decode ⟨0x00000510, []⟩ = .ok .decNewid ∧
    decode ⟨0x00000610, []⟩ = .ok .decFd) ∧
  (∀ depth base : BitVec 4, depth ≠ 0 → base.toNat < 7 →
    decode ⟨(depth.zeroExtend 32 <<< 12) ||| (base.zeroExtend 32 <<< 8) ||| 0x11, []⟩ = .ok (.decSeq depth base) ∧
    decode ⟨(depth.zeroExtend 32 <<< 12) ||| (base.zeroExtend 32 <<< 8) ||| 0x22, [0]⟩ =
      .ok (.encSeq depth base [.word 0])) ∧
  decode ⟨0x00001111, []⟩ = .ok (.decSeq 1 1) ∧ decode ⟨0x00002311, []⟩ = .ok (.decSeq 2 3) ∧
  decode ⟨0x00001122, [2, 5, 6]⟩ = .ok (.encSeq 1 1 [.word 2, .word 5, .word 6]) ∧
  (∀ v : Word, decode ⟨0x00000021, [v]⟩ = .ok (.encInt v) ∧ decode ⟨0x00000121, [v]⟩ = .ok (.encUint v) ∧
    decode ⟨0x00000221, [v]⟩ = .ok (.encFixed v) ∧ decode ⟨0x00000621, [v]⟩ = .ok (.encFd v) ∧
    decode ⟨0x00000030, [v]⟩ = .ok (.fxFromint v) ∧ decode ⟨0x00000032, [v]⟩ = .ok (.fxInteger v) ∧
    decode ⟨0x00000033, [v]⟩ = .ok (.fxFraction v) ∧ decode ⟨0x00000034, [v]⟩ = .ok (.fxFloat v) ∧
    decode ⟨0x00000521, [7, 0x735F6C77, 0x00746165, v]⟩ =
      .ok (.encNewid [0x77, 0x6C, 0x5F, 0x73, 0x65, 0x61, 0x74] v)) ∧
  decode ⟨0x00000321, [5, 0x6C6C6568, 0x0000006F]⟩ = .ok (.encString [0x68, 0x65, 0x6C, 0x6C, 0x6F]) ∧
  decode ⟨0x00000421, [3, 0x00BEADDE]⟩ = .ok (.encArray [0xDE, 0xAD, 0xBE]) ∧
  decode ⟨0x00000031, [0x00000000, 0x3FF80000]⟩ = .ok (.fxFromfloat 0x3FF8000000000000)

/-- The malformed commands of 30_encoding.md R110: an unlisted `OP`, a field not in use that is not zero, a wrong
`DEPTH`; and, where the fields and the type are right, operand beats of another shape than the command requires,
missing and surplus ones among them (R114). Every other command of a supported type decodes: that the unused lanes
of the last data beat of a `Bytes` item, which R114 writes as 0, are not looked at, so that such beats decode too, is
the model's choice (log 13). -/
def Obligations.MalformedWordsRejected : Prop :=
  ∀ p : Packet,
    (opField p.word ∉ [0x01, 0x02, 0x03, 0x08, 0x10, 0x11, 0x20, 0x21, 0x22, 0x23, 0x30, 0x31, 0x32, 0x33, 0x34] →
      decode p = .error .reservedOp) ∧
    (opField p.word ∈ [0x01, 0x02, 0x23, 0x30, 0x31, 0x32, 0x33, 0x34] →
      (baseField p.word ≠ 0 ∨ depthField p.word ≠ 0 ∨ immField p.word ≠ 0) → decode p = .error .unusedField) ∧
    (opField p.word ∈ [0x03, 0x08, 0x20] →
      (baseField p.word ≠ 0 ∨ depthField p.word ≠ 0) → decode p = .error .unusedField) ∧
    (opField p.word ∈ [0x10, 0x11, 0x21, 0x22] → immField p.word ≠ 0 → decode p = .error .unusedField) ∧
    (opField p.word ∈ [0x10, 0x21] → immField p.word = 0 → depthField p.word ≠ 0 → decode p = .error .badDepth) ∧
    (opField p.word ∈ [0x11, 0x22] → immField p.word = 0 → depthField p.word = 0 → decode p = .error .badDepth) ∧
    (FieldsFit p.word → ¬ OperandsFit p.word p.operands → decode p = .error .badOperands) ∧
    (FieldsFit p.word → OperandsFit p.word p.operands → ∃ i, decode p = .ok i)

/-- A result travels as its status beat and the beats of its items, from which a reader who knows the type gets
the items back (30_encoding.md R113, R114). -/
def Obligations.ResponsePacketReadsBack : Prop :=
  ∀ (st : Status) (t : Ty) (v : t.Val), countsFit t v = true → (items t v).all itemFits = true →
    ∃ beats, responsePacket st (items t v) = (st.code.zeroExtend 32) :: beats ∧
      takeItems t beats = some (items t v, [])

/-- `bytes32` and `u32` are inverse, in both byte orders (00_scope.md R7). -/
def Obligations.WordBytesInverse : Prop :=
  ∀ (bo : ByteOrder) (v : Word) (b0 b1 b2 b3 : Byte),
    u32 bo (bytes32 bo v) = v ∧ bytes32 bo (u32 bo [b0, b1, b2, b3]) = [b0, b1, b2, b3] ∧
    (u32 .le [b0, b1, b2, b3]).toNat =
      b0.toNat + 2 ^ 8 * b1.toNat + 2 ^ 16 * b2.toNat + 2 ^ 24 * b3.toNat ∧
    (u32 .be [b0, b1, b2, b3]).toNat =
      2 ^ 24 * b0.toNat + 2 ^ 16 * b1.toNat + 2 ^ 8 * b2.toNat + b3.toNat

/-- The header of the encoder is the one FRAME parses (40_framer.md R134). -/
def Obligations.HeaderReadsBack : Prop :=
  ∀ (bo : ByteOrder) (sender : Word) (size opcode : Half),
    parseHeader bo (packHeader bo sender size opcode) = (sender, size, opcode)

/-- The bytes of an encoding are as many as `wire_len` says, a multiple of 4 (30_encoding.md R103). -/
def Obligations.EncodingHasWireLength : Prop :=
  ∀ (bo : ByteOrder) (t : Ty) (v : t.Val), (enc bo t v).1.length = wireLen t v ∧ wireLen t v % 4 = 0

/-- Property 2 of the source: the length of an encoded string, and its terminator (30_encoding.md R95,
43_encode.md R205, R212 (2)). -/
def Obligations.StringFieldLayout : Prop :=
  ∀ (bo : ByteOrder) (s : List Byte),
    (stringBytes bo s).length = 4 + (s.length + 1 + 3) / 4 * 4 ∧
    (stringBytes bo s)[4 + s.length]? = some 0x00 ∧
    (stringBytes bo s).take 4 = bytes32 bo (BitVec.ofNat 32 (s.length + 1)) ∧
    ((stringBytes bo s).drop 4).take s.length = s ∧
    ∀ k b, s.length + 5 ≤ k → (stringBytes bo s)[k]? = some b → b = 0x00

/-- The round-trip law (30_encoding.md R104), with the model's condition that every count fits its 32-bit word. -/
def Obligations.DecodingInvertsEncoding : Prop :=
  ∀ (s : State) (t : Ty) (v : t.Val) (c d : Nat), countsFit t v = true →
    PayloadHas s c (enc s.bo t v).1 → s.payload.length = s.plen.toNat →
    DescHas s d (enc s.bo t v).2 → s.desc.length = s.dcnt.toNat →
    dec s t c d = .ok (v, c + wireLen t v, d + (enc s.bo t v).2.length)

/-! ### Steps, reset, waiting -/

/-- A step carries out the instruction at the head of the command port and adds nothing to it (00_scope.md R10;
20_memory.md R68). -/
def Obligations.StepRunsDecodedInstruction : Prop :=
  ∀ (s : State) (p : Packet) (rest : List Packet) (i : Instr),
    s.resetIn = false → s.cmdPort = p :: rest → decode p = .ok i → step s = exec i s

/-- A malformed command is refused with `E_BAD_CMD` and changes no state (30_encoding.md R110; 60_exceptions.md
R248 (1), R255). -/
def Obligations.MalformedCommandRefused : Prop :=
  ∀ (s : State) (p : Packet) (rest : List Packet) (r : Reject),
    s.resetIn = false → s.cmdPort = p :: rest → decode p = .error r → (∀ w, r ≠ .unsupportedType w) →
    step s = .next { s with cmdPort := rest, out := s.out ++ [.response .badCmd []] }

/-- The type-contract violation: outside `DEAD` it discards, records the command word and enters `DEAD`; in `DEAD`
it is refused (30_encoding.md R111; 60_exceptions.md R245, R248, R253). That the operand beats are not looked at is
stated by R111 for the two ENC operations; for the two DEC operations it is the model's reading of check 1 of R248,
marked DEDUCED (log 14). -/
def Obligations.UnsupportedTypeEntersDead : Prop :=
  ∀ (s : State) (p : Packet) (rest : List Packet),
    s.resetIn = false → s.cmdPort = p :: rest → immField p.word = 0 → 7 ≤ (baseField p.word).toNat →
    (opField p.word ∈ [0x10, 0x21] ∧ depthField p.word = 0 ∨
      opField p.word ∈ [0x11, 0x22] ∧ depthField p.word ≠ 0) →
    (s.mode ≠ .dead →
      step s = .next { s.discardLoaded with
        mode := .dead
        err := 0x40
        errinfo := p.word
        cmdPort := rest
        out := s.discardLoaded.out ++ [.response .typeContract []] }) ∧
    (s.mode = .dead →
      step s = .next { s with cmdPort := rest, out := s.out ++ [.response .badMode []] })

/-- Every step of every state answers a next state: no input, however formed, stops the block
(70_reset_and_hazards.md R293; 42_decode.md R182). -/
def Obligations.StepNeverStops : Prop :=
  ∀ s : State, ∃ t, step s = .next t

/-- The invariant of the block is kept by every step. That `TXDCNT` is the number of descriptors modulo 2^32, where
the spec gives no bound on them, is the model's choice (log 7) (10_state.md R28, R29, R31, R32, R36 to R39). -/
def Obligations.StepKeepsInvariant : Prop :=
  ∀ s t : State, BlockOk s → step s = .next t → BlockOk t

/-- The state after reset meets the invariant; it has no descriptor, so its `TXDCNT` of 0 is the spec's. -/
def Obligations.ResetStateMeetsInvariant : Prop := BlockOk State.reset

/-- Reset restores every register and buffer whatever the state, takes the byte order from the strap, emits no
event, leaves the RX stream alone, and abandons a FRAME that holds (70_reset_and_hazards.md R280 to R282). That the
input falls again by itself, and what of the outside world stays, is the model's choice (log 9). -/
def Obligations.ResetInputRestoresBlock : Prop :=
  ∀ s : State, s.resetIn = true →
    step s = .next { s with
      bo := s.strap, mode := .idle, sender := 0, opcode := 0, size := 0, plen := 0, payload := [], cur := 0,
      desc := [], dcnt := 0, dcur := 0, err := 0, errinfo := 0, leak := false, leakcnt := 0,
      txmode := .txIdle, txsender := 0, txopcode := 0, txbuf := [], txlen := 0, txdesc := [], txdcnt := 0,
      txerr := 0, resetIn := false,
      cmdPort := if s.frameHolds then s.cmdPort.tail else s.cmdPort }

/-- With no command at the port the block waits, and no register, buffer or output of the block changes
(70_reset_and_hazards.md R280, 20_memory.md R68). That one event of the outside world happens in such a step is the
model's choice (log 2). -/
def Obligations.IdleBlockWaits : Prop :=
  ∀ s : State, s.resetIn = false → s.cmdPort = [] →
    step s = .next s.await ∧ SameBlock s s.await ∧ s.await.out = s.out ∧ (s.agenda = [] → s.await = s)

/-! ### Rules over all commands -/

/-- `DEAD` is left by reset only, and keeps the first fatal failure (60_exceptions.md R258; 10_state.md R31). -/
def Obligations.DeadLeftOnlyByReset : Prop :=
  ∀ s t : State, s.mode = .dead → step s = .next t →
    (s.resetIn = false → t.mode = .dead ∧ t.err = s.err ∧ t.errinfo = s.errinfo) ∧
    (s.resetIn = true → t.mode = .idle)

/-- `CFG.BO` changes at reset only (10_state.md R21), and the parameter `DESC_MAX` never (00_scope.md R4; log 6). -/
def Obligations.ByteOrderFixedBetweenResets : Prop :=
  ∀ s t : State, step s = .next t → t.bo = (if s.resetIn then s.strap else s.bo) ∧ t.descMax = s.descMax

/-- `LEAK` is cleared by reset only, and set by a step that finds unconsumed descriptors in a loaded envelope
only (10_state.md R33, R34). -/
def Obligations.LeakIsSticky : Prop :=
  ∀ s t : State, s.resetIn = false → step s = .next t →
    (s.leak = true → t.leak = true) ∧
    (t.leak = true → s.leak = true ∨
      (s.loaded = true ∧ s.dcur.toNat < s.dcnt.toNat ∧ t.leakcnt.toNat = s.dcnt.toNat - s.dcur.toNat))

/-- While an envelope stays loaded the cursors only move forward and its contents do not change (10_state.md
R27, R30; 20_memory.md R79). -/
def Obligations.CursorsMoveForward : Prop :=
  ∀ (i : Instr) (s t : State), BlockOk s → s.loaded = true → i ≠ .frame → i ≠ .discard → typeSupported i = true →
    exec i s = .next t →
    s.cur.toNat ≤ t.cur.toNat ∧ t.cur.toNat ≤ t.plen.toNat ∧ s.dcur.toNat ≤ t.dcur.toNat ∧
    t.dcur.toNat ≤ t.dcnt.toNat ∧ t.payload = s.payload ∧ t.desc = s.desc ∧ t.plen = s.plen ∧
    t.dcnt = s.dcnt ∧ t.sender = s.sender ∧ t.opcode = s.opcode ∧ t.size = s.size

/-- The state machines of 60_exceptions.md R265, by command: how `MODE` and `TXMODE` can move. -/
def Obligations.ModesMoveByCommand : Prop :=
  ∀ (i : Instr) (s t : State), typeSupported i = true → exec i s = .next t →
    (i = .frame → t.mode = s.mode ∨ (s.mode ≠ .dead ∧ (t.mode = .ready ∨ t.mode = .dead))) ∧
    (i = .discard → t.mode = (if s.mode = .dead then .dead else .idle)) ∧
    (legality i = .readyOnly → t.mode = s.mode ∨ (s.mode = .ready ∧ t.mode = .decodeFault)) ∧
    (legality i = .txOpenOnly ∨ legality i = .anywhere → t.mode = s.mode) ∧
    (∀ o w, i = .encBegin o w → t.mode = s.mode ∧
      t.txmode = (if s.mode = .dead then s.txmode else .txOpen)) ∧
    (i = .encEnd → t.txmode = (if s.mode ≠ .dead ∧ s.txmode = .txOpen then .txIdle else s.txmode)) ∧
    (legality i = .txOpenOnly → i ≠ .encEnd →
      t.txmode = s.txmode ∨ (s.txmode = .txOpen ∧ t.txmode = .txFault)) ∧
    (legality i ≠ .txOpenOnly → (∀ o w, i ≠ .encBegin o w) → t.txmode = s.txmode)

/-- Every command that does not hold produces exactly one response, after its other events, with items only when
it is `OK`, and leaves the command port (30_encoding.md R116; 20_memory.md R68, R76). -/
def Obligations.OneResponsePerCommand : Prop :=
  ∀ (s t : State) (p : Packet) (rest : List Packet),
    s.resetIn = false → s.cmdPort = p :: rest → s.frameHolds = false → step s = .next t →
    t.cmdPort = rest ∧
    ∃ evs st is, t.out = s.out ++ evs ++ [.response st is] ∧ responsesOf evs = [] ∧ (st ≠ .ok → is = [])

/-- The block closes only handles it owns: unconsumed descriptors of the loaded envelope, never one below `DCUR`;
or, in a step that carries out a FRAME which fails on its records, handles of the records before the first bad one.
Handles of records at the port in any other step, and of records after a bad one, stay the transport's
(10_state.md R46; 20_memory.md R65, R67; 40_framer.md R135, R136; 42_decode.md R183). -/
def Obligations.ClosesOnlyOwnedHandles : Prop :=
  ∀ s t : State, step s = .next t →
    ∃ evs, t.out = s.out ++ evs ∧
      ∀ h ∈ closedHandles evs,
        (s.loaded = true ∧ h ∈ s.desc.drop s.dcur.toNat) ∨
        (s.resetIn = false ∧ (∃ p rest, s.cmdPort = p :: rest ∧ decode p = .ok .frame) ∧
          t.mode = .dead ∧ t.err = 0x22 ∧ h ∈ rightsHandles (s.ancRecords.takeWhile (· != .bad)))

/-- A command that answers a refusal has changed nothing but the response (60_exceptions.md R247, R255). -/
def Obligations.RefusalChangesNothing : Prop :=
  ∀ (s t : State) (p : Packet) (rest : List Packet) (st : Status),
    s.resetIn = false → s.cmdPort = p :: rest → step s = .next t → st.cls = .refusal →
    Output.response st [] ∈ t.out.drop s.out.length →
    t = { s with cmdPort := rest, out := s.out ++ [.response st []] }

/-- The legality table of 60_exceptions.md R261: a command that is not legal is refused with `E_BAD_MODE`, one
that is legal is not. -/
def Obligations.LegalityTable : Prop :=
  ∀ (i : Instr) (s t : State), WellFormed i → typeSupported i = true → exec i s = .next t →
    (legalIn i s = false → t = s.respond .badMode []) ∧
    (legalIn i s = true → Output.response .badMode [] ∉ t.out.drop s.out.length)

/-- The two sides share nothing: an ENC command of a supported type leaves the receive side alone, every other
command the transmit side (20_memory.md R79; 60_exceptions.md R246, R254). -/
def Obligations.SidesAreSeparate : Prop :=
  ∀ (i : Instr) (s t : State), typeSupported i = true → exec i s = .next t →
    t.bo = s.bo ∧
    (legality i = .txOpenOnly ∨ (∃ o w, i = .encBegin o w) → SameReceive s t) ∧
    (legality i ≠ .txOpenOnly → (∀ o w, i ≠ .encBegin o w) → SameTransmit s t)

/-! ### The framer -/

/-- FRAME on a whole message: the implicit discard, then the envelope with the descriptors of all rights records
in encounter order (40_framer.md R130, R135; 10_state.md R23 to R30). `discardLoaded` is that implicit discard,
written out in DiscardReleasesEnvelope. Which records belong to this FRAME is the model's choice (log 11), and so
is `DESC_MAX` as an argument (00_scope.md R4; log 6). -/
def Obligations.FrameLoadsMessage : Prop :=
  ∀ (s : State) (r0 r1 payload rest : List Byte) (size opcode : Half),
    s.mode ≠ .dead → r0.length = 4 → r1.length = 4 → s.rx = r0 ++ r1 ++ payload ++ rest →
    size = (u32 s.bo r1).extractLsb' 16 16 → opcode = (u32 s.bo r1).extractLsb' 0 16 →
    8 ≤ size.toNat → payload.length = size.toNat - 8 →
    (∀ r ∈ s.ancRecords, r ≠ .bad) → (rightsHandles s.ancRecords).length ≤ s.descMax.toNat →
    exec .frame s = .next { s.discardLoaded with
      mode := .ready
      sender := u32 s.bo r0
      opcode := opcode
      size := size
      plen := size - 8
      payload := payload
      cur := 0
      desc := rightsHandles s.ancRecords
      dcnt := BitVec.ofNat 32 (rightsHandles s.ancRecords).length
      dcur := 0
      rx := rest
      anc := s.anc.tail
      cmdPort := s.cmdPort.tail
      out := s.discardLoaded.out ++
        [.response .ok [.word (u32 s.bo r0), .word (opcode.zeroExtend 32), .word (size.zeroExtend 32)]] }

/-- FRAME holds while its reads have no answer, and the block changes no state (40_framer.md R137; 20_memory.md
R64). That one event of the outside world happens in such a step is the model's choice (logs 2, 15). -/
def Obligations.FrameHoldsForBytes : Prop :=
  ∀ s : State, s.mode ≠ .dead → s.rxEnd = false →
    (s.rx.length < 8 ∨
      (8 ≤ ((u32 s.bo ((s.rx.drop 4).take 4)).extractLsb' 16 16).toNat ∧
        s.rx.length < ((u32 s.bo ((s.rx.drop 4).take 4)).extractLsb' 16 16).toNat)) →
    exec .frame s = .next s.await ∧ SameBlock s s.await ∧ s.await.out = s.out ∧
    (s.agenda = [] → exec .frame s = .next s)

/-- A header or payload read that comes back short: `E_HDR_READ` with the header bytes obtained, or
`E_SHORT_PAYLOAD` with the payload bytes obtained (40_framer.md R130, R136; 60_exceptions.md R241, R250, R251).
Nothing is said about the stream left (log 10). -/
def Obligations.FrameShortReads : Prop :=
  ∀ s : State, s.mode ≠ .dead → s.rxEnd = true →
    (s.rx.length < 8 →
      ∃ rest anc, exec .frame s = .next { s.discardLoaded with
        mode := .dead
        err := 0x10
        errinfo := BitVec.ofNat 32 s.rx.length
        rx := rest
        anc := anc
        cmdPort := s.cmdPort.tail
        out := s.discardLoaded.out ++ [.response .hdrRead []] }) ∧
    (∀ r0 r1 part : List Byte, r0.length = 4 → r1.length = 4 → s.rx = r0 ++ r1 ++ part →
      8 ≤ ((u32 s.bo r1).extractLsb' 16 16).toNat →
      part.length < ((u32 s.bo r1).extractLsb' 16 16).toNat - 8 →
      ∃ rest anc, exec .frame s = .next { s.discardLoaded with
        mode := .dead
        err := 0x21
        errinfo := BitVec.ofNat 32 part.length
        rx := rest
        anc := anc
        cmdPort := s.cmdPort.tail
        out := s.discardLoaded.out ++ [.response .shortPayload []] })

/-- A header whose size is below 8 is the framing failure `E_BAD_SIZE` with the raw second word (40_framer.md
R130; 30_encoding.md R93; 60_exceptions.md R241, R251). -/
def Obligations.FrameBadSize : Prop :=
  ∀ (s : State) (r0 r1 more : List Byte), s.mode ≠ .dead → r0.length = 4 → r1.length = 4 →
    s.rx = r0 ++ r1 ++ more → ((u32 s.bo r1).extractLsb' 16 16).toNat < 8 →
    ∃ rest anc, exec .frame s = .next { s.discardLoaded with
      mode := .dead
      err := 0x20
      errinfo := u32 s.bo r1
      rx := rest
      anc := anc
      cmdPort := s.cmdPort.tail
      out := s.discardLoaded.out ++ [.response .badSize []] }

/-- The first bad record ends FRAME with `E_ANC_PARSE` and its index, after closing the handles collected before
it in order; what stands after it is not looked at (40_framer.md R130, R135; 60_exceptions.md R241, R251). So does
a rights record with whose handles the list would pass `DESC_MAX`, after a release of the handles held
(93_implementation_defined.md U7). The model's choice there (log 6): the handles held, which are closed, are those
collected before that record and that record's own, and none of a later record; the detail is the index of that
record. An index from 2^32 on is recorded modulo 2^32, also the model's choice (log 23). -/
def Obligations.FrameBadRecord : Prop :=
  ∀ (s : State) (r0 r1 payload more : List Byte) (before after : List AncRecord),
    s.mode ≠ .dead → r0.length = 4 → r1.length = 4 → s.rx = r0 ++ r1 ++ payload ++ more →
    8 ≤ ((u32 s.bo r1).extractLsb' 16 16).toNat →
    payload.length = ((u32 s.bo r1).extractLsb' 16 16).toNat - 8 →
    (∀ r ∈ before, r ≠ .bad) → (rightsHandles before).length ≤ s.descMax.toNat →
    let fails (closed : List Handle) : Prop :=
      ∃ rest anc, exec .frame s = .next { s.discardLoaded with
        mode := .dead
        err := 0x22
        errinfo := BitVec.ofNat 32 before.length
        rx := rest
        anc := anc
        cmdPort := s.cmdPort.tail
        out := s.discardLoaded.out ++ closed.map Output.close ++ [.response .ancParse []] }
    (s.ancRecords = before ++ .bad :: after → fails (rightsHandles before)) ∧
    (∀ hs : List Handle, s.ancRecords = before ++ .rights hs :: after →
      s.descMax.toNat < (rightsHandles before ++ hs).length → fails (rightsHandles before ++ hs))

/-- DISCARD: outside `DEAD` it closes the unconsumed descriptors in index order, records them, clears the
envelope and the error, and answers their number; in `IDLE` it changes nothing (40_framer.md R131, R132). The
implicit discard `discardLoaded` of FRAME and of the type-contract entry does the same to a loaded envelope, and
nothing without one (40_framer.md R130, R131; 60_exceptions.md R253). -/
def Obligations.DiscardReleasesEnvelope : Prop :=
  decode ⟨0x00000002, []⟩ = .ok .discard ∧
  ∀ s : State,
    (s.loaded = true → s.dcnt.toNat = s.desc.length →
      s.discardLoaded = { s with
        mode := .idle, sender := 0, opcode := 0, size := 0, plen := 0, cur := 0, dcnt := 0, dcur := 0,
        payload := [], desc := [], err := 0, errinfo := 0,
        leak := s.leak || decide (s.dcur.toNat < s.dcnt.toNat)
        leakcnt := BitVec.ofNat 32 (s.dcnt.toNat - s.dcur.toNat)
        out := s.out ++ (s.desc.drop s.dcur.toNat).map Output.close }) ∧
    (s.loaded = false → s.discardLoaded = s) ∧
    (s.loaded = true → s.dcnt.toNat = s.desc.length →
      exec .discard s = .next { s with
        mode := .idle, sender := 0, opcode := 0, size := 0, plen := 0, cur := 0, dcnt := 0, dcur := 0,
        payload := [], desc := [], err := 0, errinfo := 0,
        leak := s.leak || decide (s.dcur.toNat < s.dcnt.toNat)
        leakcnt := BitVec.ofNat 32 (s.dcnt.toNat - s.dcur.toNat)
        cmdPort := s.cmdPort.tail
        out := s.out ++ (s.desc.drop s.dcur.toNat).map Output.close ++
          [.response .ok [.word (BitVec.ofNat 32 (s.dcnt.toNat - s.dcur.toNat))]] }) ∧
    (s.mode = .idle →
      exec .discard s =
        .next { s with cmdPort := s.cmdPort.tail, out := s.out ++ [.response .ok [.word 0]] }) ∧
    (s.mode = .dead →
      exec .discard s =
        .next { s with cmdPort := s.cmdPort.tail, out := s.out ++ [.response .badMode []] })

/-- SKIP n: forward by n, or `E_PAYLOAD_UNDERRUN` with the cursor unchanged, in natural arithmetic; `READY` only;
its command word (40_framer.md R133; 60_exceptions.md R252). -/
def Obligations.SkipMovesCursor : Prop :=
  ∀ (s : State) (n : Half),
    decode ⟨(n.zeroExtend 32 <<< 16) ||| 0x03, []⟩ = .ok (.skip n) ∧
    (s.mode = .ready → s.cur.toNat + n.toNat ≤ s.plen.toNat →
      exec (.skip n) s = .next { s with
        cur := s.cur + n, cmdPort := s.cmdPort.tail, out := s.out ++ [.response .ok []] }) ∧
    (s.mode = .ready → s.plen.toNat < s.cur.toNat + n.toNat →
      exec (.skip n) s = .next { s with
        mode := .decodeFault, err := 0x32, errinfo := s.cur.zeroExtend 32,
        cmdPort := s.cmdPort.tail, out := s.out ++ [.response .payloadUnderrun []] }) ∧
    (s.mode ≠ .ready →
      exec (.skip n) s =
        .next { s with cmdPort := s.cmdPort.tail, out := s.out ++ [.response .badMode []] })

/-! ### The decoder -/

/-- DEC.INT, DEC.UINT, DEC.FIXED: the four bytes at the cursor in the byte order of the block, or
`E_PAYLOAD_UNDERRUN`; their command words (42_decode.md R171 to R173, R179, R180). -/
def Obligations.DecScalarsReadFourBytes : Prop :=
  decode ⟨0x00000010, []⟩ = .ok .decInt ∧ decode ⟨0x00000110, []⟩ = .ok .decUint ∧
  decode ⟨0x00000210, []⟩ = .ok .decFixed ∧
  ∀ (s : State) (i : Instr), s.mode = .ready → s.payload.length = s.plen.toNat →
    i = .decInt ∨ i = .decUint ∨ i = .decFixed →
    (s.cur.toNat + 4 ≤ s.plen.toNat →
      exec i s = .next { s with
        cur := s.cur + 4
        cmdPort := s.cmdPort.tail
        out := s.out ++ [.response .ok [.word (u32 s.bo ((s.payload.drop s.cur.toNat).take 4))]] }) ∧
    (s.plen.toNat < s.cur.toNat + 4 →
      exec i s = .next { s with
        mode := .decodeFault, err := 0x32, errinfo := s.cur.zeroExtend 32,
        cmdPort := s.cmdPort.tail, out := s.out ++ [.response .payloadUnderrun []] })

/-- Without four bytes for its prefix or count, DEC.STRING, DEC.ARRAY, DEC.NEWID and DEC.SEQ fail with
`E_PAYLOAD_UNDERRUN` (42_decode.md R174 to R176, R178, R179). -/
def Obligations.DecWithoutPrefixUnderruns : Prop :=
  ∀ (s : State) (i : Instr), s.mode = .ready →
    i = .decString ∨ i = .decArray ∨ i = .decNewid ∨
      (∃ depth base, i = .decSeq depth base ∧ depth ≠ 0 ∧ base.toNat < 7) →
    s.plen.toNat < s.cur.toNat + 4 →
    exec i s = .next { s with
      mode := .decodeFault, err := 0x32, errinfo := s.cur.zeroExtend 32,
      cmdPort := s.cmdPort.tail, out := s.out ++ [.response .payloadUnderrun []] }

/-- DEC.STRING with the length L at the cursor: its tests in their order, and the content without terminator and
padding (42_decode.md R174; 30_encoding.md R100). -/
def Obligations.DecStringReadsField : Prop :=
  ∀ (s : State) (l : Nat), s.mode = .ready → s.payload.length = s.plen.toNat →
    s.cur.toNat + 4 ≤ s.plen.toNat → l = (u32 s.bo ((s.payload.drop s.cur.toNat).take 4)).toNat →
    (l = 0 →
      exec .decString s = .next { s with
        mode := .decodeFault, err := 0x30, errinfo := s.cur.zeroExtend 32,
        cmdPort := s.cmdPort.tail, out := s.out ++ [.response .malformedString []] }) ∧
    (0 < l → s.plen.toNat < s.cur.toNat + 4 + (l + 3) / 4 * 4 →
      exec .decString s = .next { s with
        mode := .decodeFault, err := 0x32, errinfo := s.cur.zeroExtend 32,
        cmdPort := s.cmdPort.tail, out := s.out ++ [.response .payloadUnderrun []] }) ∧
    (0 < l → s.cur.toNat + 4 + (l + 3) / 4 * 4 ≤ s.plen.toNat →
      s.payload[s.cur.toNat + 4 + (l - 1)]? ≠ some 0x00 →
      exec .decString s = .next { s with
        mode := .decodeFault, err := 0x30, errinfo := s.cur.zeroExtend 32,
        cmdPort := s.cmdPort.tail, out := s.out ++ [.response .malformedString []] }) ∧
    (0 < l → s.cur.toNat + 4 + (l + 3) / 4 * 4 ≤ s.plen.toNat →
      s.payload[s.cur.toNat + 4 + (l - 1)]? = some 0x00 →
      exec .decString s = .next { s with
        cur := BitVec.ofNat 16 (s.cur.toNat + 4 + (l + 3) / 4 * 4)
        cmdPort := s.cmdPort.tail
        out := s.out ++ [.response .ok [.bytes ((s.payload.drop (s.cur.toNat + 4)).take (l - 1))]] })

/-- DEC.ARRAY with the length L at the cursor: L bytes, the padding skipped unexamined, or `E_PAYLOAD_UNDERRUN`
(42_decode.md R175; 30_encoding.md R100). -/
def Obligations.DecArrayReadsField : Prop :=
  ∀ (s : State) (l : Nat), s.mode = .ready → s.payload.length = s.plen.toNat →
    s.cur.toNat + 4 ≤ s.plen.toNat → l = (u32 s.bo ((s.payload.drop s.cur.toNat).take 4)).toNat →
    (s.plen.toNat < s.cur.toNat + 4 + (l + 3) / 4 * 4 →
      exec .decArray s = .next { s with
        mode := .decodeFault, err := 0x32, errinfo := s.cur.zeroExtend 32,
        cmdPort := s.cmdPort.tail, out := s.out ++ [.response .payloadUnderrun []] }) ∧
    (s.cur.toNat + 4 + (l + 3) / 4 * 4 ≤ s.plen.toNat →
      exec .decArray s = .next { s with
        cur := BitVec.ofNat 16 (s.cur.toNat + 4 + (l + 3) / 4 * 4)
        cmdPort := s.cmdPort.tail
        out := s.out ++ [.response .ok [.bytes ((s.payload.drop (s.cur.toNat + 4)).take l)]] })

/-- DEC.NEWID with the length L of the name at the cursor: the tests of a string in their order, then four bytes
for the version; the name without terminator and padding, whatever the padding bytes, and the version; a failure
leaves the cursor at the start of the name (42_decode.md R176, R174, R180; 30_encoding.md R97, R100, R101). -/
def Obligations.DecNewidReadsPair : Prop :=
  ∀ (s : State) (l : Nat), s.mode = .ready → s.payload.length = s.plen.toNat →
    s.cur.toNat + 4 ≤ s.plen.toNat → l = (u32 s.bo ((s.payload.drop s.cur.toNat).take 4)).toNat →
    (l = 0 →
      exec .decNewid s = .next { s with
        mode := .decodeFault, err := 0x30, errinfo := s.cur.zeroExtend 32,
        cmdPort := s.cmdPort.tail, out := s.out ++ [.response .malformedString []] }) ∧
    (0 < l → s.plen.toNat < s.cur.toNat + 4 + (l + 3) / 4 * 4 →
      exec .decNewid s = .next { s with
        mode := .decodeFault, err := 0x32, errinfo := s.cur.zeroExtend 32,
        cmdPort := s.cmdPort.tail, out := s.out ++ [.response .payloadUnderrun []] }) ∧
    (0 < l → s.cur.toNat + 4 + (l + 3) / 4 * 4 ≤ s.plen.toNat →
      s.payload[s.cur.toNat + 4 + (l - 1)]? ≠ some 0x00 →
      exec .decNewid s = .next { s with
        mode := .decodeFault, err := 0x30, errinfo := s.cur.zeroExtend 32,
        cmdPort := s.cmdPort.tail, out := s.out ++ [.response .malformedString []] }) ∧
    (0 < l → s.cur.toNat + 4 + (l + 3) / 4 * 4 ≤ s.plen.toNat →
      s.plen.toNat < s.cur.toNat + 8 + (l + 3) / 4 * 4 →
      s.payload[s.cur.toNat + 4 + (l - 1)]? = some 0x00 →
      exec .decNewid s = .next { s with
        mode := .decodeFault, err := 0x32, errinfo := s.cur.zeroExtend 32,
        cmdPort := s.cmdPort.tail, out := s.out ++ [.response .payloadUnderrun []] }) ∧
    (0 < l → s.cur.toNat + 8 + (l + 3) / 4 * 4 ≤ s.plen.toNat →
      s.payload[s.cur.toNat + 4 + (l - 1)]? = some 0x00 →
      exec .decNewid s = .next { s with
        cur := BitVec.ofNat 16 (s.cur.toNat + 8 + (l + 3) / 4 * 4)
        cmdPort := s.cmdPort.tail
        out := s.out ++ [.response .ok [.bytes ((s.payload.drop (s.cur.toNat + 4)).take (l - 1)),
          .word (u32 s.bo ((s.payload.drop (s.cur.toNat + 4 + (l + 3) / 4 * 4)).take 4))]] })

/-- DEC.FD: the next descriptor, or `E_DESC_UNDERFLOW`; no payload byte is read; its command word (42_decode.md
R177; 20_memory.md R62). -/
def Obligations.DecFdTakesDescriptor : Prop :=
  decode ⟨0x00000610, []⟩ = .ok .decFd ∧
  ∀ (s : State) (h : Handle), s.mode = .ready → s.desc.length = s.dcnt.toNat →
    (s.desc[s.dcur.toNat]? = some h →
      exec .decFd s = .next { s with
        dcur := s.dcur + 1
        cmdPort := s.cmdPort.tail
        out := s.out ++ [.response .ok [.handle h]] }) ∧
    (s.dcnt.toNat ≤ s.dcur.toNat →
      exec .decFd s = .next { s with
        mode := .decodeFault, err := 0x31, errinfo := s.cur.zeroExtend 32,
        cmdPort := s.cmdPort.tail, out := s.out ++ [.response .descUnderflow []] })

/-- DEC.SEQ of a supported type: where the count and that many elements stand at the cursors, with any padding
bytes, it answers them in order and moves both cursors past them; where the count or an element cannot be read, it
fails with the code of the first failing one, a missing descriptor, a malformed string or a payload that ends; one
of the two always holds; and the encoding of a sequence is such a layout (42_decode.md R178, R180; 30_encoding.md
R99, R101, R104). -/
def Obligations.DecSeqReadsElements : Prop :=
  ∀ (s : State) (depth base : BitVec 4) (t : Ty), s.mode = .ready → depth ≠ 0 →
    typeOf depth base = some (.seq t) → s.payload.length = s.plen.toNat → s.desc.length = s.dcnt.toNat →
    (∀ (vs : List t.Val) (c d : Nat), WireAt s (.seq t) vs s.cur.toNat s.dcur.toNat c d →
      exec (.decSeq depth base) s = .next { s with
        cur := BitVec.ofNat 16 c
        dcur := BitVec.ofNat 32 d
        cmdPort := s.cmdPort.tail
        out := s.out ++
          [.response .ok (.word (BitVec.ofNat 32 vs.length) :: (vs.map (items t)).flatten)] }) ∧
    (∀ e : Status, FailsAt s (.seq t) s.cur.toNat s.dcur.toNat e →
      exec (.decSeq depth base) s = .next { s with
        mode := .decodeFault, err := e.code, errinfo := s.cur.zeroExtend 32,
        cmdPort := s.cmdPort.tail, out := s.out ++ [.response e []] }) ∧
    ((∃ (vs : List t.Val) (c d : Nat), WireAt s (.seq t) vs s.cur.toNat s.dcur.toNat c d) ∨
      ∃ e : Status, FailsAt s (.seq t) s.cur.toNat s.dcur.toNat e) ∧
    (∀ vs : List t.Val, countsFit (.seq t) vs = true →
      PayloadHas s s.cur.toNat (enc s.bo (.seq t) vs).1 → DescHas s s.dcur.toNat (enc s.bo (.seq t) vs).2 →
      WireAt s (.seq t) vs s.cur.toNat s.dcur.toNat (s.cur.toNat + wireLen (.seq t) vs)
        (s.dcur.toNat + (enc s.bo (.seq t) vs).2.length))

/-- A DEC command or SKIP that fails commits nothing: only `MODE`, `ERR` and `ERRINFO` change, the response has no
items, no `Close` is emitted (42_decode.md R180; 60_exceptions.md R249, R252). -/
def Obligations.FailedDecodeCommitsNothing : Prop :=
  ∀ (i : Instr) (s t : State), legality i = .readyOnly → typeSupported i = true → s.mode = .ready →
    exec i s = .next t → t.mode ≠ .ready →
    ∃ e : Status, e.cls = .decode ∧
      t = { s with
        mode := .decodeFault, err := e.code, errinfo := s.cur.zeroExtend 32,
        cmdPort := s.cmdPort.tail, out := s.out ++ [.response e []] }

/-- `dec` moves both cursors forward only and never past `PLEN` or `DCNT` (20_memory.md R61, R62; 10_state.md R30). -/
def Obligations.DecodeStaysInBounds : Prop :=
  ∀ (s : State) (t : Ty) (v : t.Val) (c d c' d' : Nat), dec s t c d = .ok (v, c', d') →
    c ≤ c' ∧ d ≤ d' ∧ (c ≤ s.plen.toNat → c' ≤ s.plen.toNat) ∧ (d ≤ s.dcnt.toNat → d' ≤ s.dcnt.toNat)

/-- Whatever the 32-bit count says, a decoded sequence has no more elements than the payload and the descriptors
that are left can hold (42_decode.md R182). -/
def Obligations.SequenceLengthBounded : Prop :=
  ∀ (s : State) (t : Ty) (vs : List t.Val) (c d c' d' : Nat), dec s (.seq t) c d = .ok (vs, c', d') →
    4 * vs.length + 4 ≤ (c' - c) + 4 * (d' - d)

/-! ### The encoder -/

/-- ENC.BEGIN: a new empty message in every `TXMODE`, with no `Close`; refused in `DEAD`; its command word
(43_encode.md R201, R213). -/
def Obligations.EncBeginOpensMessage : Prop :=
  ∀ (s : State) (opcode : Half) (sender : Word),
    decode ⟨(opcode.zeroExtend 32 <<< 16) ||| 0x20, [sender]⟩ = .ok (.encBegin opcode sender) ∧
    (s.mode ≠ .dead →
      exec (.encBegin opcode sender) s = .next { s with
        txsender := sender, txopcode := opcode, txbuf := [], txlen := 0, txdesc := [], txdcnt := 0,
        txerr := 0, txmode := .txOpen,
        cmdPort := s.cmdPort.tail, out := s.out ++ [.response .ok []] }) ∧
    (s.mode = .dead →
      exec (.encBegin opcode sender) s =
        .next { s with cmdPort := s.cmdPort.tail, out := s.out ++ [.response .badMode []] })

/-- ENC.INT, ENC.UINT, ENC.FIXED append the four bytes of the word (43_encode.md R200, R202 to R204). -/
def Obligations.EncScalarsAppendFourBytes : Prop :=
  ∀ (s : State) (i : Instr) (v : Word), s.mode ≠ .dead → s.txmode = .txOpen →
    s.txbuf.length = s.txlen.toNat → s.txlen.toNat + 4 ≤ 65527 →
    i = .encInt v ∨ i = .encUint v ∨ i = .encFixed v →
    exec i s = .next { s with
      txbuf := s.txbuf ++ bytes32 s.bo v
      txlen := s.txlen + 4
      cmdPort := s.cmdPort.tail
      out := s.out ++ [.response .ok []] }

/-- ENC.STRING, ENC.ARRAY and ENC.NEWID append length, content and zero padding, the string with its terminator,
and the pair with nothing between name and version (43_encode.md R200, R205 to R207). -/
def Obligations.EncFieldsAppendLayout : Prop :=
  ∀ (s : State) (bs : List Byte) (version : Word), s.mode ≠ .dead → s.txmode = .txOpen →
    s.txbuf.length = s.txlen.toNat →
    (s.txlen.toNat + 4 + (bs.length + 4) / 4 * 4 ≤ 65527 →
      exec (.encString bs) s = .next { s with
        txbuf := s.txbuf ++ (bytes32 s.bo (BitVec.ofNat 32 (bs.length + 1)) ++ bs ++ [0x00] ++
          List.replicate ((4 - (bs.length + 1) % 4) % 4) 0x00)
        txlen := BitVec.ofNat 16 (s.txlen.toNat + 4 + (bs.length + 4) / 4 * 4)
        cmdPort := s.cmdPort.tail
        out := s.out ++ [.response .ok []] }) ∧
    (s.txlen.toNat + 4 + (bs.length + 3) / 4 * 4 ≤ 65527 →
      exec (.encArray bs) s = .next { s with
        txbuf := s.txbuf ++ (bytes32 s.bo (BitVec.ofNat 32 bs.length) ++ bs ++
          List.replicate ((4 - bs.length % 4) % 4) 0x00)
        txlen := BitVec.ofNat 16 (s.txlen.toNat + 4 + (bs.length + 3) / 4 * 4)
        cmdPort := s.cmdPort.tail
        out := s.out ++ [.response .ok []] }) ∧
    (s.txlen.toNat + 8 + (bs.length + 4) / 4 * 4 ≤ 65527 →
      exec (.encNewid bs version) s = .next { s with
        txbuf := s.txbuf ++ (bytes32 s.bo (BitVec.ofNat 32 (bs.length + 1)) ++ bs ++ [0x00] ++
          List.replicate ((4 - (bs.length + 1) % 4) % 4) 0x00 ++ bytes32 s.bo version)
        txlen := BitVec.ofNat 16 (s.txlen.toNat + 8 + (bs.length + 4) / 4 * 4)
        cmdPort := s.cmdPort.tail
        out := s.out ++ [.response .ok []] })

/-- ENC.FD appends the handle and no byte, and `TXDCNT` grows by one; its command word (43_encode.md R208, R213).
That `TXDCNT` goes from 2^32 - 1 to 0, where the spec gives no bound, is the model's choice (log 7). -/
def Obligations.EncFdAttachesHandle : Prop :=
  (∀ h : Handle, decode ⟨0x00000621, [h]⟩ = .ok (.encFd h)) ∧
  ∀ (s : State) (h : Handle), s.mode ≠ .dead → s.txmode = .txOpen → s.txlen.toNat ≤ 65527 →
    exec (.encFd h) s = .next { s with
      txdesc := s.txdesc ++ [h]
      txdcnt := s.txdcnt + 1
      cmdPort := s.cmdPort.tail
      out := s.out ++ [.response .ok []] }

/-- ENC.SEQ of a supported type with the items of a sequence appends the count, then the bytes and the handles of
the elements in order (43_encode.md R200, R209). That `TXDCNT` grows by their number modulo 2^32, where the spec
gives no bound, is the model's choice (log 7). -/
def Obligations.EncSeqAppendsElements : Prop :=
  ∀ (s : State) (depth base : BitVec 4) (t : Ty) (vs : List t.Val), s.mode ≠ .dead → s.txmode = .txOpen →
    depth ≠ 0 → typeOf depth base = some (.seq t) → countsFit (.seq t) vs = true →
    s.txbuf.length = s.txlen.toNat → s.txlen.toNat + wireLen (.seq t) vs ≤ 65527 →
    exec (.encSeq depth base (items (.seq t) vs)) s = .next { s with
      txbuf := s.txbuf ++ (bytes32 s.bo (BitVec.ofNat 32 vs.length) ++
        (vs.map fun e => (enc s.bo t e).1).flatten)
      txlen := BitVec.ofNat 16 (s.txlen.toNat + wireLen (.seq t) vs)
      txdesc := s.txdesc ++ (vs.map fun e => (enc s.bo t e).2).flatten
      txdcnt := s.txdcnt + BitVec.ofNat 32 ((vs.map fun e => (enc s.bo t e).2).flatten).length
      cmdPort := s.cmdPort.tail
      out := s.out ++ [.response .ok []] }

/-- An ENC value command whose bytes do not fit appends nothing, neither bytes nor handles, and enters `TX_FAULT`;
the receive side is untouched (43_encode.md R211; 60_exceptions.md R254). -/
def Obligations.EncodeOverflowFaults : Prop :=
  ∀ (s : State) (i : Instr) (t : Ty) (v : t.Val), encodedValue i = some ⟨t, v⟩ →
    s.mode ≠ .dead → s.txmode = .txOpen → 65527 < s.txlen.toNat + (enc s.bo t v).1.length →
    exec i s = .next { s with
      txmode := .txFault, txerr := 0x50,
      cmdPort := s.cmdPort.tail, out := s.out ++ [.response .encOverflow []] }

/-- ENC.END emits one message, header then payload, with all handles, and answers its size; the transmit side is
then idle and empty; outside `TX_OPEN` and in `DEAD` it is refused; its command word (43_encode.md R210;
20_memory.md R66; 60_exceptions.md R261). -/
def Obligations.EncEndEmitsMessage : Prop :=
  decode ⟨0x00000023, []⟩ = .ok .encEnd ∧
  ∀ s : State,
    (s.mode ≠ .dead → s.txmode = .txOpen → s.txbuf.length = s.txlen.toNat → s.txlen.toNat ≤ 65527 →
      exec .encEnd s = .next { s with
        txsender := 0, txopcode := 0, txbuf := [], txlen := 0, txdesc := [], txdcnt := 0, txmode := .txIdle,
        cmdPort := s.cmdPort.tail
        out := s.out ++
          [.txEmit (bytes32 s.bo s.txsender ++
              bytes32 s.bo (BitVec.ofNat 32 (65536 * (8 + s.txlen.toNat) + s.txopcode.toNat)) ++ s.txbuf) s.txdesc,
            .response .ok [.word (BitVec.ofNat 32 (8 + s.txlen.toNat))]] }) ∧
    (s.mode = .dead ∨ s.txmode ≠ .txOpen →
      exec .encEnd s = .next { s with cmdPort := s.cmdPort.tail, out := s.out ++ [.response .badMode []] })

/-- A message that ENC.END emits, carried to the RX stream of a block of the same byte order with its handles, no
more than that block's `DESC_MAX`, as one rights record, is framed to the same sender, opcode, payload and
descriptors (43_encode.md R210; 40_framer.md R134; 20_memory.md R79). -/
def Obligations.EmittedMessageIsFramed : Prop :=
  ∀ (s r : State) (bytes more : List Byte), s.mode ≠ .dead → s.txmode = .txOpen →
    s.txbuf.length = s.txlen.toNat → s.txlen.toNat ≤ 65527 → s.txdesc.length ≤ r.descMax.toNat →
    bytes = packHeader s.bo s.txsender (8 + s.txlen) s.txopcode ++ s.txbuf →
    r.mode = .idle → r.bo = s.bo → r.rx = bytes ++ more → r.ancRecords = [.rights s.txdesc] →
    ∃ t t', exec .encEnd s = .next t ∧
      t.out = s.out ++ [.txEmit bytes s.txdesc, .response .ok [.word ((8 + s.txlen).zeroExtend 32)]] ∧
      exec .frame r = .next t' ∧ t'.mode = .ready ∧ t'.sender = s.txsender ∧ t'.opcode = s.txopcode ∧
      t'.payload = s.txbuf ∧ t'.desc = s.txdesc ∧ t'.cur = 0 ∧ t'.dcur = 0 ∧ t'.rx = more

/-! ### The fixed-point converter -/

/-- FX.FROMINT, FX.INTEGER and FX.FRACTION, and their command words (41_fixed_point.md R151, R153, R154). -/
def Obligations.FixedIntegerCommands : Prop :=
  ∀ (s : State) (n : Word),
    decode ⟨0x00000030, [n]⟩ = .ok (.fxFromint n) ∧ decode ⟨0x00000032, [n]⟩ = .ok (.fxInteger n) ∧
    decode ⟨0x00000033, [n]⟩ = .ok (.fxFraction n) ∧
    exec (.fxFromint n) s = .next (s.respond .ok [.word (BitVec.ofNat 32 (n.toNat * 256))]) ∧
    exec (.fxInteger n) s = .next (s.respond .ok [.word (BitVec.ofInt 32 (n.toInt / 256))]) ∧
    exec (.fxFraction n) s = .next (s.respond .ok [.word (BitVec.ofNat 32 (n.toNat % 256))])

/-- Property 4 of the source: an integer of 24 bits, converted, has itself as integer part and the fraction 0; 5
converts to 5.0 (41_fixed_point.md R156). -/
def Obligations.FixedFromIntLaw : Prop :=
  ∀ s : State,
    (∀ n : Word, -(2 ^ 23) ≤ n.toInt → n.toInt ≤ 2 ^ 23 - 1 →
      ∃ v : Word, exec (.fxFromint n) s = .next (s.respond .ok [.word v]) ∧
        exec (.fxInteger v) s = .next (s.respond .ok [.word n]) ∧
        exec (.fxFraction v) s = .next (s.respond .ok [.word 0])) ∧
    ∃ v : Word, exec (.fxFromint 5) s = .next (s.respond .ok [.word v]) ∧
      exec (.fxFloat v) s = .next (s.respond .ok [.f64 0x4014000000000000]) ∧
      f64Value 0x4014000000000000 = some 5

/-- FX.FLOAT answers the binary64 whose real number is the two's-complement value divided by 256
(41_fixed_point.md R155, R157). -/
def Obligations.FixedFloatIsExact : Prop :=
  ∀ (s : State) (v : Word), ∃ x : F64,
    exec (.fxFloat v) s = .next (s.respond .ok [.f64 x]) ∧ f64Value x = some ((v.toInt : ℚ) / 256) ∧
    (v = 0 → x = 0)

/-- FX.FROMFLOAT on a number q whose integer part i fits 32 signed bits: i shifted left 8 bits, OR'd with the
fraction rounded to the nearest 1/256, ties away from zero, not masked (41_fixed_point.md R152). -/
def Obligations.FixedFromFloatConstruction : Prop :=
  ∀ (s : State) (x : F64) (q : ℚ), f64Value x = some q →
    -(2 ^ 31) ≤ truncRat q → truncRat q ≤ 2 ^ 31 - 1 →
    exec (.fxFromfloat x) s = .next (s.respond .ok [.word
      (BitVec.ofInt 32 (truncRat q) <<< 8 |||
        BitVec.ofNat 32 (⌊|q - (truncRat q : ℚ)| * 256 + 1 / 2⌋).toNat)])

/-- FX.FROMFLOAT of a NaN, an infinity, or a number whose integer part does not fit: status `OK`, one result word
of which nothing is said, and no register changes (41_fixed_point.md R152, R160; log 5). -/
def Obligations.FixedFromFloatOpenValue : Prop :=
  ∀ (s : State) (x : F64),
    (∀ q, f64Value x = some q → truncRat q < -(2 ^ 31) ∨ 2 ^ 31 - 1 < truncRat q) →
    ∃ (w : Word) (n : Nat), exec (.fxFromfloat x) s = .next { s with
      draws := n, cmdPort := s.cmdPort.tail, out := s.out ++ [.response .ok [.word w]] }

/-- Outside the carry band FX.FROMFLOAT of a number from 0 up to 2^23 is that number rounded to the nearest 1/256
(41_fixed_point.md R158). -/
def Obligations.FixedFromFloatRoundsNonNegative : Prop :=
  ∀ (s : State) (x : F64) (q : ℚ), f64Value x = some q → 0 ≤ q → q < 2 ^ 23 →
    q - (⌊q⌋ : ℚ) < 511 / 512 →
    ∃ v : Word, exec (.fxFromfloat x) s = .next (s.respond .ok [.word v]) ∧
      v.toInt = ⌊q * 256 + 1 / 2⌋

/-! ### Registers -/

/-- RDREG reads every register of the map, zero-extended, and refuses every other number, in every mode; its
command word, and the words with its operation that are malformed (44_system.md R230; 10_state.md R40 to R42). -/
def Obligations.RdregReadsMap : Prop :=
  ∀ (s : State) (r : Half),
    let reads (v : Word) : Prop :=
      exec (.rdreg r) s = .next { s with
        cmdPort := s.cmdPort.tail, out := s.out ++ [.response .ok [.word v]] }
    decode ⟨(r.zeroExtend 32 <<< 16) ||| 0x08, []⟩ = .ok (.rdreg r) ∧
    (∀ p : Packet, opField p.word = 0x08 → baseField p.word ≠ 0 ∨ depthField p.word ≠ 0 →
      decode p = .error .unusedField) ∧
    (r = 0x00 → reads (if s.bo = .be then 1 else 0)) ∧ (r = 0x01 → ∃ w : Word, reads w ∧
      w.extractLsb' 0 2 = s.mode.bits ∧ w.extractLsb' 2 2 = s.txmode.bits ∧ w.getLsbD 4 = s.leak ∧
      w.extractLsb' 5 27 = 0) ∧
    (r = 0x02 → reads (s.err.zeroExtend 32)) ∧ (r = 0x03 → reads s.errinfo) ∧
    (r = 0x04 → reads s.sender) ∧ (r = 0x05 → reads (s.opcode.zeroExtend 32)) ∧
    (r = 0x06 → reads (s.size.zeroExtend 32)) ∧ (r = 0x07 → reads (s.plen.zeroExtend 32)) ∧
    (r = 0x08 → reads (s.cur.zeroExtend 32)) ∧ (r = 0x09 → reads s.dcnt) ∧ (r = 0x0A → reads s.dcur) ∧
    (r = 0x0B → reads s.leakcnt) ∧ (r = 0x10 → reads s.txsender) ∧
    (r = 0x11 → reads (s.txopcode.zeroExtend 32)) ∧ (r = 0x12 → reads (s.txlen.zeroExtend 32)) ∧
    (r = 0x13 → reads s.txdcnt) ∧ (r = 0x14 → reads (s.txerr.zeroExtend 32)) ∧
    (0x0B < r.toNat ∧ r.toNat < 0x10 ∨ 0x14 < r.toNat →
      exec (.rdreg r) s = .next { s with
        cmdPort := s.cmdPort.tail, out := s.out ++ [.response .badReg []] })
end

