-- ==== Sys2Proof/Laws/Operands.lean ====
section
/-! SUPPORT. What the operand operations can do: byte order, padding, reading many values, operand beats. -/

namespace Sys2Proof.Machine

@[simp] theorem bytes32_length (bo : ByteOrder) (v : Word) : (bytes32 bo v).length = 4 := by
  cases bo <;> rfl

theorem bytes32_be_reverse (v : Word) : bytes32 .be v = (bytes32 .le v).reverse := rfl

theorem u32_be_reverse (b0 b1 b2 b3 : Byte) :
    u32 .be [b0, b1, b2, b3] = u32 .le [b3, b2, b1, b0] := by
  simp only [u32, List.getD_cons_zero, List.getD_cons_succ]
  congr 1
  omega

@[simp] theorem lenWord_toNat {n : Nat} (h : n < 2 ^ 32) : (lenWord n).toNat = n := by
  simpa [lenWord] using h

theorem pad_lt (l : Nat) : pad l < 4 := Nat.mod_lt _ (by decide)

theorem add_pad_mod (l : Nat) : (l + pad l) % 4 = 0 := by
  unfold pad; omega

/-- A length with its padding is the length rounded up to a multiple of 4 (30_encoding.md R100). -/
theorem add_pad_eq (l : Nat) : l + pad l = (l + 3) / 4 * 4 := by
  unfold pad; omega

@[simp] theorem padding_length (l : Nat) : (padding l).length = pad l := by simp [padding]

@[simp] theorem stringBytes_length (bo : ByteOrder) (s : List Byte) :
    (stringBytes bo s).length = 4 + (s.length + 1) + pad (s.length + 1) := by
  simp [stringBytes]; omega

@[simp] theorem arrayBytes_length (bo : ByteOrder) (b : List Byte) :
    (arrayBytes bo b).length = 4 + b.length + pad b.length := by
  simp [arrayBytes]; omega

/-- The type that a descriptor denotes, if any, is its base type under `DEPTH` levels of `SEQ`. -/
theorem typeOf_eq_some {depth base : BitVec 4} {t : Ty} (h : typeOf depth base = some t) :
    ∃ b, baseTy base = some b ∧ t = seqOf depth.toNat b := by
  unfold typeOf at h
  obtain ⟨b, hb, rfl⟩ := Option.map_eq_some_iff.mp h
  exact ⟨b, hb, rfl⟩

/-- A tag names a type exactly when it is below 7 (30_encoding.md R107). -/
theorem baseTy_isSome : ∀ base : BitVec 4, (baseTy base).isSome = decide (base.toNat < 7) := by decide

theorem typeOf_isSome (depth base : BitVec 4) :
    (typeOf depth base).isSome = decide (base.toNat < 7) := by
  simp [typeOf, baseTy_isSome]

/-- What `readMany` answers is as many values as were asked for. -/
theorem readMany_length {α β : Type} {f : β → Option (α × β)} :
    ∀ {n : Nat} {r r' : β} {vs : List α}, readMany f n r = some (vs, r') → vs.length = n
  | 0, _, _, _, h => by
    simp only [readMany, Option.some.injEq, Prod.mk.injEq] at h
    simp [← h.1]
  | n + 1, r, r', vs, h => by
    simp only [readMany] at h
    split at h
    · cases h
    · split at h
      · cases h
      · rename_i hm
        simp only [Option.some.injEq, Prod.mk.injEq] at h
        simp [← h.1, readMany_length hm]

/-- `readMany` undoes a writer: when `f` reads back what `w` wrote of each value, so does `readMany` of the
values one after another. -/
theorem readMany_flatten {α γ δ : Type} {f : List γ → Option (δ × List γ)} {w : α → List γ} {g : α → δ}
    (vs : List α) (hf : ∀ v ∈ vs, ∀ r, f (w v ++ r) = some (g v, r)) (r : List γ) :
    readMany f vs.length ((vs.map w).flatten ++ r) = some (vs.map g, r) := by
  induction vs with
  | nil => rfl
  | cons v vs ih =>
    have hv := hf v (List.mem_cons_self ..)
    have hvs := ih fun u hu => hf u (List.mem_cons_of_mem _ hu)
    simp [readMany, hv, hvs]

/-- The data beats of a byte list are as many as hold it four to a beat. -/
theorem packBytes_length : ∀ bs : List Byte, (packBytes bs).length = (bs.length + 3) / 4
  | [] => by simp [packBytes]
  | [_] => by simp [packBytes]
  | [_, _] => by simp [packBytes]
  | [_, _, _] => by simp [packBytes]
  | _ :: _ :: _ :: _ :: bs => by
    simp only [packBytes, List.length_cons, packBytes_length bs]
    omega

/-- A `Bytes` item is at most 65535 bytes, and takes its length beat and its data beats. -/
theorem takeBytes_eq_some {ops r : List Word} {bs : List Byte} (h : takeBytes ops = some (bs, r)) :
    bs.length ≤ Config.itemBytesMax ∧ ops.length = 1 + (bs.length + 3) / 4 + r.length := by
  cases ops with
  | nil => simp [takeBytes] at h
  | cons n ops =>
    simp only [takeBytes] at h
    split_ifs at h with h1 h2
    simp only [Option.some.injEq, Prod.mk.injEq] at h
    obtain ⟨rfl, rfl⟩ := h
    have hl : (((ops.take ((n.toNat + 3) / 4)).map (bytes32 .le)).flatten).length
        = 4 * ((n.toNat + 3) / 4) := by
      have := Nat.min_eq_left (Nat.not_lt.mp h2)
      simp [List.length_flatten, Function.comp_def, this]
      omega
    rw [List.length_take, hl]
    simp only [List.length_cons, List.length_drop]
    omega

end Sys2Proof.Machine
end

