-- ==== Sys2Proof/Laws/State.lean ====
section
/-! SUPPORT. What each named update of the state does to each field. -/

namespace Sys2Proof.Machine

/-! ### `respond` -/

@[simp] theorem State.respond_bo (s : State) (st : Status) (is : List Item) :
    (s.respond st is).bo = s.bo := rfl
@[simp] theorem State.respond_mode (s : State) (st : Status) (is : List Item) :
    (s.respond st is).mode = s.mode := rfl
@[simp] theorem State.respond_sender (s : State) (st : Status) (is : List Item) :
    (s.respond st is).sender = s.sender := rfl
@[simp] theorem State.respond_opcode (s : State) (st : Status) (is : List Item) :
    (s.respond st is).opcode = s.opcode := rfl
@[simp] theorem State.respond_size (s : State) (st : Status) (is : List Item) :
    (s.respond st is).size = s.size := rfl
@[simp] theorem State.respond_plen (s : State) (st : Status) (is : List Item) :
    (s.respond st is).plen = s.plen := rfl
@[simp] theorem State.respond_payload (s : State) (st : Status) (is : List Item) :
    (s.respond st is).payload = s.payload := rfl
@[simp] theorem State.respond_cur (s : State) (st : Status) (is : List Item) :
    (s.respond st is).cur = s.cur := rfl
@[simp] theorem State.respond_desc (s : State) (st : Status) (is : List Item) :
    (s.respond st is).desc = s.desc := rfl
@[simp] theorem State.respond_dcnt (s : State) (st : Status) (is : List Item) :
    (s.respond st is).dcnt = s.dcnt := rfl
@[simp] theorem State.respond_dcur (s : State) (st : Status) (is : List Item) :
    (s.respond st is).dcur = s.dcur := rfl
@[simp] theorem State.respond_err (s : State) (st : Status) (is : List Item) :
    (s.respond st is).err = s.err := rfl
@[simp] theorem State.respond_errinfo (s : State) (st : Status) (is : List Item) :
    (s.respond st is).errinfo = s.errinfo := rfl
@[simp] theorem State.respond_leak (s : State) (st : Status) (is : List Item) :
    (s.respond st is).leak = s.leak := rfl
@[simp] theorem State.respond_leakcnt (s : State) (st : Status) (is : List Item) :
    (s.respond st is).leakcnt = s.leakcnt := rfl
@[simp] theorem State.respond_txmode (s : State) (st : Status) (is : List Item) :
    (s.respond st is).txmode = s.txmode := rfl
@[simp] theorem State.respond_txsender (s : State) (st : Status) (is : List Item) :
    (s.respond st is).txsender = s.txsender := rfl
@[simp] theorem State.respond_txopcode (s : State) (st : Status) (is : List Item) :
    (s.respond st is).txopcode = s.txopcode := rfl
@[simp] theorem State.respond_txbuf (s : State) (st : Status) (is : List Item) :
    (s.respond st is).txbuf = s.txbuf := rfl
@[simp] theorem State.respond_txlen (s : State) (st : Status) (is : List Item) :
    (s.respond st is).txlen = s.txlen := rfl
@[simp] theorem State.respond_txdesc (s : State) (st : Status) (is : List Item) :
    (s.respond st is).txdesc = s.txdesc := rfl
@[simp] theorem State.respond_txdcnt (s : State) (st : Status) (is : List Item) :
    (s.respond st is).txdcnt = s.txdcnt := rfl
@[simp] theorem State.respond_txerr (s : State) (st : Status) (is : List Item) :
    (s.respond st is).txerr = s.txerr := rfl
@[simp] theorem State.respond_cmdPort (s : State) (st : Status) (is : List Item) :
    (s.respond st is).cmdPort = s.cmdPort.tail := rfl
@[simp] theorem State.respond_rx (s : State) (st : Status) (is : List Item) :
    (s.respond st is).rx = s.rx := rfl
@[simp] theorem State.respond_rxEnd (s : State) (st : Status) (is : List Item) :
    (s.respond st is).rxEnd = s.rxEnd := rfl
@[simp] theorem State.respond_anc (s : State) (st : Status) (is : List Item) :
    (s.respond st is).anc = s.anc := rfl
@[simp] theorem State.respond_strap (s : State) (st : Status) (is : List Item) :
    (s.respond st is).strap = s.strap := rfl
@[simp] theorem State.respond_resetIn (s : State) (st : Status) (is : List Item) :
    (s.respond st is).resetIn = s.resetIn := rfl
@[simp] theorem State.respond_out (s : State) (st : Status) (is : List Item) :
    (s.respond st is).out = s.out ++ [Output.response st is] := rfl
@[simp] theorem State.respond_agenda (s : State) (st : Status) (is : List Item) :
    (s.respond st is).agenda = s.agenda := rfl
@[simp] theorem State.respond_draws (s : State) (st : Status) (is : List Item) :
    (s.respond st is).draws = s.draws := rfl
@[simp] theorem State.respond_descMax (s : State) (st : Status) (is : List Item) :
    (s.respond st is).descMax = s.descMax := rfl

/-! ### `closeAll` -/

@[simp] theorem State.closeAll_bo (s : State) (hs : List Handle) :
    (s.closeAll hs).bo = s.bo := rfl
@[simp] theorem State.closeAll_mode (s : State) (hs : List Handle) :
    (s.closeAll hs).mode = s.mode := rfl
@[simp] theorem State.closeAll_sender (s : State) (hs : List Handle) :
    (s.closeAll hs).sender = s.sender := rfl
@[simp] theorem State.closeAll_opcode (s : State) (hs : List Handle) :
    (s.closeAll hs).opcode = s.opcode := rfl
@[simp] theorem State.closeAll_size (s : State) (hs : List Handle) :
    (s.closeAll hs).size = s.size := rfl
@[simp] theorem State.closeAll_plen (s : State) (hs : List Handle) :
    (s.closeAll hs).plen = s.plen := rfl
@[simp] theorem State.closeAll_payload (s : State) (hs : List Handle) :
    (s.closeAll hs).payload = s.payload := rfl
@[simp] theorem State.closeAll_cur (s : State) (hs : List Handle) :
    (s.closeAll hs).cur = s.cur := rfl
@[simp] theorem State.closeAll_desc (s : State) (hs : List Handle) :
    (s.closeAll hs).desc = s.desc := rfl
@[simp] theorem State.closeAll_dcnt (s : State) (hs : List Handle) :
    (s.closeAll hs).dcnt = s.dcnt := rfl
@[simp] theorem State.closeAll_dcur (s : State) (hs : List Handle) :
    (s.closeAll hs).dcur = s.dcur := rfl
@[simp] theorem State.closeAll_err (s : State) (hs : List Handle) :
    (s.closeAll hs).err = s.err := rfl
@[simp] theorem State.closeAll_errinfo (s : State) (hs : List Handle) :
    (s.closeAll hs).errinfo = s.errinfo := rfl
@[simp] theorem State.closeAll_leak (s : State) (hs : List Handle) :
    (s.closeAll hs).leak = s.leak := rfl
@[simp] theorem State.closeAll_leakcnt (s : State) (hs : List Handle) :
    (s.closeAll hs).leakcnt = s.leakcnt := rfl
@[simp] theorem State.closeAll_txmode (s : State) (hs : List Handle) :
    (s.closeAll hs).txmode = s.txmode := rfl
@[simp] theorem State.closeAll_txsender (s : State) (hs : List Handle) :
    (s.closeAll hs).txsender = s.txsender := rfl
@[simp] theorem State.closeAll_txopcode (s : State) (hs : List Handle) :
    (s.closeAll hs).txopcode = s.txopcode := rfl
@[simp] theorem State.closeAll_txbuf (s : State) (hs : List Handle) :
    (s.closeAll hs).txbuf = s.txbuf := rfl
@[simp] theorem State.closeAll_txlen (s : State) (hs : List Handle) :
    (s.closeAll hs).txlen = s.txlen := rfl
@[simp] theorem State.closeAll_txdesc (s : State) (hs : List Handle) :
    (s.closeAll hs).txdesc = s.txdesc := rfl
@[simp] theorem State.closeAll_txdcnt (s : State) (hs : List Handle) :
    (s.closeAll hs).txdcnt = s.txdcnt := rfl
@[simp] theorem State.closeAll_txerr (s : State) (hs : List Handle) :
    (s.closeAll hs).txerr = s.txerr := rfl
@[simp] theorem State.closeAll_cmdPort (s : State) (hs : List Handle) :
    (s.closeAll hs).cmdPort = s.cmdPort := rfl
@[simp] theorem State.closeAll_rx (s : State) (hs : List Handle) :
    (s.closeAll hs).rx = s.rx := rfl
@[simp] theorem State.closeAll_rxEnd (s : State) (hs : List Handle) :
    (s.closeAll hs).rxEnd = s.rxEnd := rfl
@[simp] theorem State.closeAll_anc (s : State) (hs : List Handle) :
    (s.closeAll hs).anc = s.anc := rfl
@[simp] theorem State.closeAll_strap (s : State) (hs : List Handle) :
    (s.closeAll hs).strap = s.strap := rfl
@[simp] theorem State.closeAll_resetIn (s : State) (hs : List Handle) :
    (s.closeAll hs).resetIn = s.resetIn := rfl
@[simp] theorem State.closeAll_out (s : State) (hs : List Handle) :
    (s.closeAll hs).out = s.out ++ hs.map Output.close := rfl
@[simp] theorem State.closeAll_agenda (s : State) (hs : List Handle) :
    (s.closeAll hs).agenda = s.agenda := rfl
@[simp] theorem State.closeAll_draws (s : State) (hs : List Handle) :
    (s.closeAll hs).draws = s.draws := rfl
@[simp] theorem State.closeAll_descMax (s : State) (hs : List Handle) :
    (s.closeAll hs).descMax = s.descMax := rfl

/-! ### `txEmit` -/

@[simp] theorem State.txEmit_bo (s : State) (bs : List Byte) (hs : List Handle) :
    (s.txEmit bs hs).bo = s.bo := rfl
@[simp] theorem State.txEmit_mode (s : State) (bs : List Byte) (hs : List Handle) :
    (s.txEmit bs hs).mode = s.mode := rfl
@[simp] theorem State.txEmit_sender (s : State) (bs : List Byte) (hs : List Handle) :
    (s.txEmit bs hs).sender = s.sender := rfl
@[simp] theorem State.txEmit_opcode (s : State) (bs : List Byte) (hs : List Handle) :
    (s.txEmit bs hs).opcode = s.opcode := rfl
@[simp] theorem State.txEmit_size (s : State) (bs : List Byte) (hs : List Handle) :
    (s.txEmit bs hs).size = s.size := rfl
@[simp] theorem State.txEmit_plen (s : State) (bs : List Byte) (hs : List Handle) :
    (s.txEmit bs hs).plen = s.plen := rfl
@[simp] theorem State.txEmit_payload (s : State) (bs : List Byte) (hs : List Handle) :
    (s.txEmit bs hs).payload = s.payload := rfl
@[simp] theorem State.txEmit_cur (s : State) (bs : List Byte) (hs : List Handle) :
    (s.txEmit bs hs).cur = s.cur := rfl
@[simp] theorem State.txEmit_desc (s : State) (bs : List Byte) (hs : List Handle) :
    (s.txEmit bs hs).desc = s.desc := rfl
@[simp] theorem State.txEmit_dcnt (s : State) (bs : List Byte) (hs : List Handle) :
    (s.txEmit bs hs).dcnt = s.dcnt := rfl
@[simp] theorem State.txEmit_dcur (s : State) (bs : List Byte) (hs : List Handle) :
    (s.txEmit bs hs).dcur = s.dcur := rfl
@[simp] theorem State.txEmit_err (s : State) (bs : List Byte) (hs : List Handle) :
    (s.txEmit bs hs).err = s.err := rfl
@[simp] theorem State.txEmit_errinfo (s : State) (bs : List Byte) (hs : List Handle) :
    (s.txEmit bs hs).errinfo = s.errinfo := rfl
@[simp] theorem State.txEmit_leak (s : State) (bs : List Byte) (hs : List Handle) :
    (s.txEmit bs hs).leak = s.leak := rfl
@[simp] theorem State.txEmit_leakcnt (s : State) (bs : List Byte) (hs : List Handle) :
    (s.txEmit bs hs).leakcnt = s.leakcnt := rfl
@[simp] theorem State.txEmit_txmode (s : State) (bs : List Byte) (hs : List Handle) :
    (s.txEmit bs hs).txmode = s.txmode := rfl
@[simp] theorem State.txEmit_txsender (s : State) (bs : List Byte) (hs : List Handle) :
    (s.txEmit bs hs).txsender = s.txsender := rfl
@[simp] theorem State.txEmit_txopcode (s : State) (bs : List Byte) (hs : List Handle) :
    (s.txEmit bs hs).txopcode = s.txopcode := rfl
@[simp] theorem State.txEmit_txbuf (s : State) (bs : List Byte) (hs : List Handle) :
    (s.txEmit bs hs).txbuf = s.txbuf := rfl
@[simp] theorem State.txEmit_txlen (s : State) (bs : List Byte) (hs : List Handle) :
    (s.txEmit bs hs).txlen = s.txlen := rfl
@[simp] theorem State.txEmit_txdesc (s : State) (bs : List Byte) (hs : List Handle) :
    (s.txEmit bs hs).txdesc = s.txdesc := rfl
@[simp] theorem State.txEmit_txdcnt (s : State) (bs : List Byte) (hs : List Handle) :
    (s.txEmit bs hs).txdcnt = s.txdcnt := rfl
@[simp] theorem State.txEmit_txerr (s : State) (bs : List Byte) (hs : List Handle) :
    (s.txEmit bs hs).txerr = s.txerr := rfl
@[simp] theorem State.txEmit_cmdPort (s : State) (bs : List Byte) (hs : List Handle) :
    (s.txEmit bs hs).cmdPort = s.cmdPort := rfl
@[simp] theorem State.txEmit_rx (s : State) (bs : List Byte) (hs : List Handle) :
    (s.txEmit bs hs).rx = s.rx := rfl
@[simp] theorem State.txEmit_rxEnd (s : State) (bs : List Byte) (hs : List Handle) :
    (s.txEmit bs hs).rxEnd = s.rxEnd := rfl
@[simp] theorem State.txEmit_anc (s : State) (bs : List Byte) (hs : List Handle) :
    (s.txEmit bs hs).anc = s.anc := rfl
@[simp] theorem State.txEmit_strap (s : State) (bs : List Byte) (hs : List Handle) :
    (s.txEmit bs hs).strap = s.strap := rfl
@[simp] theorem State.txEmit_resetIn (s : State) (bs : List Byte) (hs : List Handle) :
    (s.txEmit bs hs).resetIn = s.resetIn := rfl
@[simp] theorem State.txEmit_out (s : State) (bs : List Byte) (hs : List Handle) :
    (s.txEmit bs hs).out = s.out ++ [Output.txEmit bs hs] := rfl
@[simp] theorem State.txEmit_agenda (s : State) (bs : List Byte) (hs : List Handle) :
    (s.txEmit bs hs).agenda = s.agenda := rfl
@[simp] theorem State.txEmit_draws (s : State) (bs : List Byte) (hs : List Handle) :
    (s.txEmit bs hs).draws = s.draws := rfl
@[simp] theorem State.txEmit_descMax (s : State) (bs : List Byte) (hs : List Handle) :
    (s.txEmit bs hs).descMax = s.descMax := rfl

/-! ### `memWrite` -/

@[simp] theorem State.memWrite_bo (s : State) (a : Nat) (v : List Byte) :
    (s.memWrite a v).bo = s.bo := rfl
@[simp] theorem State.memWrite_mode (s : State) (a : Nat) (v : List Byte) :
    (s.memWrite a v).mode = s.mode := rfl
@[simp] theorem State.memWrite_sender (s : State) (a : Nat) (v : List Byte) :
    (s.memWrite a v).sender = s.sender := rfl
@[simp] theorem State.memWrite_opcode (s : State) (a : Nat) (v : List Byte) :
    (s.memWrite a v).opcode = s.opcode := rfl
@[simp] theorem State.memWrite_size (s : State) (a : Nat) (v : List Byte) :
    (s.memWrite a v).size = s.size := rfl
@[simp] theorem State.memWrite_plen (s : State) (a : Nat) (v : List Byte) :
    (s.memWrite a v).plen = s.plen := rfl
@[simp] theorem State.memWrite_payload (s : State) (a : Nat) (v : List Byte) :
    (s.memWrite a v).payload = s.payload := rfl
@[simp] theorem State.memWrite_cur (s : State) (a : Nat) (v : List Byte) :
    (s.memWrite a v).cur = s.cur := rfl
@[simp] theorem State.memWrite_desc (s : State) (a : Nat) (v : List Byte) :
    (s.memWrite a v).desc = s.desc := rfl
@[simp] theorem State.memWrite_dcnt (s : State) (a : Nat) (v : List Byte) :
    (s.memWrite a v).dcnt = s.dcnt := rfl
@[simp] theorem State.memWrite_dcur (s : State) (a : Nat) (v : List Byte) :
    (s.memWrite a v).dcur = s.dcur := rfl
@[simp] theorem State.memWrite_err (s : State) (a : Nat) (v : List Byte) :
    (s.memWrite a v).err = s.err := rfl
@[simp] theorem State.memWrite_errinfo (s : State) (a : Nat) (v : List Byte) :
    (s.memWrite a v).errinfo = s.errinfo := rfl
@[simp] theorem State.memWrite_leak (s : State) (a : Nat) (v : List Byte) :
    (s.memWrite a v).leak = s.leak := rfl
@[simp] theorem State.memWrite_leakcnt (s : State) (a : Nat) (v : List Byte) :
    (s.memWrite a v).leakcnt = s.leakcnt := rfl
@[simp] theorem State.memWrite_txmode (s : State) (a : Nat) (v : List Byte) :
    (s.memWrite a v).txmode = s.txmode := rfl
@[simp] theorem State.memWrite_txsender (s : State) (a : Nat) (v : List Byte) :
    (s.memWrite a v).txsender = s.txsender := rfl
@[simp] theorem State.memWrite_txopcode (s : State) (a : Nat) (v : List Byte) :
    (s.memWrite a v).txopcode = s.txopcode := rfl
@[simp] theorem State.memWrite_txbuf (s : State) (a : Nat) (v : List Byte) :
    (s.memWrite a v).txbuf = s.txbuf.take a ++ v ++ s.txbuf.drop (a + v.length) := rfl
@[simp] theorem State.memWrite_txlen (s : State) (a : Nat) (v : List Byte) :
    (s.memWrite a v).txlen = s.txlen := rfl
@[simp] theorem State.memWrite_txdesc (s : State) (a : Nat) (v : List Byte) :
    (s.memWrite a v).txdesc = s.txdesc := rfl
@[simp] theorem State.memWrite_txdcnt (s : State) (a : Nat) (v : List Byte) :
    (s.memWrite a v).txdcnt = s.txdcnt := rfl
@[simp] theorem State.memWrite_txerr (s : State) (a : Nat) (v : List Byte) :
    (s.memWrite a v).txerr = s.txerr := rfl
@[simp] theorem State.memWrite_cmdPort (s : State) (a : Nat) (v : List Byte) :
    (s.memWrite a v).cmdPort = s.cmdPort := rfl
@[simp] theorem State.memWrite_rx (s : State) (a : Nat) (v : List Byte) :
    (s.memWrite a v).rx = s.rx := rfl
@[simp] theorem State.memWrite_rxEnd (s : State) (a : Nat) (v : List Byte) :
    (s.memWrite a v).rxEnd = s.rxEnd := rfl
@[simp] theorem State.memWrite_anc (s : State) (a : Nat) (v : List Byte) :
    (s.memWrite a v).anc = s.anc := rfl
@[simp] theorem State.memWrite_strap (s : State) (a : Nat) (v : List Byte) :
    (s.memWrite a v).strap = s.strap := rfl
@[simp] theorem State.memWrite_resetIn (s : State) (a : Nat) (v : List Byte) :
    (s.memWrite a v).resetIn = s.resetIn := rfl
@[simp] theorem State.memWrite_out (s : State) (a : Nat) (v : List Byte) :
    (s.memWrite a v).out = s.out := rfl
@[simp] theorem State.memWrite_agenda (s : State) (a : Nat) (v : List Byte) :
    (s.memWrite a v).agenda = s.agenda := rfl
@[simp] theorem State.memWrite_draws (s : State) (a : Nat) (v : List Byte) :
    (s.memWrite a v).draws = s.draws := rfl
@[simp] theorem State.memWrite_descMax (s : State) (a : Nat) (v : List Byte) :
    (s.memWrite a v).descMax = s.descMax := rfl

/-! ### `ancDone` -/

@[simp] theorem State.ancDone_bo (s : State) :
    (s.ancDone).bo = s.bo := rfl
@[simp] theorem State.ancDone_mode (s : State) :
    (s.ancDone).mode = s.mode := rfl
@[simp] theorem State.ancDone_sender (s : State) :
    (s.ancDone).sender = s.sender := rfl
@[simp] theorem State.ancDone_opcode (s : State) :
    (s.ancDone).opcode = s.opcode := rfl
@[simp] theorem State.ancDone_size (s : State) :
    (s.ancDone).size = s.size := rfl
@[simp] theorem State.ancDone_plen (s : State) :
    (s.ancDone).plen = s.plen := rfl
@[simp] theorem State.ancDone_payload (s : State) :
    (s.ancDone).payload = s.payload := rfl
@[simp] theorem State.ancDone_cur (s : State) :
    (s.ancDone).cur = s.cur := rfl
@[simp] theorem State.ancDone_desc (s : State) :
    (s.ancDone).desc = s.desc := rfl
@[simp] theorem State.ancDone_dcnt (s : State) :
    (s.ancDone).dcnt = s.dcnt := rfl
@[simp] theorem State.ancDone_dcur (s : State) :
    (s.ancDone).dcur = s.dcur := rfl
@[simp] theorem State.ancDone_err (s : State) :
    (s.ancDone).err = s.err := rfl
@[simp] theorem State.ancDone_errinfo (s : State) :
    (s.ancDone).errinfo = s.errinfo := rfl
@[simp] theorem State.ancDone_leak (s : State) :
    (s.ancDone).leak = s.leak := rfl
@[simp] theorem State.ancDone_leakcnt (s : State) :
    (s.ancDone).leakcnt = s.leakcnt := rfl
@[simp] theorem State.ancDone_txmode (s : State) :
    (s.ancDone).txmode = s.txmode := rfl
@[simp] theorem State.ancDone_txsender (s : State) :
    (s.ancDone).txsender = s.txsender := rfl
@[simp] theorem State.ancDone_txopcode (s : State) :
    (s.ancDone).txopcode = s.txopcode := rfl
@[simp] theorem State.ancDone_txbuf (s : State) :
    (s.ancDone).txbuf = s.txbuf := rfl
@[simp] theorem State.ancDone_txlen (s : State) :
    (s.ancDone).txlen = s.txlen := rfl
@[simp] theorem State.ancDone_txdesc (s : State) :
    (s.ancDone).txdesc = s.txdesc := rfl
@[simp] theorem State.ancDone_txdcnt (s : State) :
    (s.ancDone).txdcnt = s.txdcnt := rfl
@[simp] theorem State.ancDone_txerr (s : State) :
    (s.ancDone).txerr = s.txerr := rfl
@[simp] theorem State.ancDone_cmdPort (s : State) :
    (s.ancDone).cmdPort = s.cmdPort := rfl
@[simp] theorem State.ancDone_rx (s : State) :
    (s.ancDone).rx = s.rx := rfl
@[simp] theorem State.ancDone_rxEnd (s : State) :
    (s.ancDone).rxEnd = s.rxEnd := rfl
@[simp] theorem State.ancDone_anc (s : State) :
    (s.ancDone).anc = s.anc.tail := rfl
@[simp] theorem State.ancDone_strap (s : State) :
    (s.ancDone).strap = s.strap := rfl
@[simp] theorem State.ancDone_resetIn (s : State) :
    (s.ancDone).resetIn = s.resetIn := rfl
@[simp] theorem State.ancDone_out (s : State) :
    (s.ancDone).out = s.out := rfl
@[simp] theorem State.ancDone_agenda (s : State) :
    (s.ancDone).agenda = s.agenda := rfl
@[simp] theorem State.ancDone_draws (s : State) :
    (s.ancDone).draws = s.draws := rfl
@[simp] theorem State.ancDone_descMax (s : State) :
    (s.ancDone).descMax = s.descMax := rfl

/-! ### `clearEnvelope` -/

@[simp] theorem State.clearEnvelope_bo (s : State) :
    (s.clearEnvelope).bo = s.bo := rfl
@[simp] theorem State.clearEnvelope_mode (s : State) :
    (s.clearEnvelope).mode = s.mode := rfl
@[simp] theorem State.clearEnvelope_sender (s : State) :
    (s.clearEnvelope).sender = 0 := rfl
@[simp] theorem State.clearEnvelope_opcode (s : State) :
    (s.clearEnvelope).opcode = 0 := rfl
@[simp] theorem State.clearEnvelope_size (s : State) :
    (s.clearEnvelope).size = 0 := rfl
@[simp] theorem State.clearEnvelope_plen (s : State) :
    (s.clearEnvelope).plen = 0 := rfl
@[simp] theorem State.clearEnvelope_payload (s : State) :
    (s.clearEnvelope).payload = [] := rfl
@[simp] theorem State.clearEnvelope_cur (s : State) :
    (s.clearEnvelope).cur = 0 := rfl
@[simp] theorem State.clearEnvelope_desc (s : State) :
    (s.clearEnvelope).desc = [] := rfl
@[simp] theorem State.clearEnvelope_dcnt (s : State) :
    (s.clearEnvelope).dcnt = 0 := rfl
@[simp] theorem State.clearEnvelope_dcur (s : State) :
    (s.clearEnvelope).dcur = 0 := rfl
@[simp] theorem State.clearEnvelope_err (s : State) :
    (s.clearEnvelope).err = s.err := rfl
@[simp] theorem State.clearEnvelope_errinfo (s : State) :
    (s.clearEnvelope).errinfo = s.errinfo := rfl
@[simp] theorem State.clearEnvelope_leak (s : State) :
    (s.clearEnvelope).leak = s.leak := rfl
@[simp] theorem State.clearEnvelope_leakcnt (s : State) :
    (s.clearEnvelope).leakcnt = s.leakcnt := rfl
@[simp] theorem State.clearEnvelope_txmode (s : State) :
    (s.clearEnvelope).txmode = s.txmode := rfl
@[simp] theorem State.clearEnvelope_txsender (s : State) :
    (s.clearEnvelope).txsender = s.txsender := rfl
@[simp] theorem State.clearEnvelope_txopcode (s : State) :
    (s.clearEnvelope).txopcode = s.txopcode := rfl
@[simp] theorem State.clearEnvelope_txbuf (s : State) :
    (s.clearEnvelope).txbuf = s.txbuf := rfl
@[simp] theorem State.clearEnvelope_txlen (s : State) :
    (s.clearEnvelope).txlen = s.txlen := rfl
@[simp] theorem State.clearEnvelope_txdesc (s : State) :
    (s.clearEnvelope).txdesc = s.txdesc := rfl
@[simp] theorem State.clearEnvelope_txdcnt (s : State) :
    (s.clearEnvelope).txdcnt = s.txdcnt := rfl
@[simp] theorem State.clearEnvelope_txerr (s : State) :
    (s.clearEnvelope).txerr = s.txerr := rfl
@[simp] theorem State.clearEnvelope_cmdPort (s : State) :
    (s.clearEnvelope).cmdPort = s.cmdPort := rfl
@[simp] theorem State.clearEnvelope_rx (s : State) :
    (s.clearEnvelope).rx = s.rx := rfl
@[simp] theorem State.clearEnvelope_rxEnd (s : State) :
    (s.clearEnvelope).rxEnd = s.rxEnd := rfl
@[simp] theorem State.clearEnvelope_anc (s : State) :
    (s.clearEnvelope).anc = s.anc := rfl
@[simp] theorem State.clearEnvelope_strap (s : State) :
    (s.clearEnvelope).strap = s.strap := rfl
@[simp] theorem State.clearEnvelope_resetIn (s : State) :
    (s.clearEnvelope).resetIn = s.resetIn := rfl
@[simp] theorem State.clearEnvelope_out (s : State) :
    (s.clearEnvelope).out = s.out := rfl
@[simp] theorem State.clearEnvelope_agenda (s : State) :
    (s.clearEnvelope).agenda = s.agenda := rfl
@[simp] theorem State.clearEnvelope_draws (s : State) :
    (s.clearEnvelope).draws = s.draws := rfl
@[simp] theorem State.clearEnvelope_descMax (s : State) :
    (s.clearEnvelope).descMax = s.descMax := rfl

/-! ### `doDiscard` -/

@[simp] theorem State.doDiscard_bo (s : State) :
    (s.doDiscard).bo = s.bo := rfl
@[simp] theorem State.doDiscard_mode (s : State) :
    (s.doDiscard).mode = .idle := rfl
@[simp] theorem State.doDiscard_sender (s : State) :
    (s.doDiscard).sender = 0 := rfl
@[simp] theorem State.doDiscard_opcode (s : State) :
    (s.doDiscard).opcode = 0 := rfl
@[simp] theorem State.doDiscard_size (s : State) :
    (s.doDiscard).size = 0 := rfl
@[simp] theorem State.doDiscard_plen (s : State) :
    (s.doDiscard).plen = 0 := rfl
@[simp] theorem State.doDiscard_payload (s : State) :
    (s.doDiscard).payload = [] := rfl
@[simp] theorem State.doDiscard_cur (s : State) :
    (s.doDiscard).cur = 0 := rfl
@[simp] theorem State.doDiscard_desc (s : State) :
    (s.doDiscard).desc = [] := rfl
@[simp] theorem State.doDiscard_dcnt (s : State) :
    (s.doDiscard).dcnt = 0 := rfl
@[simp] theorem State.doDiscard_dcur (s : State) :
    (s.doDiscard).dcur = 0 := rfl
@[simp] theorem State.doDiscard_err (s : State) :
    (s.doDiscard).err = 0 := rfl
@[simp] theorem State.doDiscard_errinfo (s : State) :
    (s.doDiscard).errinfo = 0 := rfl
@[simp] theorem State.doDiscard_leak (s : State) :
    (s.doDiscard).leak = (s.leak || decide (0 < s.unconsumed)) := rfl
@[simp] theorem State.doDiscard_leakcnt (s : State) :
    (s.doDiscard).leakcnt = BitVec.ofNat 32 s.unconsumed := rfl
@[simp] theorem State.doDiscard_txmode (s : State) :
    (s.doDiscard).txmode = s.txmode := rfl
@[simp] theorem State.doDiscard_txsender (s : State) :
    (s.doDiscard).txsender = s.txsender := rfl
@[simp] theorem State.doDiscard_txopcode (s : State) :
    (s.doDiscard).txopcode = s.txopcode := rfl
@[simp] theorem State.doDiscard_txbuf (s : State) :
    (s.doDiscard).txbuf = s.txbuf := rfl
@[simp] theorem State.doDiscard_txlen (s : State) :
    (s.doDiscard).txlen = s.txlen := rfl
@[simp] theorem State.doDiscard_txdesc (s : State) :
    (s.doDiscard).txdesc = s.txdesc := rfl
@[simp] theorem State.doDiscard_txdcnt (s : State) :
    (s.doDiscard).txdcnt = s.txdcnt := rfl
@[simp] theorem State.doDiscard_txerr (s : State) :
    (s.doDiscard).txerr = s.txerr := rfl
@[simp] theorem State.doDiscard_cmdPort (s : State) :
    (s.doDiscard).cmdPort = s.cmdPort := rfl
@[simp] theorem State.doDiscard_rx (s : State) :
    (s.doDiscard).rx = s.rx := rfl
@[simp] theorem State.doDiscard_rxEnd (s : State) :
    (s.doDiscard).rxEnd = s.rxEnd := rfl
@[simp] theorem State.doDiscard_anc (s : State) :
    (s.doDiscard).anc = s.anc := rfl
@[simp] theorem State.doDiscard_strap (s : State) :
    (s.doDiscard).strap = s.strap := rfl
@[simp] theorem State.doDiscard_resetIn (s : State) :
    (s.doDiscard).resetIn = s.resetIn := rfl
@[simp] theorem State.doDiscard_out (s : State) :
    (s.doDiscard).out = s.out ++ ((s.desc.drop s.dcur.toNat).take s.unconsumed).map Output.close := rfl
@[simp] theorem State.doDiscard_agenda (s : State) :
    (s.doDiscard).agenda = s.agenda := rfl
@[simp] theorem State.doDiscard_draws (s : State) :
    (s.doDiscard).draws = s.draws := rfl
@[simp] theorem State.doDiscard_descMax (s : State) :
    (s.doDiscard).descMax = s.descMax := rfl

/-! ### `commitEnvelope` -/

@[simp] theorem State.commitEnvelope_bo (s : State) (w : Word) (z o : Half) (p : List Byte) (ds : List Handle) :
    (s.commitEnvelope w z o p ds).bo = s.bo := rfl
@[simp] theorem State.commitEnvelope_mode (s : State) (w : Word) (z o : Half) (p : List Byte) (ds : List Handle) :
    (s.commitEnvelope w z o p ds).mode = .ready := rfl
@[simp] theorem State.commitEnvelope_sender (s : State) (w : Word) (z o : Half) (p : List Byte) (ds : List Handle) :
    (s.commitEnvelope w z o p ds).sender = w := rfl
@[simp] theorem State.commitEnvelope_opcode (s : State) (w : Word) (z o : Half) (p : List Byte) (ds : List Handle) :
    (s.commitEnvelope w z o p ds).opcode = o := rfl
@[simp] theorem State.commitEnvelope_size (s : State) (w : Word) (z o : Half) (p : List Byte) (ds : List Handle) :
    (s.commitEnvelope w z o p ds).size = z := rfl
@[simp] theorem State.commitEnvelope_plen (s : State) (w : Word) (z o : Half) (p : List Byte) (ds : List Handle) :
    (s.commitEnvelope w z o p ds).plen = BitVec.ofNat 16 (z.toNat - Config.headerBytes) := rfl
@[simp] theorem State.commitEnvelope_payload (s : State) (w : Word) (z o : Half) (p : List Byte) (ds : List Handle) :
    (s.commitEnvelope w z o p ds).payload = p := rfl
@[simp] theorem State.commitEnvelope_cur (s : State) (w : Word) (z o : Half) (p : List Byte) (ds : List Handle) :
    (s.commitEnvelope w z o p ds).cur = 0 := rfl
@[simp] theorem State.commitEnvelope_desc (s : State) (w : Word) (z o : Half) (p : List Byte) (ds : List Handle) :
    (s.commitEnvelope w z o p ds).desc = ds := rfl
@[simp] theorem State.commitEnvelope_dcnt (s : State) (w : Word) (z o : Half) (p : List Byte) (ds : List Handle) :
    (s.commitEnvelope w z o p ds).dcnt = BitVec.ofNat 32 ds.length := rfl
@[simp] theorem State.commitEnvelope_dcur (s : State) (w : Word) (z o : Half) (p : List Byte) (ds : List Handle) :
    (s.commitEnvelope w z o p ds).dcur = 0 := rfl
@[simp] theorem State.commitEnvelope_err (s : State) (w : Word) (z o : Half) (p : List Byte) (ds : List Handle) :
    (s.commitEnvelope w z o p ds).err = s.err := rfl
@[simp] theorem State.commitEnvelope_errinfo (s : State) (w : Word) (z o : Half) (p : List Byte) (ds : List Handle) :
    (s.commitEnvelope w z o p ds).errinfo = s.errinfo := rfl
@[simp] theorem State.commitEnvelope_leak (s : State) (w : Word) (z o : Half) (p : List Byte) (ds : List Handle) :
    (s.commitEnvelope w z o p ds).leak = s.leak := rfl
@[simp] theorem State.commitEnvelope_leakcnt (s : State) (w : Word) (z o : Half) (p : List Byte) (ds : List Handle) :
    (s.commitEnvelope w z o p ds).leakcnt = s.leakcnt := rfl
@[simp] theorem State.commitEnvelope_txmode (s : State) (w : Word) (z o : Half) (p : List Byte) (ds : List Handle) :
    (s.commitEnvelope w z o p ds).txmode = s.txmode := rfl
@[simp] theorem State.commitEnvelope_txsender (s : State) (w : Word) (z o : Half) (p : List Byte) (ds : List Handle) :
    (s.commitEnvelope w z o p ds).txsender = s.txsender := rfl
@[simp] theorem State.commitEnvelope_txopcode (s : State) (w : Word) (z o : Half) (p : List Byte) (ds : List Handle) :
    (s.commitEnvelope w z o p ds).txopcode = s.txopcode := rfl
@[simp] theorem State.commitEnvelope_txbuf (s : State) (w : Word) (z o : Half) (p : List Byte) (ds : List Handle) :
    (s.commitEnvelope w z o p ds).txbuf = s.txbuf := rfl
@[simp] theorem State.commitEnvelope_txlen (s : State) (w : Word) (z o : Half) (p : List Byte) (ds : List Handle) :
    (s.commitEnvelope w z o p ds).txlen = s.txlen := rfl
@[simp] theorem State.commitEnvelope_txdesc (s : State) (w : Word) (z o : Half) (p : List Byte) (ds : List Handle) :
    (s.commitEnvelope w z o p ds).txdesc = s.txdesc := rfl
@[simp] theorem State.commitEnvelope_txdcnt (s : State) (w : Word) (z o : Half) (p : List Byte) (ds : List Handle) :
    (s.commitEnvelope w z o p ds).txdcnt = s.txdcnt := rfl
@[simp] theorem State.commitEnvelope_txerr (s : State) (w : Word) (z o : Half) (p : List Byte) (ds : List Handle) :
    (s.commitEnvelope w z o p ds).txerr = s.txerr := rfl
@[simp] theorem State.commitEnvelope_cmdPort (s : State) (w : Word) (z o : Half) (p : List Byte) (ds : List Handle) :
    (s.commitEnvelope w z o p ds).cmdPort = s.cmdPort := rfl
@[simp] theorem State.commitEnvelope_rx (s : State) (w : Word) (z o : Half) (p : List Byte) (ds : List Handle) :
    (s.commitEnvelope w z o p ds).rx = s.rx := rfl
@[simp] theorem State.commitEnvelope_rxEnd (s : State) (w : Word) (z o : Half) (p : List Byte) (ds : List Handle) :
    (s.commitEnvelope w z o p ds).rxEnd = s.rxEnd := rfl
@[simp] theorem State.commitEnvelope_anc (s : State) (w : Word) (z o : Half) (p : List Byte) (ds : List Handle) :
    (s.commitEnvelope w z o p ds).anc = s.anc := rfl
@[simp] theorem State.commitEnvelope_strap (s : State) (w : Word) (z o : Half) (p : List Byte) (ds : List Handle) :
    (s.commitEnvelope w z o p ds).strap = s.strap := rfl
@[simp] theorem State.commitEnvelope_resetIn (s : State) (w : Word) (z o : Half) (p : List Byte) (ds : List Handle) :
    (s.commitEnvelope w z o p ds).resetIn = s.resetIn := rfl
@[simp] theorem State.commitEnvelope_out (s : State) (w : Word) (z o : Half) (p : List Byte) (ds : List Handle) :
    (s.commitEnvelope w z o p ds).out = s.out := rfl
@[simp] theorem State.commitEnvelope_agenda (s : State) (w : Word) (z o : Half) (p : List Byte) (ds : List Handle) :
    (s.commitEnvelope w z o p ds).agenda = s.agenda := rfl
@[simp] theorem State.commitEnvelope_draws (s : State) (w : Word) (z o : Half) (p : List Byte) (ds : List Handle) :
    (s.commitEnvelope w z o p ds).draws = s.draws := rfl
@[simp] theorem State.commitEnvelope_descMax (s : State) (w : Word) (z o : Half) (p : List Byte) (ds : List Handle) :
    (s.commitEnvelope w z o p ds).descMax = s.descMax := rfl

/-! ### `applyReset` -/

@[simp] theorem State.applyReset_bo (s : State) :
    (s.applyReset).bo = s.strap := rfl
@[simp] theorem State.applyReset_mode (s : State) :
    (s.applyReset).mode = .idle := rfl
@[simp] theorem State.applyReset_sender (s : State) :
    (s.applyReset).sender = 0 := rfl
@[simp] theorem State.applyReset_opcode (s : State) :
    (s.applyReset).opcode = 0 := rfl
@[simp] theorem State.applyReset_size (s : State) :
    (s.applyReset).size = 0 := rfl
@[simp] theorem State.applyReset_plen (s : State) :
    (s.applyReset).plen = 0 := rfl
@[simp] theorem State.applyReset_payload (s : State) :
    (s.applyReset).payload = [] := rfl
@[simp] theorem State.applyReset_cur (s : State) :
    (s.applyReset).cur = 0 := rfl
@[simp] theorem State.applyReset_desc (s : State) :
    (s.applyReset).desc = [] := rfl
@[simp] theorem State.applyReset_dcnt (s : State) :
    (s.applyReset).dcnt = 0 := rfl
@[simp] theorem State.applyReset_dcur (s : State) :
    (s.applyReset).dcur = 0 := rfl
@[simp] theorem State.applyReset_err (s : State) :
    (s.applyReset).err = 0 := rfl
@[simp] theorem State.applyReset_errinfo (s : State) :
    (s.applyReset).errinfo = 0 := rfl
@[simp] theorem State.applyReset_leak (s : State) :
    (s.applyReset).leak = false := rfl
@[simp] theorem State.applyReset_leakcnt (s : State) :
    (s.applyReset).leakcnt = 0 := rfl
@[simp] theorem State.applyReset_txmode (s : State) :
    (s.applyReset).txmode = .txIdle := rfl
@[simp] theorem State.applyReset_txsender (s : State) :
    (s.applyReset).txsender = 0 := rfl
@[simp] theorem State.applyReset_txopcode (s : State) :
    (s.applyReset).txopcode = 0 := rfl
@[simp] theorem State.applyReset_txbuf (s : State) :
    (s.applyReset).txbuf = [] := rfl
@[simp] theorem State.applyReset_txlen (s : State) :
    (s.applyReset).txlen = 0 := rfl
@[simp] theorem State.applyReset_txdesc (s : State) :
    (s.applyReset).txdesc = [] := rfl
@[simp] theorem State.applyReset_txdcnt (s : State) :
    (s.applyReset).txdcnt = 0 := rfl
@[simp] theorem State.applyReset_txerr (s : State) :
    (s.applyReset).txerr = 0 := rfl
@[simp] theorem State.applyReset_cmdPort (s : State) :
    (s.applyReset).cmdPort = if s.frameHolds then s.cmdPort.tail else s.cmdPort := rfl
@[simp] theorem State.applyReset_rx (s : State) :
    (s.applyReset).rx = s.rx := rfl
@[simp] theorem State.applyReset_rxEnd (s : State) :
    (s.applyReset).rxEnd = s.rxEnd := rfl
@[simp] theorem State.applyReset_anc (s : State) :
    (s.applyReset).anc = s.anc := rfl
@[simp] theorem State.applyReset_strap (s : State) :
    (s.applyReset).strap = s.strap := rfl
@[simp] theorem State.applyReset_resetIn (s : State) :
    (s.applyReset).resetIn = false := rfl
@[simp] theorem State.applyReset_out (s : State) :
    (s.applyReset).out = s.out := rfl
@[simp] theorem State.applyReset_agenda (s : State) :
    (s.applyReset).agenda = s.agenda := rfl
@[simp] theorem State.applyReset_draws (s : State) :
    (s.applyReset).draws = s.draws := rfl
@[simp] theorem State.applyReset_descMax (s : State) :
    (s.applyReset).descMax = s.descMax := rfl

end Sys2Proof.Machine
end

