-- ==== Sys2Proof/Laws/Ops.lean ====
section
/-! SUPPORT. What each shared operation can do, said once: the statements cite these instead of unfolding. -/

namespace Sys2Proof.Machine

/-! ### Buffers and ports -/

/-- `MemRead` answers exactly the bytes of a range that lies within `PLEN` and the buffer. -/
theorem memRead_eq_some {s : State} {a n : Nat} {b : List Byte} :
    s.memRead a n = some b ↔
      a + n ≤ s.plen.toNat ∧ a + n ≤ s.payload.length ∧ b = (s.payload.drop a).take n := by
  unfold State.memRead
  split
  · rename_i h; simp [h.1, h.2, eq_comm]
  · rename_i h
    constructor
    · intro h'; cases h'
    · rintro ⟨h1, h2, -⟩; exact absurd ⟨h1, h2⟩ h

theorem memRead_length {s : State} {a n : Nat} {b : List Byte} (h : s.memRead a n = some b) :
    b.length = n := by
  obtain ⟨-, h2, rfl⟩ := memRead_eq_some.mp h
  simp; omega

/-- `MemRead` has no answer exactly when the range passes `PLEN` or the buffer. -/
theorem memRead_eq_none {s : State} {a n : Nat} :
    s.memRead a n = none ↔ s.plen.toNat < a + n ∨ s.payload.length < a + n := by
  unfold State.memRead
  split <;> simp <;> omega

/-- At its end `MemWrite` appends. -/
theorem memWrite_append {s : State} {v : List Byte} (h : s.txbuf.length = s.txlen.toNat) :
    s.memWrite s.txlen.toNat v = { s with txbuf := s.txbuf ++ v } := by
  simp [State.memWrite, ← h]

theorem descAt_eq_some {s : State} {d : Nat} {h : Handle} :
    s.descAt d = some h ↔ d < s.dcnt.toNat ∧ s.desc[d]? = some h := by
  unfold State.descAt
  split <;> simp_all

/-- `RxRead` answers a full read and leaves the rest of the stream. -/
theorem rxRead_append (b rest : List Byte) (ended : Bool) : rxRead b.length (b ++ rest) ended = .ok b rest := by
  simp [rxRead]

/-- The three answers of `RxRead`. -/
theorem rxRead_cases (n : Nat) (rx : List Byte) (ended : Bool) :
    (n ≤ rx.length ∧ rxRead n rx ended = .ok (rx.take n) (rx.drop n)) ∨
    (rx.length < n ∧ ended = true ∧ rxRead n rx ended = .short rx.length []) ∨
    (rx.length < n ∧ ended = false ∧ rxRead n rx ended = .wait) := by
  unfold rxRead
  by_cases h : n ≤ rx.length
  · simp [h]
  · cases ended <;> simp [h] <;> omega

/-- FRAME never collects more handles than the list can hold (93_implementation_defined.md U7). -/
theorem scanRecords_handles_length {max : Nat} :
    ∀ {rs : List AncRecord} {j : Nat} {ds ds' : List Handle}, ds.length ≤ max →
      scanRecords max rs j ds = .handles ds' → ds'.length ≤ max
  | [], _, _, _, hl, h => by
    simp only [scanRecords, AncScan.handles.injEq] at h
    exact h ▸ hl
  | .rights hs :: rs, j, ds, ds', hl, h => by
    simp only [scanRecords] at h
    split at h
    · cases h
    · rename_i hn
      exact scanRecords_handles_length (Nat.not_lt.mp hn) h
  | .notRights :: rs, j, ds, ds', hl, h => scanRecords_handles_length (rs := rs) (j := j + 1) hl h
  | .bad :: _, _, _, _, _, h => by simp [scanRecords] at h

/-! ### Discard -/

@[simp] theorem State.loaded_iff (s : State) :
    s.loaded = true ↔ s.mode = .ready ∨ s.mode = .decodeFault := by
  simp [State.loaded]

theorem State.discardLoaded_of_loaded {s : State} (h : s.loaded = true) : s.discardLoaded = s.doDiscard := by
  simp [State.discardLoaded, h]

theorem State.discardLoaded_of_not_loaded {s : State} (h : s.loaded = false) : s.discardLoaded = s := by
  simp [State.discardLoaded, h]

/-- After the implicit discard no envelope is loaded. -/
theorem State.discardLoaded_mode (s : State) :
    s.discardLoaded.mode = if s.loaded then .idle else s.mode := by
  unfold State.discardLoaded; split <;> rfl

/-! ### The entry into a failure (60_exceptions.md R250 to R255) -/

theorem State.raise_refusal {s : State} {e : Status} (h : e.cls = .refusal) (info : Word) :
    s.raise e info = s.respond e [] := by
  simp [State.raise, h]

theorem State.raise_decode {s : State} {e : Status} (h : e.cls = .decode) (info : Word) :
    s.raise e info =
      { s with mode := .decodeFault, err := e.code, errinfo := info }.respond e [] := by
  simp [State.raise, h]

theorem State.raise_fatal {s : State} {e : Status} (h : e.cls = .transport ∨ e.cls = .framing) (info : Word) :
    s.raise e info = { s with mode := .dead, err := e.code, errinfo := info }.respond e [] := by
  rcases h with h | h <;> simp [State.raise, h]

theorem State.raise_typeContract (s : State) (info : Word) :
    s.raise .typeContract info =
      { s.discardLoaded with mode := .dead, err := 0x40, errinfo := info }.respond .typeContract [] := rfl

theorem State.raise_encOverflow (s : State) (info : Word) :
    s.raise .encOverflow info = { s with txmode := .txFault, txerr := 0x50 }.respond .encOverflow [] := rfl

/-! ### The order of checks (60_exceptions.md R248) -/

/-- What a command whose word, operands and type have passed comes to. -/
theorem State.checked_cases (s : State) (legal : Bool) (body : State → State) :
    (s.mode ≠ .dead ∧ legal = true ∧ s.checked legal body = body s) ∨
    ((s.mode = .dead ∨ legal = false) ∧ s.checked legal body = s.respond .badMode []) := by
  unfold State.checked
  by_cases hm : s.mode = .dead
  · exact .inr ⟨.inl hm, by simp [hm, State.raise, Status.cls]⟩
  · cases legal
    · exact .inr ⟨.inr rfl, by simp [hm, State.raise, Status.cls]⟩
    · exact .inl ⟨hm, rfl, by simp [hm]⟩

theorem State.unsupported_cases (s : State) (w : Word) :
    (s.mode = .dead ∧ s.unsupported w = s.respond .badMode []) ∨
    (s.mode ≠ .dead ∧ s.unsupported w =
      { s.discardLoaded with mode := .dead, err := 0x40, errinfo := w }.respond .typeContract []) := by
  unfold State.unsupported
  by_cases hm : s.mode = .dead
  · exact .inl ⟨hm, by simp [hm, State.raise, Status.cls]⟩
  · exact .inr ⟨hm, by simp [hm, State.raise_typeContract]⟩

theorem State.reject_cases (s : State) (r : Reject) :
    ((∀ w, r ≠ .unsupportedType w) ∧ s.reject r = s.respond .badCmd []) ∨
    (∃ w, r = .unsupportedType w ∧ s.reject r = s.unsupported w) := by
  cases r <;> simp [State.reject, State.raise, Status.cls]

/-! ### The outside world -/

/-- A move of the outside world changes no register or buffer of the block and puts out nothing. -/
theorem State.await_frame (s : State) :
    s.await.bo = s.bo ∧ s.await.mode = s.mode ∧ s.await.sender = s.sender ∧ s.await.opcode = s.opcode ∧
    s.await.size = s.size ∧ s.await.plen = s.plen ∧ s.await.payload = s.payload ∧ s.await.cur = s.cur ∧
    s.await.desc = s.desc ∧ s.await.dcnt = s.dcnt ∧ s.await.dcur = s.dcur ∧ s.await.err = s.err ∧
    s.await.errinfo = s.errinfo ∧ s.await.leak = s.leak ∧ s.await.leakcnt = s.leakcnt ∧
    s.await.txmode = s.txmode ∧ s.await.txsender = s.txsender ∧ s.await.txopcode = s.txopcode ∧
    s.await.txbuf = s.txbuf ∧ s.await.txlen = s.txlen ∧ s.await.txdesc = s.txdesc ∧
    s.await.txdcnt = s.txdcnt ∧ s.await.txerr = s.txerr ∧ s.await.out = s.out ∧
    s.await.draws = s.draws ∧ s.await.descMax = s.descMax := by
  unfold State.await
  split
  · simp
  · rename_i e es _
    cases e <;> simp only [State.occur] <;> first | (split <;> simp) | simp

theorem State.await_nil {s : State} (h : s.agenda = []) : s.await = s := by
  simp [State.await, h]

/-- An event at the head of the agenda happens. -/
theorem State.await_cons {s : State} {e : Event} {es : List Event} (h : s.agenda = e :: es) :
    s.await = { s with agenda := es }.occur e := by
  simp [State.await, h]

end Sys2Proof.Machine
end

