-- ==== Sys2Proof/Laws/Codec.lean ====
section
/-! SUPPORT. What the decoding function and the two codec wrappers can do (42_decode.md R170 to R182; 43_encode.md
R200, R211). -/

namespace Sys2Proof.Machine

/-! ### Reads of the decoding function -/

/-- `dec_u32` reads the four bytes at the cursor when they lie within the payload. -/
theorem decU32_ok {s : State} {c c' : Nat} {v : Word} :
    decU32 s c = .ok (v, c') ↔ ∃ b, s.memRead c 4 = some b ∧ v = u32 s.bo b ∧ c' = c + 4 := by
  unfold decU32
  cases s.memRead c 4 <;> simp [eq_comm]

/-- `dec_u32` fails with `E_PAYLOAD_UNDERRUN` only. -/
theorem decU32_error {s : State} {c : Nat} {e : Status} :
    decU32 s c = .error e ↔ s.memRead c 4 = none ∧ e = .payloadUnderrun := by
  unfold decU32
  cases s.memRead c 4 <;> simp [eq_comm]

theorem decScalar_ok {s : State} {c d c' d' : Nat} {v : Word} :
    decScalar s c d = .ok (v, c', d') ↔ decU32 s c = .ok (v, c') ∧ d' = d := by
  unfold decScalar
  rcases decU32 s c with e | ⟨w, c1⟩ <;> simp [eq_comm, and_assoc]

/-- What a decoded string is: the prefix L, a body of L bytes with its padding whose byte L-1 is zero. -/
theorem decStringAt_ok {s : State} {c d c' d' : Nat} {bs : List Byte} :
    decStringAt s c d = .ok (bs, c', d') ↔
      ∃ l body, decU32 s c = .ok (l, c + 4) ∧ l ≠ 0 ∧
        s.memRead (c + 4) (l.toNat + pad l.toNat) = some body ∧ body[l.toNat - 1]? = some 0x00 ∧
        bs = body.take (l.toNat - 1) ∧ c' = c + 4 + (l.toNat + pad l.toNat) ∧ d' = d := by
  unfold decStringAt
  cases hu : decU32 s c with
  | error e => simp
  | ok r =>
    obtain ⟨l, c1⟩ := r
    obtain ⟨b, hb, hv, rfl⟩ := decU32_ok.mp hu
    simp only [Except.ok.injEq, Prod.mk.injEq, and_true, exists_and_left, exists_eq_left']
    split_ifs with hl
    · simp [hl]
    · cases s.memRead (c + 4) (l.toNat + pad l.toNat) with
      | none => simp
      | some body =>
        simp only [Option.some.injEq, exists_eq_left', ne_eq, hl, not_false_eq_true, true_and]
        split_ifs with ht
        · simp only [Except.ok.injEq, Prod.mk.injEq, ht, true_and, eq_comm]
        · simp only [false_iff]
          rintro ⟨h, -⟩
          exact ht h

/-- What a decoded array is: the prefix L, and the first L bytes of a body with its padding. -/
theorem decArrayAt_ok {s : State} {c d c' d' : Nat} {bs : List Byte} :
    decArrayAt s c d = .ok (bs, c', d') ↔
      ∃ l body, decU32 s c = .ok (l, c + 4) ∧
        s.memRead (c + 4) (l.toNat + pad l.toNat) = some body ∧
        bs = body.take l.toNat ∧ c' = c + 4 + (l.toNat + pad l.toNat) ∧ d' = d := by
  unfold decArrayAt
  cases hu : decU32 s c with
  | error e => simp
  | ok r =>
    obtain ⟨l, c1⟩ := r
    obtain ⟨b, hb, hv, rfl⟩ := decU32_ok.mp hu
    cases hm : s.memRead (c + 4) (l.toNat + pad l.toNat) with
    | none => simp [hm]
    | some body => simp [hm, eq_comm]

/-- What a decoded pair is: a string, then a word where the string ended. -/
theorem decNewidAt_ok {s : State} {c d c' d' : Nat} {name : List Byte} {ver : Word} :
    decNewidAt s c d = .ok ((name, ver), c', d') ↔
      ∃ c1, decStringAt s c d = .ok (name, c1, d') ∧ decU32 s c1 = .ok (ver, c') := by
  unfold decNewidAt
  cases hs : decStringAt s c d with
  | error e => simp
  | ok r =>
    obtain ⟨nm, c1, d1⟩ := r
    cases hu : decU32 s c1 with
    | error e => simp_all
    | ok q => obtain ⟨w, c2⟩ := q; simp [hu]; grind

theorem decFdAt_ok {s : State} {c d c' d' : Nat} {h : Handle} :
    decFdAt s c d = .ok (h, c', d') ↔ s.descAt d = some h ∧ c' = c ∧ d' = d + 1 := by
  unfold decFdAt
  cases s.descAt d <;> simp [eq_comm]

/-- A sequence is its count, then its elements. -/
theorem dec_seq_ok {s : State} {t : Ty} {c d c' d' : Nat} {vs : List t.Val} :
    dec s (.seq t) c d = .ok (vs, c', d') ↔
      ∃ n, decU32 s c = .ok (n, c + 4) ∧ decMany (dec s t) n.toNat (c + 4) d = .ok (vs, c', d') := by
  rw [dec]
  cases hu : decU32 s c with
  | error e => simp
  | ok r =>
    obtain ⟨l, c1⟩ := r
    obtain ⟨b, hb, hv, rfl⟩ := decU32_ok.mp hu
    simp

/-- `repeat N times` decodes N elements. -/
theorem decMany_length {α : Type} {f : Nat → Nat → DecResult α} :
    ∀ {n c d c' d' : Nat} {vs : List α}, decMany f n c d = .ok (vs, c', d') → vs.length = n
  | 0, _, _, _, _, _, h => by
    simp only [decMany, Except.ok.injEq, Prod.mk.injEq] at h
    simp [← h.1]
  | n + 1, c, d, c', d', vs, h => by
    simp only [decMany] at h
    split at h
    · cases h
    · split at h
      · cases h
      · rename_i hm
        simp only [Except.ok.injEq, Prod.mk.injEq] at h
        simp [← h.1, decMany_length hm]

/-- A relation between the cursors before and after that every element keeps, and that chains, holds of the
whole repetition: the one induction over the elements of a sequence. -/
theorem decMany_chain {α : Type} {f : Nat → Nat → DecResult α} (P : Nat → Nat → Nat → Nat → Nat → Prop)
    (h0 : ∀ c d, P 0 c d c d)
    (hs : ∀ n c d c1 d1 c2 d2 v, f c d = .ok (v, c1, d1) → P n c1 d1 c2 d2 → P (n + 1) c d c2 d2) :
    ∀ {n c d c' d' : Nat} {vs : List α}, decMany f n c d = .ok (vs, c', d') → P n c d c' d'
  | 0, c, d, _, _, _, h => by
    simp only [decMany, Except.ok.injEq, Prod.mk.injEq] at h
    obtain ⟨-, rfl, rfl⟩ := h
    exact h0 c d
  | n + 1, c, d, c', d', vs, h => by
    simp only [decMany] at h
    split at h
    · cases h
    · rename_i v c1 d1 hf
      split at h
      · cases h
      · rename_i vs2 c2 d2 hm
        simp only [Except.ok.injEq, Prod.mk.injEq] at h
        obtain ⟨-, rfl, rfl⟩ := h
        exact hs n c d c1 d1 _ _ v hf (decMany_chain P h0 hs hm)

/-- A repetition fails only as one of its elements does. -/
theorem decMany_error {α : Type} {f : Nat → Nat → DecResult α} :
    ∀ {n c d : Nat} {e : Status}, decMany f n c d = .error e → ∃ c1 d1, f c1 d1 = .error e
  | 0, _, _, _, h => by simp [decMany] at h
  | n + 1, c, d, e, h => by
    simp only [decMany] at h
    split at h
    · rename_i e' hf
      obtain rfl := Except.error.inj h
      exact ⟨c, d, hf⟩
    · split at h
      · rename_i hm
        obtain rfl := Except.error.inj h
        exact decMany_error hm
      · cases h

/-- Whatever `dec` fails with is a Decode failure (42_decode.md R170). -/
theorem dec_error_cls {s : State} : ∀ {t : Ty} {c d : Nat} {e : Status}, dec s t c d = .error e → e.cls = .decode := by
  have hu : ∀ {c : Nat} {e : Status}, decU32 s c = .error e → e.cls = .decode := fun h => by
    rw [(decU32_error.mp h).2]; rfl
  have hscalar : ∀ {c d : Nat} {e : Status}, decScalar s c d = .error e → e.cls = .decode := fun h => by
    unfold decScalar at h
    split at h
    · rename_i e' h'; obtain rfl := Except.error.inj h; exact hu h'
    · cases h
  have hstring : ∀ {c d : Nat} {e : Status}, decStringAt s c d = .error e → e.cls = .decode := fun h => by
    unfold decStringAt at h
    split at h
    · rename_i e' h'; obtain rfl := Except.error.inj h; exact hu h'
    · split at h
      · obtain rfl := Except.error.inj h; rfl
      · simp only at h
        split at h
        · obtain rfl := Except.error.inj h; rfl
        · split at h
          · cases h
          · obtain rfl := Except.error.inj h; rfl
  intro t
  induction t with
  | int => exact hscalar
  | uint => exact hscalar
  | fixed => exact hscalar
  | string => exact hstring
  | array =>
    intro c d e h
    simp only [dec] at h
    unfold decArrayAt at h
    split at h
    · rename_i e' h'; obtain rfl := Except.error.inj h; exact hu h'
    · simp only at h
      split at h
      · obtain rfl := Except.error.inj h; rfl
      · cases h
  | newid =>
    intro c d e h
    simp only [dec] at h
    unfold decNewidAt at h
    split at h
    · rename_i e' h'; obtain rfl := Except.error.inj h; exact hstring h'
    · split at h
      · rename_i e' h'; obtain rfl := Except.error.inj h; exact hu h'
      · cases h
  | fd =>
    intro c d e h
    simp only [dec, decFdAt] at h
    split at h
    · obtain rfl := Except.error.inj h; rfl
    · cases h
  | seq t ih =>
    intro c d e h
    simp only [dec] at h
    split at h
    · rename_i e' h'; obtain rfl := Except.error.inj h; exact hu h'
    · obtain ⟨c1, d1, h1⟩ := decMany_error h
      exact ih h1

/-! ### The wrappers -/

/-- A DEC command commits both cursors and answers the items, or enters `DECODE_FAULT` with nothing committed. -/
theorem State.decodeArg_cases (t : Ty) (s : State) :
    (∃ v c d, dec s t s.cur.toNat s.dcur.toNat = .ok (v, c, d) ∧
      s.decodeArg t =
        { s with cur := BitVec.ofNat 16 c, dcur := BitVec.ofNat 32 d }.respond .ok (items t v)) ∨
    (∃ e, dec s t s.cur.toNat s.dcur.toNat = .error e ∧ e.cls = .decode ∧
      s.decodeArg t =
        { s with mode := .decodeFault, err := e.code, errinfo := s.cur.zeroExtend 32 }.respond e []) := by
  unfold State.decodeArg
  cases h : dec s t s.cur.toNat s.dcur.toNat with
  | error e => exact .inr ⟨e, rfl, dec_error_cls h, State.raise_decode (dec_error_cls h) _⟩
  | ok r => obtain ⟨v, c, d⟩ := r; exact .inl ⟨v, c, d, rfl, rfl⟩

/-- An ENC value command appends its bytes and handles, or enters `TX_FAULT` with nothing appended. -/
theorem State.encodeArg_cases (t : Ty) (v : t.Val) (s : State) :
    (s.txlen.toNat + (enc s.bo t v).1.length ≤ Config.payloadMax ∧
      s.encodeArg t v =
        { s.memWrite s.txlen.toNat (enc s.bo t v).1 with
          txlen := BitVec.ofNat 16 (s.txlen.toNat + (enc s.bo t v).1.length)
          txdesc := s.txdesc ++ (enc s.bo t v).2
          txdcnt := s.txdcnt + BitVec.ofNat 32 (enc s.bo t v).2.length }.respond .ok []) ∨
    (Config.payloadMax < s.txlen.toNat + (enc s.bo t v).1.length ∧
      s.encodeArg t v = { s with txmode := .txFault, txerr := 0x50 }.respond .encOverflow []) := by
  unfold State.encodeArg
  by_cases h : s.txlen.toNat + (enc s.bo t v).1.length > Config.payloadMax
  · exact .inr ⟨h, by simp [h, State.raise_encOverflow]⟩
  · exact .inl ⟨Nat.not_lt.mp h, by simp [h]⟩

end Sys2Proof.Machine
end

