-- ==== Sys2Proof/Laws/Decode.lean ====
section
/-! SUPPORT. The fields of a command word (30_encoding.md R105). -/

namespace Sys2Proof

variable (op : Byte) (base depth : BitVec 4) (imm : Half)

@[simp] theorem opField_commandWord : opField (commandWord op base depth imm) = op := by
  ext i hi
  have h : i < 32 := by omega
  simp [opField, commandWord, BitVec.getLsbD_eq_getElem, hi, h]
  omega

@[simp] theorem baseField_commandWord : baseField (commandWord op base depth imm) = base := by
  ext i hi
  have h : 8 + i < 32 := by omega
  simp [baseField, commandWord, h, hi]
  omega

@[simp] theorem depthField_commandWord : depthField (commandWord op base depth imm) = depth := by
  ext i hi
  have h : 12 + i < 32 := by omega
  simp [depthField, commandWord, h, hi]
  grind

@[simp] theorem immField_commandWord : immField (commandWord op base depth imm) = imm := by
  ext i hi
  have h : 16 + i < 32 := by omega
  simp [immField, commandWord, h, hi]
  grind

/-- A command word is its four fields. -/
theorem commandWord_fields (w : Word) :
    commandWord (opField w) (baseField w) (depthField w) (immField w) = w := by
  ext i hi
  simp [commandWord, opField, baseField, depthField, immField, hi]
  grind

end Sys2Proof
end

