-- ==== Sys2Proof/Laws/Framer.lean ====
section
/-! SUPPORT. What FRAME can do (40_framer.md R130 to R137). -/

namespace Sys2Proof.Machine

/-- A read of FRAME that fails, fails with a Transport or a Framing failure (60_exceptions.md R241). -/
theorem readFrame_fails_cls {bo : ByteOrder} {rx rest : List Byte} {ended : Bool} {e : Status} {info : Word}
    (h : readFrame bo rx ended = .fails e info rest) :
    e = .hdrRead ∨ e = .badSize ∨ e = .shortPayload := by
  unfold readFrame at h
  split at h
  · cases h
  · injection h with h1; exact .inl h1.symm
  · split at h
    · cases h
    · injection h with h1; exact .inl h1.symm
    · simp only at h
      split at h
      · injection h with h1; exact .inr (.inl h1.symm)
      · split at h
        · cases h
        · injection h with h1; exact .inr (.inr h1.symm)
        · cases h

/-- A message that FRAME reads has a size of at least 8 and a payload of `size - 8` bytes (10_state.md R29). -/
theorem readFrame_done {bo : ByteOrder} {rx rest p : List Byte} {ended : Bool} {w : Word} {z o : Half}
    (h : readFrame bo rx ended = .done w z o p rest) : 8 ≤ z.toNat ∧ p.length = z.toNat - 8 := by
  unfold readFrame at h
  split at h
  · cases h
  · cases h
  · split at h
    · cases h
    · cases h
    · simp only at h
      split at h
      · cases h
      · rename_i hz
        split at h
        · cases h
        · cases h
        · rename_i rp rx3 hr
          injection h with _ h2 _ h4 _
          subst h2 h4
          simp only [Config.headerBytes] at hz hr
          refine ⟨Nat.not_lt.mp hz, ?_⟩
          rcases rxRead_cases _ _ _ with ⟨hl, hx⟩ | ⟨-, -, hx⟩ | ⟨-, -, hx⟩ <;> rw [hx] at hr
          · injection hr with h1 _; rw [← h1, List.length_take]; omega
          · cases hr
          · cases hr

/-- What FRAME reads after the 8 bytes of a header (40_framer.md R130, steps 2 and 3). -/
theorem readFrame_header {bo : ByteOrder} {r0 r1 : List Byte} (h0 : r0.length = 4) (h1 : r1.length = 4)
    (rest : List Byte) (ended : Bool) :
    readFrame bo (r0 ++ r1 ++ rest) ended =
      if ((u32 bo r1).extractLsb' 16 16).toNat < 8 then .fails .badSize (u32 bo r1) rest
      else
        match rxRead (((u32 bo r1).extractLsb' 16 16).toNat - 8) rest ended with
        | .wait => .holds
        | .short k left => .fails .shortPayload (BitVec.ofNat 32 k) left
        | .ok rp left =>
          .done (u32 bo r0) ((u32 bo r1).extractLsb' 16 16) ((u32 bo r1).extractLsb' 0 16) rp left := by
  have rx4 : ∀ (r more : List Byte), r.length = 4 → rxRead 4 (r ++ more) ended = .ok r more :=
    fun r more h => by simpa [h] using rxRead_append r more ended
  have e0 : (r0 ++ r1).take 4 = r0 := by rw [← h0]; simp
  have e1 : (r0 ++ r1).drop 4 = r1 := by rw [← h0]; simp
  simp only [readFrame, List.append_assoc, rx4 _ _ h0, rx4 _ _ h1, parseHeader, Config.headerBytes, e0, e1]
  all_goals (split <;> rfl)

/-- Records without a bad one, whose handles the list can hold, are gone through and add their handles in order
(40_framer.md R135). -/
theorem scanRecords_append {max : Nat} {rest : List AncRecord} :
    ∀ {rs : List AncRecord} {j : Nat} {ds : List Handle}, (∀ r ∈ rs, r ≠ .bad) →
      (ds ++ Safety.rightsHandles rs).length ≤ max →
      scanRecords max (rs ++ rest) j ds = scanRecords max rest (j + rs.length) (ds ++ Safety.rightsHandles rs)
  | [], _, _, _, _ => by simp [Safety.rightsHandles]
  | .rights hs :: rs, j, ds, h1, h2 => by
    simp only [Safety.rightsHandles] at h2
    have h := scanRecords_append (rest := rest) (rs := rs) (j := j + 1) (ds := ds ++ hs)
      (fun r hr => h1 r (List.mem_cons_of_mem _ hr)) (by simpa using h2)
    rw [List.cons_append, scanRecords, if_neg (by simp at *; omega), h]
    simp [Safety.rightsHandles, Nat.add_right_comm _ 1, ← Nat.add_assoc]
  | .notRights :: rs, j, ds, h1, h2 => by
    have h := scanRecords_append (rest := rest) (rs := rs) (j := j + 1) (ds := ds)
      (fun r hr => h1 r (List.mem_cons_of_mem _ hr)) h2
    rw [List.cons_append, scanRecords, h]
    simp [Safety.rightsHandles, Nat.add_right_comm _ 1, ← Nat.add_assoc]
  | .bad :: _, _, _, h1, _ => absurd rfl (h1 _ List.mem_cons_self)

/-- A scan that ends in a fatal record has collected handles of the records before the first bad one only
(40_framer.md R135). -/
theorem scanRecords_fatal_mem {max : Nat} :
    ∀ {rs : List AncRecord} {j k : Nat} {ds ds' : List Handle}, scanRecords max rs j ds = .fatal k ds' →
      ∀ h ∈ ds', h ∈ ds ∨ h ∈ Safety.rightsHandles (rs.takeWhile (· != .bad))
  | [], _, _, _, _, he => by simp [scanRecords] at he
  | .rights hs :: rs, j, k, ds, ds', he => by
    intro h hh
    have hw : (AncRecord.rights hs :: rs).takeWhile (· != .bad) = .rights hs :: rs.takeWhile (· != .bad) :=
      List.takeWhile_cons_of_pos rfl
    rw [hw, Safety.rightsHandles, List.mem_append]
    have hds : h ∈ ds ++ hs ∨ h ∈ Safety.rightsHandles (rs.takeWhile (· != .bad)) := by
      rw [scanRecords] at he
      split at he
      · injection he with _ h2; exact .inl (h2 ▸ hh)
      · exact scanRecords_fatal_mem he h hh
    rcases hds with hm | hm
    · rcases List.mem_append.mp hm with hm | hm
      · exact .inl hm
      · exact .inr (.inl hm)
    · exact .inr (.inr hm)
  | .notRights :: rs, j, k, ds, ds', he => by
    intro h hh
    have hw : (AncRecord.notRights :: rs).takeWhile (· != .bad) = .notRights :: rs.takeWhile (· != .bad) :=
      List.takeWhile_cons_of_pos rfl
    rw [hw, Safety.rightsHandles]
    exact scanRecords_fatal_mem (rs := rs) he h hh
  | .bad :: _, _, _, _, _, he => by
    intro h hh
    injection he with _ h2
    exact .inl (h2 ▸ hh)

/-- FRAME, once its mode check has passed, holds, or fails in a read, or fails on a record, or loads. -/
theorem State.frameBody_cases (s : State) :
    (readFrame s.bo s.rx s.rxEnd = .holds ∧ s.frameBody = s.await) ∨
    (∃ e info rest, readFrame s.bo s.rx s.rxEnd = .fails e info rest ∧
      s.frameBody =
        { s.discardLoaded.ancDone with rx := rest, mode := .dead, err := e.code, errinfo := info }.respond e []) ∨
    (∃ w z o p rest j ds, readFrame s.bo s.rx s.rxEnd = .done w z o p rest ∧
      scanRecords s.descMax.toNat s.ancRecords 0 [] = .fatal j ds ∧
      s.frameBody =
        { ({ s.discardLoaded.ancDone with rx := rest }.closeAll ds) with
          mode := .dead, err := 0x22, errinfo := BitVec.ofNat 32 j }.respond .ancParse []) ∨
    (∃ w z o p rest ds, readFrame s.bo s.rx s.rxEnd = .done w z o p rest ∧
      scanRecords s.descMax.toNat s.ancRecords 0 [] = .handles ds ∧
      s.frameBody =
        ({ s.discardLoaded.ancDone with rx := rest }.commitEnvelope w z o p ds).respond .ok
          [.word w, .word (o.zeroExtend 32), .word (z.zeroExtend 32)]) := by
  unfold State.frameBody
  cases hr : readFrame s.bo s.rx s.rxEnd with
  | holds => exact .inl ⟨rfl, rfl⟩
  | fails e info rest =>
    refine .inr (.inl ⟨e, info, rest, rfl, ?_⟩)
    have he : e.cls = .transport ∨ e.cls = .framing := by
      rcases readFrame_fails_cls hr with rfl | rfl | rfl <;> simp [Status.cls]
    exact State.raise_fatal he info
  | done w z o p rest =>
    cases hs : scanRecords s.descMax.toNat s.ancRecords 0 [] with
    | fatal j ds => exact .inr (.inr (.inl ⟨w, z, o, p, rest, j, ds, rfl, rfl, rfl⟩))
    | handles ds => exact .inr (.inr (.inr ⟨w, z, o, p, rest, ds, rfl, rfl, rfl⟩))

end Sys2Proof.Machine
end

