-- ==== Sys2Proof/Laws/Step.lean ====
section
/-! SUPPORT. What one step can do, and what one command can do, each said once. -/

namespace Sys2Proof.Machine

open Sys2Proof.Safety

/-- A step is reset, or a wait, or a command, or the answer to a packet that is no command. -/
theorem step_cases (s : State) :
    (s.resetIn = true ∧ step s = .next s.applyReset) ∨
    (s.resetIn = false ∧ s.cmdPort = [] ∧ step s = .next s.await) ∨
    (∃ p rest i, s.resetIn = false ∧ s.cmdPort = p :: rest ∧ decode p = .ok i ∧ step s = exec i s) ∨
    (∃ p rest r, s.resetIn = false ∧ s.cmdPort = p :: rest ∧ decode p = .error r ∧
      step s = .next (s.reject r)) := by
  unfold step
  cases hr : s.resetIn with
  | true => exact .inl ⟨rfl, rfl⟩
  | false =>
    cases hp : s.cmdPort with
    | nil => exact .inr (.inl ⟨rfl, rfl, rfl⟩)
    | cons p rest =>
      cases hd : decode p with
      | ok i => exact .inr (.inr (.inl ⟨p, rest, i, rfl, rfl, hd, by simp [hd]⟩))
      | error r => exact .inr (.inr (.inr ⟨p, rest, r, rfl, rfl, hd, by simp [hd]⟩))

/-- DEC.SEQ decodes, or names no supported type, or has no level. -/
theorem execDecSeq_cases (depth base : BitVec 4) (s : State) :
    (depth = 0 ∧ execDecSeq depth base s = .next (s.respond .badCmd [])) ∨
    (depth ≠ 0 ∧ ¬ base.toNat < 7 ∧
      execDecSeq depth base s = .next (s.unsupported (encodeWord (.decSeq depth base)))) ∨
    (∃ t, depth ≠ 0 ∧ base.toNat < 7 ∧ typeOf depth base = some t ∧
      execDecSeq depth base s = .next (s.decCommand t)) := by
  have hb := typeOf_isSome depth base
  unfold execDecSeq
  by_cases h : depth = 0
  · exact .inl ⟨h, if_pos h⟩
  · rw [if_neg h]
    cases ht : typeOf depth base <;> rw [ht] at hb
    · exact .inr (.inl ⟨h, by simpa using hb, rfl⟩)
    · exact .inr (.inr ⟨_, h, by simpa using hb, rfl, rfl⟩)

/-- ENC.SEQ encodes the value of its items, or names no supported type, or is malformed. -/
theorem execEncSeq_cases (depth base : BitVec 4) (is : List Item) (s : State) :
    ((Instr.encSeq depth base is).wf = false ∧
      execEncSeq depth base is s = .next (s.respond .badCmd [])) ∨
    (depth ≠ 0 ∧ ¬ base.toNat < 7 ∧
      execEncSeq depth base is s = .next (s.unsupported (encodeWord (.encSeq depth base is)))) ∨
    (∃ t v, depth ≠ 0 ∧ base.toNat < 7 ∧ typeOf depth base = some t ∧ ofItems t is = some (v, []) ∧
      encodedValue (.encSeq depth base is) = some ⟨t, v⟩ ∧
      execEncSeq depth base is s = .next (s.encCommand t v)) := by
  have hb := typeOf_isSome depth base
  unfold execEncSeq encodedValue Instr.wf
  dsimp only
  by_cases h : depth = 0
  · subst h; exact .inl ⟨rfl, if_pos rfl⟩
  · simp only [if_neg h]
    cases ht : typeOf depth base <;> rw [ht] at hb
    · exact .inr (.inl ⟨h, by simpa using hb, rfl⟩)
    · rename_i t
      rcases ho : ofItems t is with _ | ⟨v, _ | ⟨x, r⟩⟩
      · exact .inl ⟨by simp [shapeOk, ho], by simp only [ho]; rfl⟩
      · exact .inr (.inr ⟨t, v, h, by simpa using hb, rfl, ho, by simp only [ho], by simp only [ho]⟩)
      · exact .inl ⟨by simp [shapeOk, ho], by simp only [ho]; rfl⟩

/-- What one command comes to, by the family it belongs to. -/
theorem exec_cases (i : Instr) (s : State) :
    (i = .frame ∧ exec i s = .next (s.checked true State.frameBody)) ∨
    (i = .discard ∧ exec i s = .next (s.checked true State.discardBody)) ∨
    (∃ n, i = .skip n ∧ exec i s = .next (s.checked (s.mode == .ready) (State.skipBody n))) ∨
    (∃ t, legality i = .readyOnly ∧ typeSupported i = true ∧ exec i s = .next (s.decCommand t)) ∨
    (∃ o w, i = .encBegin o w ∧ exec i s = .next (s.checked true (State.beginBody o w))) ∨
    (∃ t v, legality i = .txOpenOnly ∧ i ≠ .encEnd ∧ typeSupported i = true ∧ encodedValue i = some ⟨t, v⟩ ∧
      exec i s = .next (s.encCommand t v)) ∨
    (i = .encEnd ∧ exec i s = .next (s.checked (s.txmode == .txOpen) State.endBody)) ∨
    (∃ n it, legality i = .anywhere ∧ exec i s = .next ({ s with draws := n }.respond .ok [it])) ∨
    (∃ r, i = .rdreg r ∧ s.readReg r = none ∧ exec i s = .next (s.respond .badReg [])) ∨
    (legality i ≠ .anywhere ∧ typeSupported i = false ∧ exec i s = .next (s.unsupported (encodeWord i))) ∨
    ((legality i = .readyOnly ∨ legality i = .txOpenOnly) ∧ i ≠ .encEnd ∧ i.wf = false ∧
      exec i s = .next (s.respond .badCmd [])) := by
  have hany : ∀ {i}, legality i = .anywhere → (∃ n it, exec i s = .next ({ s with draws := n }.respond .ok [it])) →
      ∃ n it, legality i = .anywhere ∧ exec i s = .next ({ s with draws := n }.respond .ok [it]) :=
    fun h ⟨n, it, he⟩ => ⟨n, it, h, he⟩
  cases i with
  | frame => exact .inl ⟨rfl, rfl⟩
  | discard => exact .inr (.inl ⟨rfl, rfl⟩)
  | skip n => exact .inr (.inr (.inl ⟨n, rfl, rfl⟩))
  | rdreg r =>
    cases h : s.readReg r with
    | none =>
      refine .inr <| .inr <| .inr <| .inr <| .inr <| .inr <| .inr <| .inr <| .inl ⟨r, rfl, h, ?_⟩
      simp only [exec, execRdreg, h]; rfl
    | some v =>
      refine .inr <| .inr <| .inr <| .inr <| .inr <| .inr <| .inr <| .inl ⟨s.draws, .word v, rfl, ?_⟩
      simp only [exec, execRdreg, h]
  | decSeq depth base =>
    rcases execDecSeq_cases depth base s with ⟨rfl, he⟩ | ⟨h, hb, he⟩ | ⟨t, h, hb, -, he⟩
    · exact .inr <| .inr <| .inr <| .inr <| .inr <| .inr <| .inr <| .inr <| .inr <| .inr
        ⟨.inl rfl, nofun, rfl, he⟩
    · exact .inr <| .inr <| .inr <| .inr <| .inr <| .inr <| .inr <| .inr <| .inr <| .inl
        ⟨nofun, by simpa [typeSupported] using hb, he⟩
    · exact .inr <| .inr <| .inr <| .inl ⟨t, rfl, by simpa [typeSupported] using hb, he⟩
  | encSeq depth base is =>
    rcases execEncSeq_cases depth base is s with ⟨h, he⟩ | ⟨h, hb, he⟩ | ⟨t, v, h, hb, -, -, hv, he⟩
    · exact .inr <| .inr <| .inr <| .inr <| .inr <| .inr <| .inr <| .inr <| .inr <| .inr
        ⟨.inr rfl, nofun, h, he⟩
    · exact .inr <| .inr <| .inr <| .inr <| .inr <| .inr <| .inr <| .inr <| .inr <| .inl
        ⟨nofun, by simpa [typeSupported] using hb, he⟩
    · exact .inr <| .inr <| .inr <| .inr <| .inr <| .inl
        ⟨t, v, rfl, nofun, by simpa [typeSupported] using hb, hv, he⟩
  | decInt | decUint | decFixed | decString | decArray | decNewid | decFd =>
    exact .inr <| .inr <| .inr <| .inl ⟨_, rfl, rfl, rfl⟩
  | encBegin o w => exact .inr <| .inr <| .inr <| .inr <| .inl ⟨o, w, rfl, rfl⟩
  | encInt | encUint | encFixed | encString | encArray | encNewid | encFd =>
    exact .inr <| .inr <| .inr <| .inr <| .inr <| .inl ⟨_, _, rfl, nofun, rfl, rfl, rfl⟩
  | encEnd => exact .inr <| .inr <| .inr <| .inr <| .inr <| .inr <| .inl ⟨rfl, rfl⟩
  | fxFromint | fxInteger | fxFraction | fxFloat =>
    exact .inr <| .inr <| .inr <| .inr <| .inr <| .inr <| .inr <| .inl ⟨s.draws, _, rfl, rfl⟩
  | fxFromfloat x =>
    refine .inr <| .inr <| .inr <| .inr <| .inr <| .inr <| .inr <| .inl (hany rfl ?_)
    simp only [exec, execFxFromfloat]
    split
    · exact ⟨s.draws, _, rfl⟩
    · exact ⟨s.draws + 1, _, rfl⟩

end Sys2Proof.Machine
end

