-- ==== Sys2Proof/Laws/Memory.lean ====
section
/-! SUPPORT. Every operation keeps `Memory.wf`, the capacity of the two byte buffers (10_state.md R27, R37), and
`State.reset` has it. -/

namespace Sys2Proof.Machine

theorem memory_wf_reset : Memory.wf State.reset := by decide

theorem memory_wf_applyReset (s : State) : Memory.wf s.applyReset := ⟨Nat.zero_le _, Nat.zero_le _⟩

theorem memory_wf_respond {s : State} (h : Memory.wf s) (st : Status) (is : List Item) :
    Memory.wf (s.respond st is) := h

theorem memory_wf_await {s : State} (h : Memory.wf s) : Memory.wf s.await := by
  obtain ⟨-, -, -, -, -, -, hp, -, -, -, -, -, -, -, -, -, -, -, ht, -⟩ := s.await_frame
  rw [Memory.wf, hp, ht]
  exact h

/-- The discard empties `PAYLOAD` (40_framer.md R131). -/
theorem memory_wf_doDiscard {s : State} (h : Memory.wf s) : Memory.wf s.doDiscard := ⟨Nat.zero_le _, h.2⟩

theorem memory_wf_discardLoaded {s : State} (h : Memory.wf s) : Memory.wf s.discardLoaded := by
  unfold State.discardLoaded
  split
  · exact memory_wf_doDiscard h
  · exact h

/-- `MemWrite` within the capacity keeps it (20_memory.md R63). -/
theorem memory_wf_memWrite {s : State} (h : Memory.wf s) {a : Nat} {v : List Byte}
    (hv : a + v.length ≤ Config.payloadMax) : Memory.wf (s.memWrite a v) := by
  refine ⟨h.1, ?_⟩
  have h2 := h.2
  simp only [State.memWrite, List.length_append, List.length_take, List.length_drop]
  omega

theorem memory_wf_unsupported {s : State} (h : Memory.wf s) (w : Word) : Memory.wf (s.unsupported w) := by
  rcases s.unsupported_cases w with ⟨-, he⟩ | ⟨-, he⟩ <;> rw [he]
  · exact h
  · exact memory_wf_discardLoaded h

/-- FRAME writes `PAYLOAD` whole, with at most 65527 bytes (10_state.md R26, R27). -/
theorem memory_wf_frameBody {s : State} (h : Memory.wf s) : Memory.wf s.frameBody := by
  have hd := memory_wf_discardLoaded h
  rcases s.frameBody_cases with ⟨-, he⟩ | ⟨e, info, rest, -, he⟩ | ⟨w, z, o, p, rest, j, ds, -, -, he⟩ |
    ⟨w, z, o, p, rest, ds, hf, -, he⟩ <;> rw [he]
  · exact memory_wf_await h
  · exact hd
  · exact hd
  · refine ⟨?_, hd.2⟩
    have hz := z.isLt
    have hp := (readFrame_done hf).2
    change p.length ≤ 65527
    omega

theorem memory_wf_discardBody {s : State} (h : Memory.wf s) : Memory.wf s.discardBody := by
  unfold State.discardBody
  split
  · exact h
  · exact memory_wf_doDiscard h

theorem memory_wf_skipBody {s : State} (h : Memory.wf s) (n : Half) : Memory.wf (s.skipBody n) := by
  unfold State.skipBody
  split <;> exact h

theorem memory_wf_decodeArg {s : State} (h : Memory.wf s) (t : Ty) : Memory.wf (s.decodeArg t) := by
  rcases s.decodeArg_cases t with ⟨v, c, d, -, he⟩ | ⟨e, -, -, he⟩ <;> rw [he] <;> exact h

/-- ENC writes `TXBUF` within its capacity, or not at all (43_encode.md R211). -/
theorem memory_wf_encodeArg {s : State} (h : Memory.wf s) (t : Ty) (v : t.Val) :
    Memory.wf (s.encodeArg t v) := by
  rcases s.encodeArg_cases t v with ⟨hl, he⟩ | ⟨-, he⟩ <;> rw [he]
  · exact memory_wf_memWrite h hl
  · exact h

theorem memory_wf_checked {s : State} (h : Memory.wf s) {legal : Bool} {body : State → State}
    (hb : Memory.wf (body s)) : Memory.wf (s.checked legal body) := by
  rcases s.checked_cases legal body with ⟨-, -, he⟩ | ⟨-, he⟩ <;> rw [he]
  · exact hb
  · exact h

/-- Every step keeps the capacity of the buffers. -/
theorem memory_wf_step {s t : State} (h : Memory.wf s) (hs : step s = .next t) : Memory.wf t := by
  rcases step_cases s with ⟨-, he⟩ | ⟨-, -, he⟩ | ⟨p, rest, i, -, -, -, he⟩ | ⟨p, rest, r, -, -, -, he⟩
  · rw [he] at hs; cases hs; exact memory_wf_applyReset s
  · rw [he] at hs; cases hs; exact memory_wf_await h
  · rw [he] at hs
    rcases exec_cases i s with ⟨-, hx⟩ | ⟨-, hx⟩ | ⟨n, -, hx⟩ | ⟨t, -, -, hx⟩ | ⟨o, w, -, hx⟩ |
      ⟨t, v, -, -, -, -, hx⟩ | ⟨-, hx⟩ | ⟨n, it, -, hx⟩ | ⟨r, -, -, hx⟩ | ⟨-, -, hx⟩ | ⟨-, -, -, hx⟩ <;>
      rw [hx] at hs <;> cases hs
    · exact memory_wf_checked h (memory_wf_frameBody h)
    · exact memory_wf_checked h (memory_wf_discardBody h)
    · exact memory_wf_checked h (memory_wf_skipBody h n)
    · exact memory_wf_checked h (memory_wf_decodeArg h t)
    · exact memory_wf_checked h ⟨h.1, Nat.zero_le _⟩
    · exact memory_wf_checked h (memory_wf_encodeArg h t v)
    · exact memory_wf_checked h ⟨h.1, Nat.zero_le _⟩
    · exact h
    · exact h
    · exact memory_wf_unsupported h _
    · exact h
  · rw [he] at hs; cases hs
    rcases s.reject_cases r with ⟨-, hx⟩ | ⟨w, -, hx⟩ <;> rw [hx]
    · exact h
    · exact memory_wf_unsupported h w

end Sys2Proof.Machine
end

