-- ==== Sys2Proof/Laws/PerInstr.lean ====
section
/-! SUPPORT. The family `RowMatch`: the command word of every instruction is a word of its own row of
spec/opcode_table.json (30_encoding.md R105). -/

namespace Sys2Proof.Laws.RowMatch

/-- The `mask` and the `match` of an instruction's row in spec/opcode_table.json. -/
def row : Instr → Word × Word
  | .frame => (0xFFFFFFFF, 0x00000001)
  | .discard => (0xFFFFFFFF, 0x00000002)
  | .skip _ => (0x0000FFFF, 0x00000003)
  | .rdreg _ => (0x0000FFFF, 0x00000008)
  | .decInt => (0xFFFFFFFF, 0x00000010)
  | .decUint => (0xFFFFFFFF, 0x00000110)
  | .decFixed => (0xFFFFFFFF, 0x00000210)
  | .decString => (0xFFFFFFFF, 0x00000310)
  | .decArray => (0xFFFFFFFF, 0x00000410)
  | .decNewid => (0xFFFFFFFF, 0x00000510)
  | .decFd => (0xFFFFFFFF, 0x00000610)
  | .decSeq _ _ => (0xFFFF00FF, 0x00000011)
  | .encBegin _ _ => (0x0000FFFF, 0x00000020)
  | .encInt _ => (0xFFFFFFFF, 0x00000021)
  | .encUint _ => (0xFFFFFFFF, 0x00000121)
  | .encFixed _ => (0xFFFFFFFF, 0x00000221)
  | .encString _ => (0xFFFFFFFF, 0x00000321)
  | .encArray _ => (0xFFFFFFFF, 0x00000421)
  | .encNewid _ _ => (0xFFFFFFFF, 0x00000521)
  | .encFd _ => (0xFFFFFFFF, 0x00000621)
  | .encSeq _ _ _ => (0xFFFF00FF, 0x00000022)
  | .encEnd => (0xFFFFFFFF, 0x00000023)
  | .fxFromint _ => (0xFFFFFFFF, 0x00000030)
  | .fxFromfloat _ => (0xFFFFFFFF, 0x00000031)
  | .fxInteger _ => (0xFFFFFFFF, 0x00000032)
  | .fxFraction _ => (0xFFFFFFFF, 0x00000033)
  | .fxFloat _ => (0xFFFFFFFF, 0x00000034)

/-- `w & mask = match` for the command word w of the instruction. -/
def Statement (i : Instr) : Prop := encodeWord i &&& (row i).1 = (row i).2

/-- A command word with an immediate: the mask 0x0000FFFF keeps the operation and its zero fields. -/
theorem immWord (op : Byte) (imm : Half) :
    commandWord op 0 0 imm &&& 0x0000FFFF = op.zeroExtend 32 := by
  have hm : ∀ i : Fin 32, (0x0000FFFF : Word)[i] = decide (i.val < 16) := by decide
  ext i hi
  have := hm ⟨i, hi⟩
  simp only [Fin.getElem_fin] at this
  rw [BitVec.getElem_and, this]
  simp [commandWord]
  grind

/-- A command word with a type: the mask 0xFFFF00FF keeps the operation and the zero immediate. -/
theorem typeWord (op : Byte) (base depth : BitVec 4) :
    commandWord op base depth 0 &&& 0xFFFF00FF = op.zeroExtend 32 := by
  have hm : ∀ i : Fin 32, (0xFFFF00FF : Word)[i] = decide (i.val < 8 ∨ 16 ≤ i.val) := by decide
  ext i hi
  have := hm ⟨i, hi⟩
  simp only [Fin.getElem_fin] at this
  rw [BitVec.getElem_and, this]
  simp [commandWord]
  grind

/-- A command word without free fields: the mask 0xFFFFFFFF keeps all of it. -/
theorem fixedWord (w m : Word) (h : w = m) : w &&& 0xFFFFFFFF = m := by
  subst h
  have hm : (0xFFFFFFFF : Word) = BitVec.allOnes 32 := by decide
  rw [hm, BitVec.and_allOnes]

theorem frame : Statement (.frame) := rfl
theorem discard : Statement (.discard) := rfl
theorem skip (n : Half) : Statement (.skip n) := immWord 0x03 n
theorem rdreg (r : Half) : Statement (.rdreg r) := immWord 0x08 r
theorem decInt : Statement (.decInt) := rfl
theorem decUint : Statement (.decUint) := rfl
theorem decFixed : Statement (.decFixed) := rfl
theorem decString : Statement (.decString) := rfl
theorem decArray : Statement (.decArray) := rfl
theorem decNewid : Statement (.decNewid) := rfl
theorem decFd : Statement (.decFd) := rfl
theorem decSeq (depth base : BitVec 4) : Statement (.decSeq depth base) := typeWord 0x11 base depth
theorem encBegin (opcode : Half) (sender : Word) : Statement (.encBegin opcode sender) := immWord 0x20 opcode
theorem encInt (v : Word) : Statement (.encInt v) :=
  fixedWord _ _ (show commandWord 0x21 0 0 0 = 0x00000021 from by decide)
theorem encUint (v : Word) : Statement (.encUint v) :=
  fixedWord _ _ (show commandWord 0x21 1 0 0 = 0x00000121 from by decide)
theorem encFixed (v : Word) : Statement (.encFixed v) :=
  fixedWord _ _ (show commandWord 0x21 2 0 0 = 0x00000221 from by decide)
theorem encString (s : List Byte) : Statement (.encString s) :=
  fixedWord _ _ (show commandWord 0x21 3 0 0 = 0x00000321 from by decide)
theorem encArray (b : List Byte) : Statement (.encArray b) :=
  fixedWord _ _ (show commandWord 0x21 4 0 0 = 0x00000421 from by decide)
theorem encNewid (name : List Byte) (version : Word) : Statement (.encNewid name version) :=
  fixedWord _ _ (show commandWord 0x21 5 0 0 = 0x00000521 from by decide)
theorem encFd (h : Handle) : Statement (.encFd h) :=
  fixedWord _ _ (show commandWord 0x21 6 0 0 = 0x00000621 from by decide)
theorem encSeq (depth base : BitVec 4) (is : List Item) : Statement (.encSeq depth base is) := typeWord 0x22 base depth
theorem encEnd : Statement (.encEnd) := rfl
theorem fxFromint (n : Word) : Statement (.fxFromint n) :=
  fixedWord _ _ (show commandWord 0x30 0 0 0 = 0x00000030 from by decide)
theorem fxFromfloat (x : F64) : Statement (.fxFromfloat x) :=
  fixedWord _ _ (show commandWord 0x31 0 0 0 = 0x00000031 from by decide)
theorem fxInteger (v : Word) : Statement (.fxInteger v) :=
  fixedWord _ _ (show commandWord 0x32 0 0 0 = 0x00000032 from by decide)
theorem fxFraction (v : Word) : Statement (.fxFraction v) :=
  fixedWord _ _ (show commandWord 0x33 0 0 0 = 0x00000033 from by decide)
theorem fxFloat (v : Word) : Statement (.fxFloat v) :=
  fixedWord _ _ (show commandWord 0x34 0 0 0 = 0x00000034 from by decide)

end Sys2Proof.Laws.RowMatch
end

