-- ==== Sys2Proof/Laws/Wire.lean ====
section
/-! SUPPORT. What the decoding function can do, said once: it answers a value exactly where the value's layout
stands, and fails exactly where no value can be read (30_encoding.md R94 to R101; 42_decode.md R170 to R179). -/

namespace Sys2Proof.Machine

open Sys2Proof.Safety

/-! ### Words -/

theorem u32_le_toNat (b0 b1 b2 b3 : Byte) : (u32 .le [b0, b1, b2, b3]).toNat =
    b0.toNat + 2 ^ 8 * b1.toNat + 2 ^ 16 * b2.toNat + 2 ^ 24 * b3.toNat := by
  have := b0.isLt; have := b1.isLt; have := b2.isLt; have := b3.isLt
  simp [u32]; omega

theorem u32_bytes32 (bo : ByteOrder) (v : Word) : u32 bo (bytes32 bo v) = v := by
  have hv : v.toNat < 2 ^ 32 := v.isLt
  cases bo
  · apply BitVec.eq_of_toNat_eq
    simp [u32, bytes32, BitVec.extractLsb'_toNat, Nat.shiftRight_eq_div_pow]
    omega
  · apply BitVec.eq_of_toNat_eq
    simp [u32, bytes32, BitVec.extractLsb'_toNat, Nat.shiftRight_eq_div_pow]
    omega

theorem bytes32_u32 (bo : ByteOrder) {b : List Byte} (h : b.length = 4) : bytes32 bo (u32 bo b) = b := by
  obtain ⟨b0, b1, b2, b3, rfl⟩ : ∃ b0 b1 b2 b3, b = [b0, b1, b2, b3] := by
    match b, h with
    | [b0, b1, b2, b3], _ => exact ⟨b0, b1, b2, b3, rfl⟩
  have hle : ∀ b0 b1 b2 b3 : Byte, bytes32 .le (u32 .le [b0, b1, b2, b3]) = [b0, b1, b2, b3] := by
    intro b0 b1 b2 b3
    have h := u32_le_toNat b0 b1 b2 b3
    have := b0.isLt; have := b1.isLt; have := b2.isLt; have := b3.isLt
    simp only [bytes32, List.cons.injEq, and_true]
    refine ⟨?_, ?_, ?_, ?_⟩ <;> apply BitVec.eq_of_toNat_eq <;>
      simp [BitVec.extractLsb'_toNat, Nat.shiftRight_eq_div_pow, h] <;> omega
  cases bo
  · exact hle ..
  · rw [bytes32_be_reverse, u32_be_reverse, hle]; rfl

/-! ### Reads -/

theorem payloadHas_append {s : State} {c : Nat} {as bs : List Byte} :
    PayloadHas s c (as ++ bs) ↔ PayloadHas s c as ∧ PayloadHas s (c + as.length) bs := by
  unfold PayloadHas
  rw [List.length_append, List.take_add, List.drop_drop]
  constructor
  · rintro ⟨h1, h2⟩
    have hl := congrArg List.length h2
    simp only [List.length_append, List.length_take, List.length_drop] at hl
    obtain ⟨ha, hb⟩ := List.append_inj h2 (by simp only [List.length_take, List.length_drop]; omega)
    exact ⟨⟨by omega, ha⟩, by omega, hb⟩
  · rintro ⟨⟨h1, h2⟩, h3, h4⟩
    exact ⟨by omega, by rw [h2, h4]⟩

/-- `MemRead` answers exactly the bytes that the payload has. -/
theorem memRead_iff {s : State} (hl : s.payload.length = s.plen.toNat) {c n : Nat} {b : List Byte} :
    s.memRead c n = some b ↔ b.length = n ∧ PayloadHas s c b := by
  unfold State.memRead PayloadHas
  split
  · rename_i h
    have hn : ((s.payload.drop c).take n).length = n := by
      rw [List.length_take, List.length_drop]; omega
    simp only [Option.some.injEq]
    constructor
    · rintro rfl; exact ⟨hn, by omega, by rw [hn]⟩
    · rintro ⟨rfl, -, h2⟩; exact h2
  · rename_i h
    simp only [reduceCtorEq, false_iff]
    rintro ⟨rfl, h1, -⟩
    omega

theorem memRead_none_iff {s : State} (hl : s.payload.length = s.plen.toNat) {c n : Nat} :
    s.memRead c n = none ↔ s.plen.toNat < c + n := by
  unfold State.memRead
  split <;> simp <;> omega

theorem decU32_iff {s : State} (hl : s.payload.length = s.plen.toNat) {c c' : Nat} {w : Word} :
    decU32 s c = .ok (w, c') ↔ PayloadHas s c (bytes32 s.bo w) ∧ c' = c + 4 := by
  rw [decU32_ok]
  constructor
  · rintro ⟨b, hb, rfl, rfl⟩
    obtain ⟨h4, hp⟩ := (memRead_iff hl).mp hb
    exact ⟨by rwa [bytes32_u32 _ h4], rfl⟩
  · rintro ⟨hp, rfl⟩
    exact ⟨_, (memRead_iff hl).mpr ⟨bytes32_length .., hp⟩, (u32_bytes32 ..).symm, rfl⟩

theorem decU32_error_iff {s : State} (hl : s.payload.length = s.plen.toNat) {c : Nat} {e : Status} :
    decU32 s c = .error e ↔ s.plen.toNat < c + 4 ∧ e = .payloadUnderrun := by
  rw [decU32_error, memRead_none_iff hl]

/-- A word that stands in the payload is the only one there. -/
theorem payloadHas_word {s : State} {c : Nat} {v w : Word} (h1 : PayloadHas s c (bytes32 s.bo v))
    (h2 : PayloadHas s c (bytes32 s.bo w)) : v = w := by
  have h := h1.2.symm.trans ((by simp : _ = _).trans h2.2)
  rw [← u32_bytes32 s.bo v, h, u32_bytes32]

/-! ### Fields -/

theorem decStringAt_iff {s : State} (hl : s.payload.length = s.plen.toNat) {c d c' d' : Nat} {name : List Byte} :
    decStringAt s c d = .ok (name, c', d') ↔ StringAt s name c c' ∧ d' = d := by
  rw [decStringAt_ok]
  constructor
  · rintro ⟨l, body, hu, h0, hm, ht, rfl, rfl, rfl⟩
    obtain ⟨hp, -⟩ := (decU32_iff hl).mp hu
    obtain ⟨hb, hq⟩ := (memRead_iff hl).mp hm
    have hl0 : 0 < l.toNat := Nat.pos_of_ne_zero fun h => h0 (BitVec.eq_of_toNat_eq h)
    have hn : (body.take (l.toNat - 1)).length + 1 = l.toNat := by rw [List.length_take]; omega
    refine ⟨⟨body.drop l.toNat, ?_, ?_, ?_⟩, rfl⟩
    · rw [hn, List.length_drop, hb]; unfold pad; omega
    · rw [List.length_drop, hb]; omega
    · have hbody : body = body.take (l.toNat - 1) ++ [0x00] ++ body.drop l.toNat := by
        have h := List.getElem?_eq_some_iff.mp ht
        obtain ⟨hi, hv⟩ := h
        have h1 : body.take l.toNat = body.take (l.toNat - 1) ++ [0x00] := by
          rw [← hv, List.take_append_getElem]; congr 1; omega
        rw [← h1, List.take_append_drop]
      rw [hn, BitVec.ofNat_toNat, BitVec.setWidth_eq, List.append_assoc, List.append_assoc, payloadHas_append,
        bytes32_length, ← List.append_assoc, ← hbody]
      exact ⟨hp, hq⟩
  · rintro ⟨⟨p, hp, rfl, h⟩, rfl⟩
    rw [List.append_assoc, List.append_assoc, payloadHas_append, bytes32_length, ← List.append_assoc] at h
    obtain ⟨hw, hb⟩ := h
    have hlen := hb.1
    have hpl := s.plen.isLt
    simp only [List.length_append, List.length_cons, List.length_nil] at hlen
    have hn : (BitVec.ofNat 32 (name.length + 1)).toNat = name.length + 1 := by
      rw [BitVec.toNat_ofNat]; omega
    have hpad : p.length = pad (name.length + 1) := hp
    refine ⟨BitVec.ofNat 32 (name.length + 1), name ++ [0x00] ++ p, (decU32_iff hl).mpr ⟨hw, rfl⟩, ?_,
      (memRead_iff hl).mpr ⟨?_, hb⟩, ?_, ?_, ?_, rfl⟩
    · intro h0
      rw [h0] at hn
      simp at hn
    · rw [hn]; simp; omega
    · rw [hn]; simp
    · rw [hn]; simp
    · rw [hn]; omega

theorem decStringAt_error_iff {s : State} (hl : s.payload.length = s.plen.toNat) {c d : Nat} {e : Status} :
    decStringAt s c d = .error e ↔ StringFails s c e := by
  unfold decStringAt StringFails
  cases hu : decU32 s c with
  | error e' =>
    obtain ⟨h, rfl⟩ := (decU32_error_iff hl).mp hu
    simp only [Except.error.injEq, h, true_and]
    constructor
    · rintro rfl; exact .inl rfl
    · rintro (rfl | ⟨l, hp, -⟩)
      · rfl
      · have := hp.1; rw [bytes32_length] at this; omega
  | ok r =>
    obtain ⟨l, c1⟩ := r
    obtain ⟨hp, rfl⟩ := (decU32_iff hl).mp hu
    have h4 : ¬ s.plen.toNat < c + 4 := by have := hp.1; rw [bytes32_length] at this; omega
    have huniq : ∀ P : Word → Prop, (∃ w : Word, PayloadHas s c (bytes32 s.bo w) ∧ P w) ↔ P l := fun P =>
      ⟨fun ⟨w, hw, h⟩ => payloadHas_word hw hp ▸ h, fun h => ⟨l, hp, h⟩⟩
    rw [huniq]
    simp only [h4, false_and, false_or, ← add_pad_eq]
    by_cases h0 : l = 0
    · simp [h0, eq_comm]
    · simp only [h0, if_false, false_and, false_or, not_false_eq_true, true_and, ne_eq]
      cases hm : s.memRead (c + 4) (l.toNat + pad l.toNat) with
      | none =>
        have hn := (memRead_none_iff hl).mp hm
        have hn' : ¬ c + 4 + (l.toNat + pad l.toNat) ≤ s.plen.toNat := by omega
        simp only [Except.error.injEq, hn, hn', true_and, false_and, or_false, eq_comm]
      | some body =>
        obtain ⟨hb, hq⟩ := (memRead_iff hl).mp hm
        have hn : c + 4 + (l.toNat + pad l.toNat) ≤ s.plen.toNat := hb ▸ hq.1
        have hn' : ¬ s.plen.toNat < c + 4 + (l.toNat + pad l.toNat) := by omega
        have hl0 : 0 < l.toNat := Nat.pos_of_ne_zero fun h => h0 (BitVec.eq_of_toNat_eq h)
        have hi : body[l.toNat - 1]? = s.payload[c + 4 + (l.toNat - 1)]? := by
          rw [← hq.2, List.getElem?_take, if_pos (by omega), List.getElem?_drop]
        dsimp only
        rw [hi]
        simp only [hn, hn', true_and, false_and, false_or]
        split_ifs with ht
        · simp [ht]
        · simp only [Except.error.injEq, ht, not_false_eq_true, true_and]
          exact eq_comm

theorem decArrayAt_iff {s : State} (hl : s.payload.length = s.plen.toNat) {c d c' d' : Nat} {bs : List Byte} :
    decArrayAt s c d = .ok (bs, c', d') ↔ ArrayAt s bs c c' ∧ d' = d := by
  rw [decArrayAt_ok]
  constructor
  · rintro ⟨l, body, hu, hm, rfl, rfl, rfl⟩
    obtain ⟨hp, -⟩ := (decU32_iff hl).mp hu
    obtain ⟨hb, hq⟩ := (memRead_iff hl).mp hm
    have hn : (body.take l.toNat).length = l.toNat := by rw [List.length_take]; omega
    refine ⟨⟨body.drop l.toNat, ?_, ?_, ?_⟩, rfl⟩
    · rw [hn, List.length_drop, hb]; unfold pad; omega
    · rw [hn, List.length_drop, hb]; omega
    · rw [hn, BitVec.ofNat_toNat, BitVec.setWidth_eq, List.append_assoc, payloadHas_append, bytes32_length,
        List.take_append_drop]
      exact ⟨hp, hq⟩
  · rintro ⟨⟨p, hp, rfl, h⟩, rfl⟩
    rw [List.append_assoc, payloadHas_append, bytes32_length] at h
    obtain ⟨hw, hb⟩ := h
    have hlen := hb.1
    have hpl := s.plen.isLt
    simp only [List.length_append] at hlen
    have hn : (BitVec.ofNat 32 bs.length).toNat = bs.length := by rw [BitVec.toNat_ofNat]; omega
    have hpad : p.length = pad bs.length := hp
    refine ⟨BitVec.ofNat 32 bs.length, bs ++ p, (decU32_iff hl).mpr ⟨hw, rfl⟩,
      (memRead_iff hl).mpr ⟨?_, hb⟩, ?_, ?_, rfl⟩
    · rw [hn]; simp; omega
    · rw [hn]; simp
    · rw [hn]; omega

theorem decArrayAt_error_iff {s : State} (hl : s.payload.length = s.plen.toNat) {c d : Nat} {e : Status} :
    decArrayAt s c d = .error e ↔ FailsAt s .array c d e := by
  unfold decArrayAt FailsAt
  cases hu : decU32 s c with
  | error e' =>
    obtain ⟨h, rfl⟩ := (decU32_error_iff hl).mp hu
    simp [h, eq_comm]
  | ok r =>
    obtain ⟨l, c1⟩ := r
    obtain ⟨hp, rfl⟩ := (decU32_iff hl).mp hu
    have h4 : ¬ s.plen.toNat < c + 4 := by have := hp.1; rw [bytes32_length] at this; omega
    have huniq : ∀ P : Word → Prop, (∃ w : Word, PayloadHas s c (bytes32 s.bo w) ∧ P w) ↔ P l := fun P =>
      ⟨fun ⟨w, hw, h⟩ => payloadHas_word hw hp ▸ h, fun h => ⟨l, hp, h⟩⟩
    rw [huniq]
    simp only [h4, false_or, ← add_pad_eq]
    cases hm : s.memRead (c + 4) (l.toNat + pad l.toNat) with
    | none => simp [(memRead_none_iff hl).mp hm, eq_comm]
    | some body =>
      obtain ⟨hb, hq⟩ := (memRead_iff hl).mp hm
      have hn := hq.1
      simp
      omega

/-! ### Sequences -/

/-- `repeat N times` answers exactly N elements that stand one after another. -/
theorem decMany_iff {α : Type} {f : Nat → Nat → DecResult α} {R : α → Nat → Nat → Nat → Nat → Prop}
    (hf : ∀ v c d c' d', f c d = .ok (v, c', d') ↔ R v c d c' d') :
    ∀ {n c d c' d' : Nat} {vs : List α},
      decMany f n c d = .ok (vs, c', d') ↔ vs.length = n ∧ ElementsAt R vs c d c' d'
  | 0, c, d, c', d', vs => by
    simp only [decMany, Except.ok.injEq, Prod.mk.injEq]
    cases vs <;> simp [ElementsAt, eq_comm]
  | n + 1, c, d, c', d', vs => by
    rw [decMany]
    cases h1 : f c d with
    | error e =>
      cases vs with
      | nil => simp
      | cons v vs =>
        simp only [reduceCtorEq, ElementsAt, false_iff]
        rintro ⟨-, m, k, hr, -⟩
        rw [(hf ..).mpr hr] at h1
        cases h1
    | ok r =>
      obtain ⟨v, m, k⟩ := r
      have ih := fun {ws} => decMany_iff hf (n := n) (c := m) (d := k) (c' := c') (d' := d') (vs := ws)
      have hR : ∀ {w m' k'}, R w c d m' k' ↔ v = w ∧ m = m' ∧ k = k' := by
        intro w m' k'; rw [← hf, h1]; simp
      cases vs with
      | nil =>
        simp only [List.length_nil, (Nat.succ_ne_zero n).symm, false_and, iff_false]
        intro h
        split at h
        · cases h
        · simp at h
      | cons w ws =>
        simp only [ElementsAt, List.length_cons, Nat.add_right_cancel_iff, hR]
        constructor
        · intro h
          split at h
          · cases h
          · rename_i us c2 d2 h2
            simp only [Except.ok.injEq, Prod.mk.injEq, List.cons.injEq] at h
            obtain ⟨⟨rfl, rfl⟩, rfl, rfl⟩ := h
            exact ⟨(ih.mp h2).1, m, k, ⟨rfl, rfl, rfl⟩, (ih.mp h2).2⟩
        · rintro ⟨hn, m', k', ⟨rfl, rfl, rfl⟩, h⟩
          rw [ih.mpr ⟨hn, h⟩]

/-- `repeat N times` fails exactly as the first element does that fails. -/
theorem decMany_error_iff {α : Type} {f : Nat → Nat → DecResult α} {R : α → Nat → Nat → Nat → Nat → Prop}
    (hf : ∀ v c d c' d', f c d = .ok (v, c', d') ↔ R v c d c' d') {e : Status} :
    ∀ {n c d : Nat}, decMany f n c d = .error e ↔
      ∃ (vs : List α) (m k : Nat), vs.length < n ∧ ElementsAt R vs c d m k ∧ f m k = .error e
  | 0, c, d => by simp [decMany]
  | n + 1, c, d => by
    rw [decMany]
    cases h1 : f c d with
    | error e' =>
      constructor
      · intro h
        dsimp only at h
        exact ⟨[], c, d, by simp, ⟨rfl, rfl⟩, h1.trans (congrArg _ (Except.error.inj h))⟩
      · rintro ⟨vs, m, k, -, hv, he⟩
        cases vs with
        | nil => obtain ⟨rfl, rfl⟩ := hv; exact congrArg _ (Except.error.inj (h1.symm.trans he))
        | cons v vs =>
          obtain ⟨m', k', hr, -⟩ := hv
          rw [(hf ..).mpr hr] at h1
          cases h1
    | ok r =>
      obtain ⟨v, m, k⟩ := r
      have ih := decMany_error_iff hf (e := e) (n := n) (c := m) (d := k)
      dsimp only
      constructor
      · intro h
        split at h
        · rename_i e' h2
          obtain rfl := Except.error.inj h
          obtain ⟨vs, m', k', hn, hv, he⟩ := ih.mp h2
          exact ⟨v :: vs, m', k', by simpa using hn, ⟨m, k, (hf ..).mp h1, hv⟩, he⟩
        · cases h
      · rintro ⟨vs, m', k', hn, hv, he⟩
        cases vs with
        | nil => obtain ⟨rfl, rfl⟩ := hv; rw [h1] at he; cases he
        | cons w ws =>
          obtain ⟨m1, k1, hr, hv⟩ := hv
          rw [← hf, h1] at hr
          simp only [Except.ok.injEq, Prod.mk.injEq] at hr
          obtain ⟨rfl, rfl, rfl⟩ := hr
          rw [ih.mpr ⟨ws, m', k', by simpa using hn, hv, he⟩]

/-! ### The decoding function -/

/-- `dec` answers a value exactly where its layout stands. -/
theorem dec_ok_iff {s : State} (hl : s.payload.length = s.plen.toNat) (hd : s.desc.length = s.dcnt.toNat) :
    ∀ {t : Ty} {v : t.Val} {c d c' d' : Nat}, dec s t c d = .ok (v, c', d') ↔ WireAt s t v c d c' d' := by
  have hscalar : ∀ {v : Word} {c d c' d' : Nat}, decScalar s c d = .ok (v, c', d') ↔
      PayloadHas s c (bytes32 s.bo v) ∧ c' = c + 4 ∧ d' = d := by
    intro v c d c' d'
    rw [decScalar_ok, decU32_iff hl, and_assoc]
  intro t
  induction t with
  | int | uint | fixed => exact hscalar
  | string => exact decStringAt_iff hl
  | array => exact decArrayAt_iff hl
  | newid =>
    rintro ⟨name, ver⟩ c d c' d'
    simp only [dec, WireAt, decNewidAt_ok, decStringAt_iff hl, decU32_iff hl]
    constructor
    · rintro ⟨m, ⟨h1, h2⟩, h3, h4⟩; exact ⟨m, h1, h3, h4, h2⟩
    · rintro ⟨m, h1, h3, h4, h2⟩; exact ⟨m, ⟨h1, h2⟩, h3, h4⟩
  | fd =>
    intro h c d c' d'
    have hh : s.descAt d = some h ↔ DescHas s d [h] := by
      unfold State.descAt DescHas
      by_cases hi : d < s.dcnt.toNat
      · have hx := List.getElem?_eq_getElem (l := s.desc) (i := d) (by omega)
        have ht : (s.desc.drop d).take 1 = [s.desc[d]] := by rw [List.take_one, List.head?_drop, hx]; rfl
        simp [hi, hx, ht]
      · simp only [hi, if_false, reduceCtorEq, List.length_cons, List.length_nil, false_iff]
        omega
    simp only [dec, WireAt, decFdAt_ok, hh]
  | seq t ih =>
    intro vs c d c' d'
    rw [dec_seq_ok]
    simp only [decU32_iff hl, and_true, decMany_iff (fun v c d c' d' => ih (v := v)), WireAt]
    constructor
    · rintro ⟨n, hp, hn, he⟩
      have : BitVec.ofNat 32 vs.length = n := by rw [hn, BitVec.ofNat_toNat, BitVec.setWidth_eq]
      exact ⟨by rw [hn]; exact n.isLt, this ▸ hp, he⟩
    · rintro ⟨hn, hp, he⟩
      exact ⟨_, hp, by rw [BitVec.toNat_ofNat, Nat.mod_eq_of_lt hn], he⟩

/-- `dec` fails exactly where no value can be read, as the first failing test says. -/
theorem dec_error_iff {s : State} (hl : s.payload.length = s.plen.toNat) (hd : s.desc.length = s.dcnt.toNat) :
    ∀ {t : Ty} {c d : Nat} {e : Status}, dec s t c d = .error e ↔ FailsAt s t c d e := by
  have hscalar : ∀ {c d : Nat} {e : Status}, decScalar s c d = .error e ↔
      s.plen.toNat < c + 4 ∧ e = .payloadUnderrun := by
    intro c d e
    rw [← decU32_error_iff hl]
    unfold decScalar
    rcases decU32 s c with e | ⟨w, c1⟩ <;> simp
  intro t
  induction t with
  | int | uint | fixed => exact hscalar
  | string => exact decStringAt_error_iff hl
  | array => exact decArrayAt_error_iff hl
  | newid =>
    intro c d e
    simp only [dec, FailsAt, ← decStringAt_error_iff hl (d := d)]
    unfold decNewidAt
    cases hs : decStringAt s c d with
    | error e' =>
      simp only [Except.error.injEq]
      constructor
      · exact .inl
      · rintro (h | ⟨name, m, h, -⟩)
        · exact h
        · rw [(decStringAt_iff hl (d := d)).mpr ⟨h, rfl⟩] at hs; cases hs
    | ok r =>
      obtain ⟨name, m, k⟩ := r
      have hu := fun {e} => decU32_error_iff hl (c := m) (e := e)
      simp only [reduceCtorEq, false_or]
      constructor
      · intro h
        split at h
        · rename_i e' h2
          obtain rfl := Except.error.inj h
          exact ⟨name, m, ((decStringAt_iff hl).mp hs).1, hu.mp h2⟩
        · cases h
      · rintro ⟨name', m', h, hx⟩
        rw [(decStringAt_iff hl (d := d)).mpr ⟨h, rfl⟩] at hs
        simp only [Except.ok.injEq, Prod.mk.injEq] at hs
        obtain ⟨-, rfl, -⟩ := hs
        rw [hu.mpr hx]
  | fd =>
    intro c d e
    simp only [dec, FailsAt, decFdAt, State.descAt]
    split
    · rename_i h
      split at h
      · rw [List.getElem?_eq_none_iff] at h; omega
      · simp [eq_comm]; omega
    · rename_i h
      split at h
      · simp; omega
      · cases h
  | seq t ih =>
    intro c d e
    simp only [dec, FailsAt]
    cases hu : decU32 s c with
    | error e' =>
      obtain ⟨h, rfl⟩ := (decU32_error_iff hl).mp hu
      simp only [Except.error.injEq, h, true_and]
      constructor
      · rintro rfl; exact .inl rfl
      · rintro (rfl | ⟨n, vs, m, k, hp, -⟩)
        · rfl
        · have := hp.1; rw [bytes32_length] at this; omega
    | ok r =>
      obtain ⟨n, c1⟩ := r
      obtain ⟨hp, rfl⟩ := (decU32_iff hl).mp hu
      have h4 : ¬ s.plen.toNat < c + 4 := by have := hp.1; rw [bytes32_length] at this; omega
      simp only [h4, false_and, false_or,
        decMany_error_iff (fun v c d c' d' => dec_ok_iff hl hd (v := v) (c := c) (d := d)), ih]
      constructor
      · rintro ⟨vs, m, k, h⟩; exact ⟨n, vs, m, k, hp, h⟩
      · rintro ⟨n', vs, m, k, hp', h⟩
        exact ⟨vs, m, k, payloadHas_word hp' hp ▸ h⟩

end Sys2Proof.Machine
end

