-- ==== Sys2Proof/Tests/Slice0.lean ====
section
/-! SUPPORT. Tests. Every expected value is written out from spec/: the encodings of files 30 and 40 to 44, the
vectors of 95_test_vectors.md (named by their labels). The last part shows, for every statement with hypotheses,
inputs that meet them together, at the ends of their ranges. -/

namespace Sys2Proof.Tests

open Sys2Proof.Machine Sys2Proof.Safety

/-! ### Small states -/

/-- The state after reset of a block with room for three descriptors, with the strap at a level. -/
def fresh (bo : ByteOrder) : State := { State.reset with bo := bo, strap := bo, descMax := 3 }

/-- A stream that has ended, with the records of one FRAME. -/
def stream (bo : ByteOrder) (rx : List Byte) (rs : List AncRecord) : State :=
  { fresh bo with rx := rx, rxEnd := true, anc := [rs] }

/-- A loaded envelope of sender 1 and opcode 3. -/
def ready (bo : ByteOrder) (payload : List Byte) (desc : List Handle) : State :=
  { fresh bo with
    mode := .ready
    sender := 1
    opcode := 3
    size := BitVec.ofNat 16 (8 + payload.length)
    plen := BitVec.ofNat 16 payload.length
    payload := payload
    desc := desc
    dcnt := BitVec.ofNat 32 desc.length }

/-- A message of sender 1 and opcode 3 under construction. -/
def building (bo : ByteOrder) (payload : List Byte) (desc : List Handle) : State :=
  { fresh bo with
    txmode := .txOpen
    txsender := 1
    txopcode := 3
    txbuf := payload
    txlen := BitVec.ofNat 16 payload.length
    txdesc := desc
    txdcnt := BitVec.ofNat 32 desc.length }

/-- A block that a type-contract violation has put into `DEAD`. -/
def dead : State := { fresh .le with mode := .dead, err := 0x40, errinfo := 0x00000910 }

/-- The command is at the command port. -/
def given (s : State) (w : Word) (ops : List Word) : State := { s with cmdPort := [⟨w, ops⟩] }

/-- The state after the one step that carries the command out. -/
def after (s : State) (w : Word) (ops : List Word) : Option State :=
  match step (given s w ops) with
  | .next t => some t
  | _ => none

/-- The command answers the outputs and changes nothing. -/
def answersOnly (s : State) (w : Word) (ops : List Word) (os : List Output) : Bool :=
  after s w ops == some { s with out := os }

/-- The command leads to this state. -/
def leads (s : State) (w : Word) (ops : List Word) (t : State) : Bool := after s w ops == some t

/-- The command ends with this `MODE`, these error registers and these outputs. -/
def fails (s : State) (w : Word) (ops : List Word) (m : Mode) (err : Byte) (info : Word) (os : List Output) : Bool :=
  (after s w ops).map (fun t => (t.mode, t.err, t.errinfo, t.out)) == some (m, err, info, os)

/-- The command answers `OK` with these items and leaves `READY` with these cursors. -/
def reads (s : State) (w : Word) (cur : Half) (dcur : Word) (is : List Item) : Bool :=
  leads s w [] { s with cur := cur, dcur := dcur, out := [.response .ok is] }

/-- The command answers `OK` and leaves this message under construction. -/
def sends (s : State) (w : Word) (ops : List Word) (buf : List Byte) (desc : List Handle) : Bool :=
  leads s w ops { building s.bo buf desc with out := [.response .ok []] }

/-! ### WellFormed refuses -/

theorem test_wf_seq_depth_zero : (Instr.decSeq 0 1).wf = false ∧ (Instr.encSeq 0 1 [.word 0]).wf = false := by
  decide

theorem test_wf_long_bytes (bs : List Byte) (h : bs.length = 65536) :
    (Instr.encString bs).wf = false ∧ (Instr.encArray bs).wf = false ∧ (Instr.encNewid bs 1).wf = false ∧
    (Instr.encSeq 1 4 [.word 1, .bytes bs]).wf = false := by
  simp [Instr.wf, itemFits, shapeOk, typeOf, baseTy, seqOf, h]

theorem test_wf_seq_count : (Instr.encSeq 1 1 [.word 2, .word 5]).wf = false ∧
    (Instr.encSeq 1 1 [.word 1, .word 5, .word 6]).wf = false ∧ (Instr.encSeq 1 1 []).wf = false := by decide

theorem test_wf_seq_item_kind : (Instr.encSeq 1 6 [.word 1, .word 5]).wf = false ∧
    (Instr.encSeq 1 3 [.word 1, .handle 5]).wf = false := by decide

theorem test_wf_unsupported_items : (Instr.encSeq 1 7 [.word 0]).wf = false ∧ (Instr.encSeq 1 7 []).wf = true := by
  decide

/-! ### Decoding: the words that the Encoding lines of files 40 to 44 give -/

theorem test_decode_framer : decode ⟨0x00000001, []⟩ = .ok .frame ∧ decode ⟨0x00000002, []⟩ = .ok .discard ∧
    decode ⟨0xFFFF0003, []⟩ = .ok (.skip 0xFFFF) ∧ decode ⟨0x00140008, []⟩ = .ok (.rdreg 0x14) := by decide

theorem test_decode_dec : decode ⟨0x00000010, []⟩ = .ok .decInt ∧ decode ⟨0x00000110, []⟩ = .ok .decUint ∧
    decode ⟨0x00000210, []⟩ = .ok .decFixed ∧ decode ⟨0x00000310, []⟩ = .ok .decString ∧
    decode ⟨0x00000410, []⟩ = .ok .decArray ∧ decode ⟨0x00000510, []⟩ = .ok .decNewid ∧
    decode ⟨0x00000610, []⟩ = .ok .decFd ∧ decode ⟨0x00002311, []⟩ = .ok (.decSeq 2 3) ∧
    decode ⟨0x0000F611, []⟩ = .ok (.decSeq 15 6) := by decide

theorem test_decode_enc : decode ⟨0x00030020, [1]⟩ = .ok (.encBegin 3 1) ∧
    decode ⟨0x00000021, [0xFFFFFFFE]⟩ = .ok (.encInt 0xFFFFFFFE) ∧ decode ⟨0x00000121, [42]⟩ = .ok (.encUint 42) ∧
    decode ⟨0x00000221, [0x180]⟩ = .ok (.encFixed 0x180) ∧
    decode ⟨0x00000321, [5, 0x6C6C6568, 0x0000006F]⟩ = .ok (.encString [0x68, 0x65, 0x6C, 0x6C, 0x6F]) ∧
    decode ⟨0x00000421, [3, 0x00BEADDE]⟩ = .ok (.encArray [0xDE, 0xAD, 0xBE]) ∧
    decode ⟨0x00000521, [1, 0x00000061, 7]⟩ = .ok (.encNewid [0x61] 7) ∧
    decode ⟨0x00000621, [0x2A]⟩ = .ok (.encFd 0x2A) ∧ decode ⟨0x00000023, []⟩ = .ok .encEnd := by decide

theorem test_decode_encSeq :
    decode ⟨0x00001122, [3, 1, 2, 3]⟩ = .ok (.encSeq 1 1 [.word 3, .word 1, .word 2, .word 3]) ∧
    decode ⟨0x00002122, [2, 0, 1, 5]⟩ = .ok (.encSeq 2 1 [.word 2, .word 0, .word 1, .word 5]) ∧
    decode ⟨0x00001322, [2, 1, 0x61, 3, 0x00646362]⟩ =
      .ok (.encSeq 1 3 [.word 2, .bytes [0x61], .bytes [0x62, 0x63, 0x64]]) ∧
    decode ⟨0x00001622, [2, 0x31, 0x32]⟩ = .ok (.encSeq 1 6 [.word 2, .handle 0x31, .handle 0x32]) := by decide

theorem test_decode_fx : decode ⟨0x00000030, [5]⟩ = .ok (.fxFromint 5) ∧
    decode ⟨0x00000031, [0xF01B866E, 0x400921F9]⟩ = .ok (.fxFromfloat 0x400921F9F01B866E) ∧
    decode ⟨0x00000032, [5]⟩ = .ok (.fxInteger 5) ∧ decode ⟨0x00000033, [5]⟩ = .ok (.fxFraction 5) ∧
    decode ⟨0x00000034, [5]⟩ = .ok (.fxFloat 5) := by decide

/-- X3 to X7 and X17. -/
theorem test_decode_malformed : ([⟨0x00000108, []⟩, ⟨0x00000000, []⟩, ⟨0x00000004, []⟩, ⟨0x00000024, []⟩,
      ⟨0x000000FF, []⟩, ⟨0x00010010, []⟩, ⟨0x00001010, []⟩, ⟨0x00000111, []⟩, ⟨0x00000030, []⟩,
      ⟨0x00000030, [1, 2]⟩, ⟨0x00000001, [0]⟩, ⟨0x00000421, [3]⟩, ⟨0x00000421, [65536]⟩,
      ⟨0x00001122, [2, 5]⟩] : List Packet).all (fun p =>
    answersOnly (ready .le [1, 2, 3, 4] [7]) p.word p.operands [.response .badCmd []]) = true := by decide +kernel

theorem test_encode_words : encode (.fxFromfloat 0x3FF8000000000000) = ⟨0x00000031, [0, 0x3FF80000]⟩ ∧
    encode (.encNewid [0x77, 0x6C, 0x5F, 0x73, 0x65, 0x61, 0x74] 7) =
      ⟨0x00000521, [7, 0x735F6C77, 0x00746165, 7]⟩ ∧ encode (.skip 8) = ⟨0x00080003, []⟩ := by decide

theorem test_table_words : decodeTableWord 32 0x00000031 = some (.fxFromfloat 0) ∧
    decodeTableWord 32 0x00000521 = some (.encNewid [] 0) ∧ decodeTableWord 32 0x00001122 = some (.encSeq 1 1 [.word 0]) ∧
    (∃ t, step (State.reset.withFetchWord 32 0x00050008) = .next t ∧ t.out = [.response .ok [.word 0]]) :=
  ⟨by decide, by decide, by decide, _, rfl, by decide⟩

/-! ### The framer -/

/-- F1, F2, F9. -/
theorem test_frame_loads :
    after (stream .le [1, 0, 0, 0, 3, 0, 0x10, 0, 0x2A, 0, 0, 0, 7, 0, 0, 0] []) 0x00000001 [] =
      some { ready .le [0x2A, 0, 0, 0, 7, 0, 0, 0] [] with
        rxEnd := true, out := [.response .ok [.word 1, .word 3, .word 16]] } ∧
    after (stream .be [0, 0, 0, 1, 0, 0x10, 0, 3, 0, 0, 0, 0x2A, 0, 0, 0, 7] []) 0x00000001 [] =
      some { ready .be [0, 0, 0, 0x2A, 0, 0, 0, 7] [] with
        rxEnd := true, out := [.response .ok [.word 1, .word 3, .word 16]] } ∧
    after (stream .le [1, 0, 0, 0, 3, 0, 8, 0] [.rights [0x41], .notRights, .rights [0x42, 0x43]]) 0x00000001 [] =
      some { ready .le [] [0x41, 0x42, 0x43] with
        rxEnd := true, out := [.response .ok [.word 1, .word 3, .word 8]] } := by decide

/-- F4, F5, F6, F7, F8, F10, F11. -/
theorem test_frame_fails :
    fails (stream .le [1, 0, 0, 0, 3, 0, 7, 0] []) 0x00000001
      [] .dead 0x20 0x00070003 [.response .badSize []] = true ∧
    fails (stream .le [9, 0, 0, 0, 0, 0, 0, 0] []) 0x00000001 [] .dead 0x20 0 [.response .badSize []] = true ∧
    fails (stream .le [] []) 0x00000001 [] .dead 0x10 0 [.response .hdrRead []] = true ∧
    fails (stream .le [1, 0, 0, 0, 3] []) 0x00000001 [] .dead 0x10 5 [.response .hdrRead []] = true ∧
    fails (stream .le [1, 0, 0, 0, 3, 0, 0x10, 0, 1, 2, 3] []) 0x00000001
      [] .dead 0x21 3 [.response .shortPayload []] = true ∧
    fails (stream .le [1, 0, 0, 0, 3, 0, 8, 0] [.rights [0x41, 0x42], .notRights, .bad, .rights [0x43]])
        0x00000001 [] .dead 0x22 2 [.close 0x41, .close 0x42, .response .ancParse []] = true ∧
    fails (stream .be [1, 0, 0, 0, 3, 0, 0x10, 0, 0x2A, 0, 0, 0, 7, 0, 0, 0] []) 0x00000001
      [] .dead 0x21 8 [.response .shortPayload []] = true := by decide

/-- 93_implementation_defined.md U7, with room for three descriptors. -/
theorem test_frame_capacity :
    fails (stream .le [1, 0, 0, 0, 3, 0, 8, 0] [.rights [0x41, 0x42], .notRights, .rights [0x43, 0x44], .rights [0x45]])
      0x00000001 [] .dead 0x22 2
      [.close 0x41, .close 0x42, .close 0x43, .close 0x44, .response .ancParse []] = true := by decide

/-- F14, and a FRAME that holds for its last byte (40_framer.md R137). -/
theorem test_frame_refused_or_holds : answersOnly dead 0x00000001 [] [.response .badMode []] = true ∧
    after { fresh .le with rx := [1, 0, 0, 0, 3, 0, 9, 0], agenda := [.deliver [5]] } 0x00000001 [] =
      some (given { fresh .le with rx := [1, 0, 0, 0, 3, 0, 9, 0, 5] } 0x00000001 []) := by decide

/-- The example of 40_framer.md R132; DISCARD in `IDLE` changes nothing. -/
theorem test_discard :
    after { ready .le [1, 2, 3, 4] [7, 9] with dcur := 1 } 0x00000002 [] =
      some { fresh .le with leak := true, leakcnt := 1, out := [.close 9, .response .ok [.word 1]] } ∧
    answersOnly { fresh .le with leakcnt := 5 } 0x00000002 [] [.response .ok [.word 0]] = true := by decide

/-- The example of 40_framer.md R133, and SKIP 0 in `DECODE_FAULT`. -/
theorem test_skip :
    let s := { ready .le [0, 0, 0, 0, 0, 0, 0, 0, 0, 0, 0, 0, 0, 0, 0, 0] [7] with cur := 4 }
    reads s 0x00080003 12 0 [] = true ∧
    fails { s with cur := 12 } 0x00080003 [] .decodeFault 0x32 12 [.response .payloadUnderrun []] = true ∧
    answersOnly { s with mode := .decodeFault, err := 0x32 } 0x00000003 [] [.response .badMode []] = true := by decide

/-! ### The decoder: V1 to V23, S1 to S5 -/

theorem test_dec_scalars :
    reads (ready .le [0xFE, 0xFF, 0xFF, 0xFF] []) 0x00000010 4 0 [.word 0xFFFFFFFE] = true ∧
    reads (ready .be [0xFF, 0xFF, 0xFF, 0xFE] []) 0x00000010 4 0 [.word 0xFFFFFFFE] = true ∧
    reads (ready .le [0x2A, 0, 0, 0] []) 0x00000110 4 0 [.word 42] = true ∧
    reads (ready .le [0x80, 0xFF, 0xFF, 0xFF] []) 0x00000210 4 0 [.word 0xFFFFFF80] = true := by decide

theorem test_dec_scalars_underrun :
    ([0x00000010, 0x00000110, 0x00000210] : List Word).all (fun w =>
      fails (ready .le [1, 2, 3] []) w [] .decodeFault 0x32 0 [.response .payloadUnderrun []]) = true := by
  decide +kernel

/-- V6, V7, V8, V9. -/
theorem test_decString :
    reads (ready .le [6, 0, 0, 0, 0x68, 0x65, 0x6C, 0x6C, 0x6F, 0, 0, 0] []) 0x00000310
      12 0 [.bytes [0x68, 0x65, 0x6C, 0x6C, 0x6F]] = true ∧
    reads (ready .le [1, 0, 0, 0, 0, 0xAA, 0xBB, 0xCC] []) 0x00000310 8 0 [.bytes []] = true ∧
    reads (ready .le [5, 0, 0, 0, 0x61, 0x62, 0x63, 0x64, 0, 9, 9, 9] []) 0x00000310
      12 0 [.bytes [0x61, 0x62, 0x63, 0x64]] = true ∧
    reads (ready .le [4, 0, 0, 0, 0x61, 0, 0x62, 0] []) 0x00000310
      8 0 [.bytes [0x61, 0, 0x62]] = true := by decide

/-- V10, V11, V12, V13, V14. -/
theorem test_decString_fails :
    fails (ready .le [0, 0, 0, 0] []) 0x00000310 [] .decodeFault 0x30 0 [.response .malformedString []] = true ∧
    fails (ready .le [5, 0, 0, 0, 0x61, 0x62, 0x63, 0x64, 0x65, 0, 0, 0] []) 0x00000310
      [] .decodeFault 0x30 0 [.response .malformedString []] = true ∧
    fails (ready .le [5, 0, 0, 0, 0x61, 0x62, 0x63, 0x64, 0x65] []) 0x00000310
      [] .decodeFault 0x32 0 [.response .payloadUnderrun []] = true ∧
    fails (ready .le [1, 0, 0, 0, 0] []) 0x00000310
      [] .decodeFault 0x32 0 [.response .payloadUnderrun []] = true ∧
    fails (ready .le [0xFF, 0xFF, 0xFF, 0xFF, 0, 0, 0, 0] []) 0x00000310
      [] .decodeFault 0x32 0 [.response .payloadUnderrun []] = true := by decide

/-- V15, V16, V17, V18. -/
theorem test_decArray :
    reads (ready .le [3, 0, 0, 0, 0xDE, 0xAD, 0xBE, 0x99] []) 0x00000410
      8 0 [.bytes [0xDE, 0xAD, 0xBE]] = true ∧
    reads (ready .le [0, 0, 0, 0] []) 0x00000410 4 0 [.bytes []] = true ∧
    reads (ready .le [4, 0, 0, 0, 1, 2, 3, 4] []) 0x00000410 8 0 [.bytes [1, 2, 3, 4]] = true ∧
    fails (ready .le [3, 0, 0, 0, 0xDE, 0xAD, 0xBE] []) 0x00000410
      [] .decodeFault 0x32 0 [.response .payloadUnderrun []] = true := by decide

/-- V19, V20, V21. -/
theorem test_decNewid :
    reads (ready .le [8, 0, 0, 0, 0x77, 0x6C, 0x5F, 0x73, 0x65, 0x61, 0x74, 0, 7, 0, 0, 0] []) 0x00000510
      16 0 [.bytes [0x77, 0x6C, 0x5F, 0x73, 0x65, 0x61, 0x74], .word 7] = true ∧
    reads (ready .be [0, 0, 0, 8, 0x77, 0x6C, 0x5F, 0x73, 0x65, 0x61, 0x74, 0, 0, 0, 0, 7] []) 0x00000510
      16 0 [.bytes [0x77, 0x6C, 0x5F, 0x73, 0x65, 0x61, 0x74], .word 7] = true ∧
    after (ready .le [8, 0, 0, 0, 0x77, 0x6C, 0x5F, 0x73, 0x65, 0x61, 0x74, 0] []) 0x00000510 [] =
      some { ready .le [8, 0, 0, 0, 0x77, 0x6C, 0x5F, 0x73, 0x65, 0x61, 0x74, 0] [] with
        mode := .decodeFault, err := 0x32, out := [.response .payloadUnderrun []] } := by decide

/-- V22, V23. -/
theorem test_decFd :
    reads (ready .le [] [0x51]) 0x00000610 0 1 [.handle 0x51] = true ∧
    fails (ready .le [0x2A, 0, 0, 0] []) 0x00000610
      [] .decodeFault 0x31 0 [.response .descUnderflow []] = true := by decide

/-- S1, S2, S3, S4, S5. -/
theorem test_decSeq :
    reads (ready .le [3, 0, 0, 0, 1, 0, 0, 0, 2, 0, 0, 0, 3, 0, 0, 0] []) 0x00001111
      16 0 [.word 3, .word 1, .word 2, .word 3] = true ∧
    reads (ready .be [0, 0, 0, 2, 0, 0, 0, 2, 0x61, 0, 0, 0, 0, 0, 0, 4, 0x62, 0x63, 0x64, 0] []) 0x00001311
      20 0 [.word 2, .bytes [0x61], .bytes [0x62, 0x63, 0x64]] = true ∧
    reads (ready .le [2, 0, 0, 0, 0, 0, 0, 0, 1, 0, 0, 0, 5, 0, 0, 0] []) 0x00002111
      16 0 [.word 2, .word 0, .word 1, .word 5] = true ∧
    reads (ready .le [0, 0, 0, 0] []) 0x00001311 4 0 [.word 0] = true ∧
    reads (ready .le [2, 0, 0, 0] [0x31, 0x32]) 0x00001611
      4 2 [.word 2, .handle 0x31, .handle 0x32] = true := by decide

/-- The failures of 95_test_vectors.md section 2.5, X9 to X11 on a sequence type, and a refusal in `IDLE`. -/
theorem test_decSeq_fails :
    after (ready .le [3, 0, 0, 0] [0x51, 0x52]) 0x00001611 [] =
      some { ready .le [3, 0, 0, 0] [0x51, 0x52] with
        mode := .decodeFault, err := 0x31, out := [.response .descUnderflow []] } ∧
    fails (ready .le [0xFF, 0xFF, 0xFF, 0xFF, 1, 0, 0, 0] []) 0x00001111
      [] .decodeFault 0x32 0 [.response .payloadUnderrun []] = true ∧
    fails (ready .le [1, 0, 0, 0, 5, 0, 0, 0, 0x61, 0x62, 0x63, 0x64, 0x65, 0, 0, 0] []) 0x00001311
      [] .decodeFault 0x30 0 [.response .malformedString []] = true ∧
    fails (fresh .le) 0x00001711 [] .dead 0x40 0x00001711 [.response .typeContract []] = true ∧
    answersOnly (fresh .le) 0x00001111 [] [.response .badMode []] = true := by decide

/-- X9, X10, X11, X12. -/
theorem test_type_contract :
    after (fresh .le) 0x00000910 [] = some { dead with out := [.response .typeContract []] } ∧
    after (ready .le [1, 2, 3, 4] [1, 2]) 0x00000910 [] =
      some { dead with
        leak := true, leakcnt := 2, out := [.close 1, .close 2, .response .typeContract []] } ∧
    answersOnly dead 0x00000910 [] [.response .badMode []] = true ∧
    fails (fresh .le) 0x00000721
      [1, 2, 3] .dead 0x40 0x00000721 [.response .typeContract []] = true := by decide

/-! ### The encoder -/

/-- The first lines of 95_test_vectors.md section 2.6, and X15. -/
theorem test_encBegin :
    after { building .le [1, 2, 3, 4] [7] with txmode := .txFault, txerr := 0x50 } 0x00030020 [1] =
      some { building .le [] [] with out := [.response .ok []] } ∧
    answersOnly dead 0x00030020 [1] [.response .badMode []] = true := by decide

theorem test_enc_scalars :
    sends (building .le [] []) 0x00000021 [0xFFFFFFFE] [0xFE, 0xFF, 0xFF, 0xFF] [] = true ∧
    sends (building .be [] []) 0x00000021 [0xFFFFFFFE] [0xFF, 0xFF, 0xFF, 0xFE] [] = true ∧
    sends (building .le [9, 9, 9, 9] []) 0x00000121 [42] [9, 9, 9, 9, 0x2A, 0, 0, 0] [] = true ∧
    sends (building .le [] []) 0x00000221 [0x180] [0x80, 1, 0, 0] [] = true ∧
    answersOnly (fresh .le) 0x00000121 [1] [.response .badMode []] = true := by decide

/-- The examples of 43_encode.md R205, R206, R207, R208. -/
theorem test_enc_fields :
    sends (building .le [] []) 0x00000321
      [5, 0x6C6C6568, 0x6F] [6, 0, 0, 0, 0x68, 0x65, 0x6C, 0x6C, 0x6F, 0, 0, 0] [] = true ∧
    sends (building .le [] []) 0x00000421 [3, 0x00BEADDE] [3, 0, 0, 0, 0xDE, 0xAD, 0xBE, 0] [] = true ∧
    sends (building .le [] []) 0x00000521
      [7, 0x735F6C77, 0x00746165, 7] [8, 0, 0, 0, 0x77, 0x6C, 0x5F, 0x73, 0x65, 0x61, 0x74, 0, 7, 0, 0, 0] [] = true ∧
    sends (building .le [] [7]) 0x00000621 [9] [] [7, 9] = true := by decide

/-- S2 and S5, and the size limit of section 2.6. -/
theorem test_encSeq :
    sends (building .le [] []) 0x00001322
      [2, 1, 0x61, 3, 0x00646362] [2, 0, 0, 0, 2, 0, 0, 0, 0x61, 0, 0, 0, 4, 0, 0, 0, 0x62, 0x63, 0x64, 0] [] = true ∧
    sends (building .be [] []) 0x00001622 [2, 0x31, 0x32] [0, 0, 0, 2] [0x31, 0x32] = true ∧
    after { building .le [] [7] with txlen := 65524 } 0x00001622 [0] =
      some { building .le [] [7] with
        txlen := 65524, txmode := .txFault, txerr := 0x50, out := [.response .encOverflow []] } := by decide

/-- The example of 43_encode.md R210 in both byte orders. -/
theorem test_encEnd :
    after (building .le [0x2A, 0, 0, 0, 7, 0, 0, 0] [0x31]) 0x00000023 [] =
      some { fresh .le with
        out := [.txEmit [1, 0, 0, 0, 3, 0, 0x10, 0, 0x2A, 0, 0, 0, 7, 0, 0, 0] [0x31],
          .response .ok [.word 16]] } ∧
    (after (building .be [0, 0, 0, 0x2A, 0, 0, 0, 7] []) 0x00000023 []).map (·.out) =
      some [.txEmit [0, 0, 0, 1, 0, 0x10, 0, 3, 0, 0, 0, 0x2A, 0, 0, 0, 7] [], .response .ok [.word 16]] ∧
    answersOnly (fresh .le) 0x00000023 [] [.response .badMode []] = true := by decide

/-! ### The fixed-point converter: the tables of 95_test_vectors.md section 2.2 -/

theorem test_fxFromint : ([(0, 0), (5, 0x500), (0xFFFFFFFF, 0xFFFFFF00), (0x007FFFFF, 0x7FFFFF00),
      (0xFF800000, 0x80000000), (0x00800000, 0x80000000), (16777219, 0x300), (0x80000000, 0),
      (0x7FFFFFFF, 0xFFFFFF00)] : List (Word × Word)).all (fun p =>
    answersOnly dead 0x00000030 [p.1] [.response .ok [.word p.2]]) = true := by decide +kernel

theorem test_fxFromfloat : ([(0x0000000000000000, 0), (0x8000000000000000, 0), (0x3FF8000000000000, 0x180),
      (0xBFF8000000000000, 0xFFFFFF80), (0xBFE0000000000000, 0x80), (0xC014000000000000, 0xFFFFFB00),
      (0x3F60000000000000, 1), (0x3F78000000000000, 2), (0x3F50000000000000, 0), (0x400921F9F01B866E, 0x324),
      (0xC00921F9F01B866E, 0xFFFFFD24), (0x412E848033333333, 0x0F42401A), (0x3FEFF00000000000, 0x100),
      (0x3FFFFBE76C8B4396, 0x100), (0x4007FDF3B645A1CB, 0x300), (0xC007FDF3B645A1CB, 0xFFFFFF00),
      (0x415FFFFFFFC00000, 0x7FFFFFFF), (0xC160000000000000, 0x80000000), (0x4160000010000000, 0x80000080),
      (0x41DFFFFFFFE00000, 0xFFFFFF80), (0xC1E0000000000000, 0)] : List (F64 × Word)).all (fun p =>
    fixedOfF64 p.1 = some p.2) = true := by decide +kernel

/-- The last three rows of the FX.FROMFLOAT table, and -Inf: status `OK` and one word of which nothing is said. -/
theorem test_fxFromfloat_open : ∀ p ∈ ([[0x00000000, 0x41E00000], [0x00000000, 0x7FF80000],
      [0x00000000, 0x7FF00000], [0x00000000, 0xFFF00000]] : List (List Word)),
    ∃ w, after dead 0x00000031 p = some { dead with draws := 1, out := [.response .ok [.word w]] } := by
  intro p hp
  simp only [List.mem_cons, List.not_mem_nil, or_false] at hp
  rcases hp with rfl | rfl | rfl | rfl <;> exact ⟨_, rfl⟩

theorem test_fxInteger_fxFraction : ([(0x500, 5, 0), (0x80, 0, 128), (0x1C0, 1, 192),
      (0xFFFFFF80, 0xFFFFFFFF, 128), (0xFFFFFE40, 0xFFFFFFFE, 64), (0x80000000, 0xFF800000, 0),
      (0x7FFFFFFF, 0x007FFFFF, 255)] : List (Word × Word × Word)).all (fun p =>
    answersOnly dead 0x00000032 [p.1] [.response .ok [.word p.2.1]] &&
      answersOnly dead 0x00000033 [p.1] [.response .ok [.word p.2.2]]) = true := by decide +kernel

theorem test_fxFloat : ([(0x500, 0x4014000000000000), (0x80, 0x3FE0000000000000), (1, 0x3F70000000000000),
      (0x1C0, 0x3FFC000000000000), (0xFFFFFF80, 0xBFE0000000000000), (0xFFFFFFFF, 0xBF70000000000000),
      (0xFFFFFE40, 0xBFFC000000000000), (0xFFFFFB00, 0xC014000000000000), (0x80000000, 0xC160000000000000),
      (0x7FFFFFFF, 0x415FFFFFFFC00000), (0x324, 0x4009200000000000), (0, 0)] : List (Word × F64)).all (fun p =>
    answersOnly dead 0x00000034 [p.1] [.response .ok [.f64 p.2]]) = true := by decide +kernel

/-! ### Registers and reset -/

/-- The `STATUS` values of section 2.7, X1, X2, X14. -/
theorem test_rdreg :
    answersOnly (fresh .le) 0x00010008 [] [.response .ok [.word 0]] = true ∧
    answersOnly { building .le [] [] with mode := .decodeFault, leak := true } 0x00010008 []
      [.response .ok [.word 0x16]] = true ∧
    answersOnly { dead with leak := true } 0x00010008 [] [.response .ok [.word 0x13]] = true ∧
    answersOnly { ready .le [] [] with txmode := .txFault } 0x00010008 [] [.response .ok [.word 9]] = true ∧
    answersOnly (ready .le [1, 2, 3, 4, 5, 6, 7, 8] []) 0x00070008 [] [.response .ok [.word 8]] = true ∧
    answersOnly dead 0x00020008 [] [.response .ok [.word 0x40]] = true ∧
    answersOnly (fresh .be) 0x00000008 [] [.response .ok [.word 1]] = true := by decide

theorem test_rdreg_reserved : ([0x000C0008, 0x000F0008, 0x00150008, 0xFFFF0008] : List Word).all (fun w =>
    answersOnly dead w [] [.response .badReg []]) = true := by decide +kernel

/-- Reset takes the strap, keeps the stream, emits nothing and abandons a FRAME that holds (70 R280 to R282). -/
theorem test_reset :
    leads { ready .le [1, 2] [7] with rx := [1], strap := .be, leak := true, resetIn := true } 0x00000001 []
      { fresh .be with rx := [1] } = true := by decide

/-! ### Inputs that meet the hypotheses of the statements -/

/-- A command runs to a next state. -/
abbrev Runs (i : Instr) (s : State) : Prop := ∃ t, exec i s = .next t

theorem witness_DecodeInvertsEncode :
    WellFormed (.encSeq 2 6 [.word 2, .word 0, .word 1, .handle 7]) ∧ WellFormed (.decSeq 15 15) := by decide

theorem witness_DecodedWordIsTheInstructions : decode ⟨0x0000FF11, []⟩ = .ok (.decSeq 15 15) := by decide

theorem witness_PrintedWordsDecode :
    ((1 : BitVec 4) ≠ 0 ∧ (0 : BitVec 4).toNat < 7) ∧ (15 : BitVec 4) ≠ 0 ∧ (6 : BitVec 4).toNat < 7 := by decide

theorem witness_MalformedWordsRejected :
    opField 0x00000035 ∉ [0x01, 0x02, 0x03, 0x08, 0x10, 0x11, 0x20, 0x21, 0x22, 0x23, 0x30, 0x31, 0x32, 0x33, 0x34] ∧
    (opField 0x00000101 = 0x01 ∧ baseField 0x00000101 = 1) ∧ (opField 0x0000F034 = 0x34 ∧ depthField 0x0000F034 = 15) ∧
    (opField 0x00010023 = 0x23 ∧ immField 0x00010023 = 1) ∧ (opField 0x00000F08 = 0x08 ∧ baseField 0x00000F08 = 15) ∧
    (opField 0xFFFF0022 = 0x22 ∧ immField 0xFFFF0022 = 0xFFFF) ∧
    (opField 0x00001021 = 0x21 ∧ immField 0x00001021 = 0 ∧ depthField 0x00001021 = 1) ∧
    (opField 0x00000011 = 0x11 ∧ immField 0x00000011 = 0 ∧ depthField 0x00000011 = 0) := by decide

theorem witness_ResponsePacketReadsBack :
    let v : (Ty.seq .newid).Val := [([0x61], 7), ([], 0xFFFFFFFF)]
    countsFit (.seq .newid) v = true ∧ (items (.seq .newid) v).all itemFits = true := by decide

theorem witness_StringFieldLayout : (stringBytes .be [0x61])[6]? = some 0x00 ∧ [(0x61 : Byte)].length + 5 ≤ 6 := by
  decide

theorem witness_DecodingInvertsEncoding :
    let s := ready .be [0xFF, 0, 0, 0, 2] [6, 7, 9]
    let v : (Ty.seq .fd).Val := [7, 9]
    countsFit (.seq .fd) v = true ∧ PayloadHas s 1 (enc s.bo (.seq .fd) v).1 ∧ s.payload.length = s.plen.toNat ∧
    DescHas s 1 (enc s.bo (.seq .fd) v).2 ∧ s.desc.length = s.dcnt.toNat := by decide

theorem witness_StepRunsDecodedInstruction :
    let s := given (fresh .le) 0x00070008 []
    s.resetIn = false ∧ s.cmdPort = ⟨0x00070008, []⟩ :: [] ∧ decode ⟨0x00070008, []⟩ = .ok (.rdreg 7) := by decide

/-- FX.FROMINT with one operand beat, with none and with two (X17); an array of 3 bytes with its data beat and
one beat more; a count of 2 with one element. -/
theorem witness_MalformedWordsRejected_operands :
    (FieldsFit 0x00000030 ∧ FieldsFit 0x00000421 ∧ FieldsFit 0x00001122) ∧
    (OperandsFit 0x00000030 [1] ∧ ¬ OperandsFit 0x00000030 [] ∧ ¬ OperandsFit 0x00000030 [1, 2]) ∧
    (OperandsFit 0x00000421 [3, 0x00BEADDE] ∧ ¬ OperandsFit 0x00000421 [3, 0x00BEADDE, 0]) ∧
    (OperandsFit 0x00001122 [1, 5] ∧ ¬ OperandsFit 0x00001122 [2, 5]) := by
  refine ⟨by decide, ⟨rfl, nofun, nofun⟩, ⟨⟨3, [0x00BEADDE], rfl, by decide, rfl⟩, ?_⟩,
    ⟨1, [[5]], rfl, rfl, by simp [ValueBeats, seqOf]⟩, ?_⟩
  · rintro ⟨n, r, h, -, hr⟩
    injection h with h1 h2
    subst h1 h2
    exact absurd hr (by decide)
  · rintro ⟨n, parts, h, hn, hp⟩
    injection h with h1 h2
    subst h1
    match parts, hn with
    | [a, b], _ =>
      have ha : a.length = 1 := hp a (by simp)
      have hb : b.length = 1 := hp b (by simp)
      have hl := congrArg List.length h2
      simp [ha, hb] at hl

theorem witness_MalformedCommandRefused :
    let s := given (ready .le [] [7]) 0x00000000 []
    s.resetIn = false ∧ s.cmdPort = ⟨0x00000000, []⟩ :: [] ∧ decode ⟨0x00000000, []⟩ = .error .reservedOp ∧
    ∀ w, Reject.reservedOp ≠ .unsupportedType w := ⟨rfl, rfl, by decide, nofun⟩

theorem witness_UnsupportedTypeEntersDead :
    let p : Packet := ⟨0x00000721, [1]⟩
    let q : Packet := ⟨0x0000FF11, []⟩
    (given (ready .le [] [7]) 0x00000721 [1]).resetIn = false ∧ immField p.word = 0 ∧ 7 ≤ (baseField p.word).toNat ∧
    opField p.word = 0x21 ∧ depthField p.word = 0 ∧ (ready .le [] [7]).mode ≠ .dead ∧
    immField q.word = 0 ∧ 7 ≤ (baseField q.word).toNat ∧ opField q.word = 0x11 ∧ depthField q.word ≠ 0 ∧
    dead.mode = .dead := by decide

theorem witness_StepKeepsInvariant :
    BlockOk (given (ready .le [1, 2, 3, 4] [7]) 0x00000010 []) ∧
    (∃ t, step (given (ready .le [1, 2, 3, 4] [7]) 0x00000010 []) = .next t ∧ t ≠ ready .le [1, 2, 3, 4] [7]) ∧
    BlockOk { dead with resetIn := true } ∧ (∃ t, step { dead with resetIn := true } = .next t) :=
  ⟨⟨by decide, by decide, by decide⟩, ⟨_, rfl, by decide⟩, ⟨by decide, by decide, by decide⟩, _, rfl⟩

theorem witness_ResetInputRestoresBlock : ({ dead with resetIn := true } : State).resetIn = true := rfl

theorem witness_IdleBlockWaits :
    (fresh .le).resetIn = false ∧ (fresh .le).cmdPort = [] ∧ (fresh .le).agenda = [] := by decide

theorem witness_DeadLeftOnlyByReset :
    (dead.resetIn = false ∧ dead.mode = .dead ∧ ∃ t, step (given dead 0x00000001 []) = .next t) ∧
    ∃ t, step { dead with resetIn := true } = .next t :=
  ⟨⟨rfl, rfl, _, rfl⟩, _, rfl⟩

theorem witness_ByteOrderFixedBetweenResets :
    (∃ t, step { dead with strap := .be, resetIn := true } = .next t) ∧ ∃ t, step { dead with strap := .be } = .next t :=
  ⟨⟨_, rfl⟩, _, rfl⟩

theorem witness_LeakIsSticky :
    (∃ t, step (given { dead with leak := true } 0x00000001 []) = .next t ∧ t.leak = true) ∧
    (∃ t, step (given (ready .le [] [7]) 0x00000002 []) = .next t ∧ (ready .le [] [7]).leak = false ∧ t.leak = true) :=
  ⟨⟨_, rfl, rfl⟩, _, rfl, rfl, by decide⟩

theorem witness_CursorsMoveForward :
    let s := ready .le [1, 2, 3, 4] [7]
    BlockOk s ∧ s.loaded = true ∧ Instr.decInt ≠ .frame ∧ Instr.decInt ≠ .discard ∧ typeSupported .decInt = true ∧
    Runs .decInt s := ⟨⟨by decide, by decide, by decide⟩, by decide, by decide, by decide, rfl, _, rfl⟩

theorem witness_ModesMoveByCommand :
    Runs .frame (stream .le [1] []) ∧ Runs .discard (ready .le [] [7]) ∧
    (legality (.skip 1) = .readyOnly ∧ Runs (.skip 1) (ready .le [] [])) ∧
    (legality (.encInt 1) = .txOpenOnly ∧ Runs (.encInt 1) (building .le [] [])) ∧
    (legality (.rdreg 1) = .anywhere ∧ Runs (.rdreg 1) dead) ∧ Runs (.encBegin 3 1) dead ∧
    Runs .encEnd (building .le [] []) :=
  ⟨⟨_, rfl⟩, ⟨_, rfl⟩, ⟨rfl, _, rfl⟩, ⟨rfl, _, rfl⟩, ⟨rfl, _, rfl⟩, ⟨_, rfl⟩, _, rfl⟩

theorem witness_OneResponsePerCommand :
    let s := given (ready .le [] [7]) 0x00000002 []
    s.resetIn = false ∧ s.cmdPort = ⟨0x00000002, []⟩ :: [] ∧ s.frameHolds = false ∧ ∃ t, step s = .next t :=
  ⟨rfl, rfl, by decide, _, rfl⟩

theorem witness_ClosesOnlyOwnedHandles :
    (∃ t, step (given (ready .le [] [7]) 0x00000002 []) = .next t ∧ closedHandles t.out = [7]) ∧
    (ready .le [] [7]).loaded = true ∧
    ∃ t, step (given (stream .le [1, 0, 0, 0, 3, 0, 8, 0] [.rights [9], .bad, .rights [5]]) 0x00000001 []) = .next t ∧
      closedHandles t.out = [9] :=
  ⟨⟨_, rfl, by decide⟩, rfl, _, rfl, by decide⟩

theorem witness_RefusalChangesNothing :
    let s := given (fresh .le) 0x00000010 []
    s.resetIn = false ∧ s.cmdPort = ⟨0x00000010, []⟩ :: [] ∧ Status.badMode.cls = .refusal ∧
    ∃ t, step s = .next t ∧ Output.response .badMode [] ∈ t.out.drop s.out.length :=
  ⟨rfl, rfl, rfl, _, rfl, by decide⟩

theorem witness_LegalityTable :
    (WellFormed .decInt ∧ typeSupported .decInt = true ∧ legalIn .decInt (fresh .le) = false ∧ Runs .decInt (fresh .le)) ∧
    (legalIn .decInt (ready .le [] []) = true ∧ Runs .decInt (ready .le [] [])) :=
  ⟨⟨rfl, rfl, by decide, _, rfl⟩, by decide, _, rfl⟩

theorem witness_SidesAreSeparate :
    (typeSupported (.encFd 7) = true ∧ legality (.encFd 7) = .txOpenOnly ∧ Runs (.encFd 7) (building .le [] [])) ∧
    Runs (.encBegin 3 1) (fresh .le) ∧
    (typeSupported .decFd = true ∧ legality .decFd ≠ .txOpenOnly ∧ (∀ o w, Instr.decFd ≠ .encBegin o w) ∧
      Runs .decFd (ready .le [] [7])) :=
  ⟨⟨rfl, rfl, _, rfl⟩, ⟨_, rfl⟩, rfl, by decide, nofun, _, rfl⟩

/-- A message of sender 1 and opcode 3 with the shortest and one with the longest payload. -/
theorem witness_FrameLoadsMessage :
    (let s := stream .le [1, 0, 0, 0, 3, 0, 8, 0, 5] [.rights [7, 8], .notRights, .rights [9]]
     s.mode ≠ .dead ∧ s.rx = [1, 0, 0, 0] ++ [3, 0, 8, 0] ++ [] ++ [5] ∧
     8 = (u32 s.bo [3, 0, 8, 0]).extractLsb' 16 16 ∧ 3 = (u32 s.bo [3, 0, 8, 0]).extractLsb' 0 16 ∧
     (∀ r ∈ s.ancRecords, r ≠ .bad) ∧ (rightsHandles s.ancRecords).length ≤ s.descMax.toNat) ∧
    (65535 = (u32 .le [3, 0, 0xFF, 0xFF]).extractLsb' 16 16 ∧
      (List.replicate 65527 (0 : Byte)).length = (65535 : Half).toNat - 8) :=
  ⟨by decide, by decide, by rw [List.length_replicate]; rfl⟩

theorem witness_FrameHoldsForBytes :
    (let s := { fresh .le with rx := [1, 0, 0, 0, 3, 0, 9], agenda := [] }
     s.mode ≠ .dead ∧ s.rxEnd = false ∧ s.rx.length < 8 ∧ s.agenda = []) ∧
    (let s := { fresh .le with rx := [1, 0, 0, 0, 3, 0, 9, 0] }
     s.mode ≠ .dead ∧ s.rxEnd = false ∧ 8 ≤ ((u32 s.bo ((s.rx.drop 4).take 4)).extractLsb' 16 16).toNat ∧
     s.rx.length < ((u32 s.bo ((s.rx.drop 4).take 4)).extractLsb' 16 16).toNat) := by decide

theorem witness_FrameShortReads :
    (let s := stream .le [1, 0, 0, 0, 3, 0, 9] []
     s.mode ≠ .dead ∧ s.rxEnd = true ∧ s.rx.length < 8) ∧
    (let s := stream .le [1, 0, 0, 0, 3, 0, 9, 0] []
     s.mode ≠ .dead ∧ s.rxEnd = true ∧ s.rx = [1, 0, 0, 0] ++ [3, 0, 9, 0] ++ [] ∧
     8 ≤ ((u32 s.bo [3, 0, 9, 0]).extractLsb' 16 16).toNat ∧
     ([] : List Byte).length < ((u32 s.bo [3, 0, 9, 0]).extractLsb' 16 16).toNat - 8) := by decide

theorem witness_FrameBadSize :
    let s := stream .le [1, 0, 0, 0, 3, 0, 7, 0] []
    s.mode ≠ .dead ∧ s.rx = [1, 0, 0, 0] ++ [3, 0, 7, 0] ++ [] ∧
    ((u32 s.bo [3, 0, 7, 0]).extractLsb' 16 16).toNat < 8 := by decide

theorem witness_FrameBadRecord :
    let s := stream .le [1, 0, 0, 0, 3, 0, 8, 0] [.rights [7], .bad, .rights [9]]
    s.mode ≠ .dead ∧ s.rx = [1, 0, 0, 0] ++ [3, 0, 8, 0] ++ [] ++ [] ∧
    8 ≤ ((u32 s.bo [3, 0, 8, 0]).extractLsb' 16 16).toNat ∧
    ([] : List Byte).length = ((u32 s.bo [3, 0, 8, 0]).extractLsb' 16 16).toNat - 8 ∧
    s.ancRecords = [.rights [7]] ++ .bad :: [.rights [9]] ∧ (∀ r ∈ [AncRecord.rights [7]], r ≠ .bad) ∧
    (rightsHandles [.rights [7]]).length ≤ s.descMax.toNat := by decide

/-- A record that fills the list, and one handle more. -/
theorem witness_FrameBadRecord_capacity :
    let before : List AncRecord := [.rights [7, 8, 9], .notRights]
    let s := stream .le [1, 0, 0, 0, 3, 0, 8, 0] (before ++ .rights [1] :: [.bad])
    s.ancRecords = before ++ .rights [1] :: [.bad] ∧ (∀ r ∈ before, r ≠ .bad) ∧
    (rightsHandles before).length ≤ s.descMax.toNat ∧
    s.descMax.toNat < (rightsHandles before ++ [1]).length := by decide

theorem witness_DiscardReleasesEnvelope :
    ((ready .le [] [7, 9]).loaded = true ∧ (ready .le [] [7, 9]).dcnt.toNat = (ready .le [] [7, 9]).desc.length) ∧
    (fresh .le).mode = .idle ∧ (fresh .le).loaded = false ∧ dead.mode = .dead ∧ dead.loaded = false := by decide

theorem witness_SkipMovesCursor :
    let s := ready .le [1, 2, 3, 4] []
    s.mode = .ready ∧ s.cur.toNat + (4 : Half).toNat ≤ s.plen.toNat ∧ s.plen.toNat < s.cur.toNat + (5 : Half).toNat ∧
    dead.mode ≠ .ready := by decide

theorem witness_DecScalarsReadFourBytes :
    let s := ready .le [1, 2, 3, 4] []
    let r := { ready .le [1, 2, 3, 4] [] with cur := 1 }
    s.mode = .ready ∧ s.payload.length = s.plen.toNat ∧ s.cur.toNat + 4 ≤ s.plen.toNat ∧
    r.mode = .ready ∧ r.payload.length = r.plen.toNat ∧ r.plen.toNat < r.cur.toNat + 4 := by decide

theorem witness_DecWithoutPrefixUnderruns :
    let s := ready .le [1, 2, 3] []
    s.mode = .ready ∧ s.plen.toNat < s.cur.toNat + 4 ∧ (15 : BitVec 4) ≠ 0 ∧ (6 : BitVec 4).toNat < 7 := by decide

/-- The hypotheses that the clauses of DecStringReadsField and DecArrayReadsField share, with a length prefix. -/
abbrev Prefixed (s : State) (l : Nat) : Prop :=
  s.mode = .ready ∧ s.payload.length = s.plen.toNat ∧ s.cur.toNat + 4 ≤ s.plen.toNat ∧
    l = (u32 s.bo ((s.payload.drop s.cur.toNat).take 4)).toNat

theorem witness_DecStringReadsField :
    Prefixed (ready .le [0, 0, 0, 0] []) 0 ∧
    (Prefixed (ready .le [1, 0, 0, 0, 0, 0, 0] []) 1 ∧
      (ready .le [1, 0, 0, 0, 0, 0, 0] []).plen.toNat < 0 + 4 + (1 + 3) / 4 * 4) ∧
    (let s := ready .le [4, 0, 0, 0, 1, 2, 3, 4] []
     Prefixed s 4 ∧ s.cur.toNat + 4 + (4 + 3) / 4 * 4 ≤ s.plen.toNat ∧
     s.payload[s.cur.toNat + 4 + (4 - 1)]? ≠ some 0x00) ∧
    (let s := ready .le [1, 0, 0, 0, 0, 9, 9, 9] []
     Prefixed s 1 ∧ s.cur.toNat + 4 + (1 + 3) / 4 * 4 ≤ s.plen.toNat ∧
     s.payload[s.cur.toNat + 4 + (1 - 1)]? = some 0x00) := by decide

theorem witness_DecArrayReadsField :
    (let s := ready .le [1, 0, 0, 0, 9, 9, 9] []
     Prefixed s 1 ∧ s.plen.toNat < s.cur.toNat + 4 + (1 + 3) / 4 * 4) ∧
    (let s := ready .le [0, 0, 0, 0] []
     Prefixed s 0 ∧ s.cur.toNat + 4 + (0 + 3) / 4 * 4 ≤ s.plen.toNat) := by decide

theorem witness_DecNewidReadsPair :
    Prefixed (ready .le [0, 0, 0, 0] []) 0 ∧
    (Prefixed (ready .le [1, 0, 0, 0, 0, 0, 0] []) 1 ∧
      (ready .le [1, 0, 0, 0, 0, 0, 0] []).plen.toNat < 0 + 4 + (1 + 3) / 4 * 4) ∧
    (let s := ready .le [4, 0, 0, 0, 1, 2, 3, 4] []
     Prefixed s 4 ∧ s.cur.toNat + 4 + (4 + 3) / 4 * 4 ≤ s.plen.toNat ∧
     s.payload[s.cur.toNat + 4 + (4 - 1)]? ≠ some 0x00) ∧
    (let s := ready .le [2, 0, 0, 0, 0x61, 0, 9, 9, 7, 0, 0] []
     Prefixed s 2 ∧ s.cur.toNat + 4 + (2 + 3) / 4 * 4 ≤ s.plen.toNat ∧
     s.plen.toNat < s.cur.toNat + 8 + (2 + 3) / 4 * 4 ∧ s.payload[s.cur.toNat + 4 + (2 - 1)]? = some 0x00) ∧
    (let s := ready .le [2, 0, 0, 0, 0x61, 0, 9, 9, 7, 0, 0, 0] []
     Prefixed s 2 ∧ s.cur.toNat + 8 + (2 + 3) / 4 * 4 ≤ s.plen.toNat ∧
     s.payload[s.cur.toNat + 4 + (2 - 1)]? = some 0x00) := by decide

theorem witness_DecFdTakesDescriptor :
    let s := ready .le [] [7]
    s.mode = .ready ∧ s.desc.length = s.dcnt.toNat ∧ s.desc[s.dcur.toNat]? = some 7 ∧
    ({ s with dcur := 1 } : State).dcnt.toNat ≤ ({ s with dcur := 1 } : State).dcur.toNat := by decide

theorem witness_DecSeqReadsElements :
    let s := ready .be [0, 0, 0, 2] [7, 9]
    let vs : List Ty.fd.Val := [7, 9]
    s.mode = .ready ∧ (1 : BitVec 4) ≠ 0 ∧ typeOf 1 6 = some (.seq .fd) ∧ countsFit (.seq .fd) vs = true ∧
    s.payload.length = s.plen.toNat ∧ s.desc.length = s.dcnt.toNat ∧
    PayloadHas s s.cur.toNat (enc s.bo (.seq .fd) vs).1 ∧ DescHas s s.dcur.toNat (enc s.bo (.seq .fd) vs).2 := by
  decide

/-- An element with padding bytes that are not zero. -/
theorem witness_DecSeqReadsElements_layout :
    let s := ready .le [1, 0, 0, 0, 2, 0, 0, 0, 0x61, 0, 0xAA, 0xBB] []
    typeOf 1 3 = some (.seq .string) ∧ WireAt s (.seq .string) [[0x61]] 0 0 12 0 :=
  ⟨rfl, by decide, by decide, 12, 0, ⟨⟨[0xAA, 0xBB], rfl, rfl, by decide⟩, rfl⟩, rfl, rfl⟩

/-- A count past the descriptors, a second string without terminator, a count without its element. -/
theorem witness_DecSeqReadsElements_fails :
    FailsAt (ready .le [3, 0, 0, 0] [7, 9]) (.seq .fd) 0 0 .descUnderflow ∧
    FailsAt (ready .le [2, 0, 0, 0, 1, 0, 0, 0, 0, 0, 0, 0, 1, 0, 0, 0, 5, 0, 0, 0] []) (.seq .string) 0 0
      .malformedString ∧
    FailsAt (ready .le [1, 0, 0, 0, 5, 0, 0] []) (.seq .uint) 0 0 .payloadUnderrun := by
  refine ⟨.inr ⟨3, [7, 9], 4, 2, by decide, by decide, ⟨4, 1, ⟨by decide, rfl, rfl⟩, 4, 2, ⟨by decide, rfl, rfl⟩,
      rfl, rfl⟩, by decide, rfl⟩,
    .inr ⟨2, [[]], 12, 0, by decide, by decide, ⟨12, 0, ⟨⟨[0, 0, 0], rfl, rfl, by decide⟩, rfl⟩, rfl, rfl⟩,
      .inr ⟨1, by decide, .inr (.inr ⟨by decide, by decide, by decide, rfl⟩)⟩⟩,
    .inr ⟨1, [], 4, 0, by decide, by decide, ⟨rfl, rfl⟩, by decide, rfl⟩⟩

theorem witness_FailedDecodeCommitsNothing :
    legality .decFd = .readyOnly ∧ typeSupported .decFd = true ∧ (ready .le [] []).mode = .ready ∧
    ∃ t, exec .decFd (ready .le [] []) = .next t ∧ t.mode ≠ .ready := ⟨rfl, rfl, rfl, _, rfl, by decide⟩

theorem witness_DecodeStaysInBounds :
    let s := ready .le [1, 0, 0, 0] [7]
    dec s (.seq .fd) 0 0 = .ok (([7] : List Handle), 4, 1) ∧ 4 ≤ s.plen.toNat ∧ 1 ≤ s.dcnt.toNat :=
  ⟨rfl, by decide, by decide⟩

theorem witness_SequenceLengthBounded :
    dec (ready .le [0, 0, 0, 0] []) (.seq .string) 0 0 = .ok (([] : List (List Byte)), 4, 0) ∧
    dec (ready .le [1, 0, 0, 0] [7]) (.seq .fd) 0 0 = .ok (([7] : List Handle), 4, 1) := ⟨rfl, rfl⟩

theorem witness_EncBeginOpensMessage : (fresh .le).mode ≠ .dead ∧ dead.mode = .dead := by decide

/-- A message under construction with a payload of `n` bytes. -/
def filled (n : Nat) : State := building .le (List.replicate n 0) []

theorem filled_length {n : Nat} (h : n < 65536) :
    (filled n).txbuf.length = (filled n).txlen.toNat ∧ (filled n).txlen.toNat = n := by
  simp [filled, building, Nat.mod_eq_of_lt h]

theorem witness_EncScalarsAppendFourBytes :
    (filled 65523).mode ≠ .dead ∧ (filled 65523).txmode = .txOpen ∧
    (filled 65523).txbuf.length = (filled 65523).txlen.toNat ∧ (filled 65523).txlen.toNat + 4 ≤ 65527 := by
  have h := filled_length (n := 65523) (by decide)
  exact ⟨nofun, rfl, h.1, by omega⟩

/-- For a string, an array and a pair: the longest payload before it that leaves it room. -/
theorem witness_EncFieldsAppendLayout :
    (∀ n, (filled n).mode ≠ .dead ∧ (filled n).txmode = .txOpen) ∧
    ((filled 65519).txbuf.length = (filled 65519).txlen.toNat ∧
      (filled 65519).txlen.toNat + 4 + (([] : List Byte).length + 4) / 4 * 4 = 65527) ∧
    ((filled 65523).txbuf.length = (filled 65523).txlen.toNat ∧
      (filled 65523).txlen.toNat + 4 + (([] : List Byte).length + 3) / 4 * 4 = 65527) ∧
    ((filled 65515).txbuf.length = (filled 65515).txlen.toNat ∧
      (filled 65515).txlen.toNat + 8 + (([] : List Byte).length + 4) / 4 * 4 = 65527) := by
  have h1 := filled_length (n := 65519) (by decide)
  have h2 := filled_length (n := 65523) (by decide)
  have h3 := filled_length (n := 65515) (by decide)
  refine ⟨fun n => ⟨nofun, rfl⟩, ⟨h1.1, ?_⟩, ⟨h2.1, ?_⟩, h3.1, ?_⟩ <;> simp only [List.length_nil] <;> omega

theorem witness_EncFdAttachesHandle :
    let s := { building .le [] [] with txlen := 65527 }
    s.mode ≠ .dead ∧ s.txmode = .txOpen ∧ s.txlen.toNat ≤ 65527 := by decide

theorem witness_EncSeqAppendsElements :
    (let s := building .be [] [7]
     let vs : List Ty.fd.Val := [7, 9]
     s.mode ≠ .dead ∧ s.txmode = .txOpen ∧ (1 : BitVec 4) ≠ 0 ∧ typeOf 1 6 = some (.seq .fd) ∧
     countsFit (.seq .fd) vs = true ∧ s.txbuf.length = s.txlen.toNat ∧
     s.txlen.toNat + wireLen (.seq .fd) vs ≤ 65527) ∧
    ((filled 65523).txbuf.length = (filled 65523).txlen.toNat ∧
      (filled 65523).txlen.toNat + wireLen (.seq .string) ([] : List (List Byte)) ≤ 65527) := by
  have h := filled_length (n := 65523) (by decide)
  refine ⟨by decide, h.1, ?_⟩
  rw [h.2]
  decide

theorem witness_EncodeOverflowFaults :
    let s := { building .le [] [] with txlen := 65524 }
    encodedValue (.encInt 1) = some ⟨.int, (1 : Word)⟩ ∧ s.mode ≠ .dead ∧ s.txmode = .txOpen ∧
    65527 < s.txlen.toNat + (enc s.bo .int (1 : Word)).1.length := ⟨rfl, nofun, rfl, by decide⟩

theorem witness_EncEndEmitsMessage :
    (filled 65527).mode ≠ .dead ∧ (filled 65527).txmode = .txOpen ∧
    (filled 65527).txbuf.length = (filled 65527).txlen.toNat ∧ (filled 65527).txlen.toNat ≤ 65527 ∧
    dead.mode = .dead ∧ (fresh .le).txmode ≠ .txOpen := by
  have h := filled_length (n := 65527) (by decide)
  exact ⟨nofun, rfl, h.1, by omega, rfl, nofun⟩

theorem witness_EmittedMessageIsFramed :
    let s := building .be [1, 2, 3, 4] [7]
    let bytes : List Byte := [0, 0, 0, 1, 0, 12, 0, 3, 1, 2, 3, 4]
    let r := stream .be (bytes ++ [9]) [.rights [7]]
    s.mode ≠ .dead ∧ s.txmode = .txOpen ∧ s.txbuf.length = s.txlen.toNat ∧ s.txlen.toNat ≤ 65527 ∧
    s.txdesc.length ≤ r.descMax.toNat ∧ bytes = packHeader s.bo s.txsender (8 + s.txlen) s.txopcode ++ s.txbuf ∧
    r.mode = .idle ∧ r.bo = s.bo ∧ r.rx = bytes ++ [9] ∧ r.ancRecords = [.rights s.txdesc] := by decide

theorem witness_FixedFromIntLaw :
    (-(2 ^ 23) ≤ (0xFF800000 : Word).toInt ∧ (0xFF800000 : Word).toInt ≤ 2 ^ 23 - 1) ∧
    (-(2 ^ 23) ≤ (0x007FFFFF : Word).toInt ∧ (0x007FFFFF : Word).toInt ≤ 2 ^ 23 - 1) := by decide

/-- The exponent and fraction fields of -2147483648.0, of 2147483647.5 and of 2^23 - 1/256. -/
theorem f64_fields :
    ((0xC1E0000000000000 : F64).getLsbD 63 = true ∧ ((0xC1E0000000000000 : F64).extractLsb' 52 11).toNat = 1054 ∧
      ((0xC1E0000000000000 : F64).extractLsb' 0 52).toNat = 0) ∧
    ((0x41DFFFFFFFE00000 : F64).getLsbD 63 = false ∧ ((0x41DFFFFFFFE00000 : F64).extractLsb' 52 11).toNat = 1053 ∧
      ((0x41DFFFFFFFE00000 : F64).extractLsb' 0 52).toNat = 4503599625273344) ∧
    ((0x415FFFFFFFC00000 : F64).getLsbD 63 = false ∧ ((0x415FFFFFFFC00000 : F64).extractLsb' 52 11).toNat = 1045 ∧
      ((0x415FFFFFFFC00000 : F64).extractLsb' 0 52).toNat = 4503599623176192) ∧
    ((0x41E0000000000000 : F64).getLsbD 63 = false ∧ ((0x41E0000000000000 : F64).extractLsb' 52 11).toNat = 1054 ∧
      ((0x41E0000000000000 : F64).extractLsb' 0 52).toNat = 0) := by decide

theorem witness_FixedFromFloatConstruction :
    (f64Value 0xC1E0000000000000 = some (-2147483648) ∧ truncRat (-2147483648) = -(2 ^ 31)) ∧
    (f64Value 0x41DFFFFFFFE00000 = some (4294967295 / 2) ∧ truncRat (4294967295 / 2) = 2 ^ 31 - 1) := by
  obtain ⟨⟨a1, a2, a3⟩, ⟨b1, b2, b3⟩, -, -⟩ := f64_fields
  refine ⟨⟨?_, ?_⟩, ?_, ?_⟩
  · simp only [f64Value, a1, a2, a3]; norm_num
  · norm_num [truncRat]
  · simp only [f64Value, b1, b2, b3]; norm_num
  · norm_num [truncRat]

theorem witness_FixedFromFloatOpenValue :
    f64Value 0x7FF0000000000000 = none ∧
    (f64Value 0x41E0000000000000 = some 2147483648 ∧ 2 ^ 31 - 1 < truncRat 2147483648) := by
  obtain ⟨-, -, -, ⟨c1, c2, c3⟩⟩ := f64_fields
  refine ⟨?_, ?_, ?_⟩
  · rw [f64Value, if_pos (by decide)]
  · simp only [f64Value, c1, c2, c3]; norm_num
  · norm_num [truncRat]

theorem witness_FixedFromFloatRoundsNonNegative :
    f64Value 0x415FFFFFFFC00000 = some (2147483647 / 256) ∧ (0 : ℚ) ≤ 2147483647 / 256 ∧
    (2147483647 / 256 : ℚ) < 2 ^ 23 ∧ (2147483647 / 256 : ℚ) - (⌊(2147483647 / 256 : ℚ)⌋ : ℚ) < 511 / 512 := by
  obtain ⟨-, -, ⟨d1, d2, d3⟩, -⟩ := f64_fields
  refine ⟨?_, by norm_num, by norm_num, by norm_num⟩
  simp only [f64Value, d1, d2, d3]
  norm_num

theorem witness_RdregReadsMap :
    (0x0B < (0x000C : Half).toNat ∧ (0x000F : Half).toNat < 0x10) ∧ 0x14 < (0x0015 : Half).toNat ∧
    0x14 < (0xFFFF : Half).toNat := by decide

end Sys2Proof.Tests
end

section
/-! The family `00_scope.md`: words and their bytes (R7), and what a step does with the command at the head of the
command port (R10). -/

namespace Sys2Proof.Proofs.Scope

open Sys2Proof.Machine

/-! ### Words and bytes (00_scope.md R7) -/

/-- The BE formula: the LE formula of the same bytes in reverse order. -/
theorem u32_be_toNat (b0 b1 b2 b3 : Byte) : (u32 .be [b0, b1, b2, b3]).toNat =
    2 ^ 24 * b0.toNat + 2 ^ 16 * b1.toNat + 2 ^ 8 * b2.toNat + b3.toNat := by
  rw [u32_be_reverse, u32_le_toNat]
  omega

/-- Settles O6: the two inverse laws and the two formulas, each by its own lemma. -/
theorem wordBytesInverse : Obligations.WordBytesInverse := by
  unfold Obligations.WordBytesInverse
  intro bo v b0 b1 b2 b3
  exact ⟨u32_bytes32 bo v, bytes32_u32 bo rfl, u32_le_toNat b0 b1 b2 b3, u32_be_toNat b0 b1 b2 b3⟩

/-! ### Steps (00_scope.md R10; 20_memory.md R68) -/

/-- Settles O11: of the four things a step can be, only a command has reset not asserted and a packet that decodes at
the head of the command port, and the packet fixes its instruction. -/
theorem stepRunsDecodedInstruction : Obligations.StepRunsDecodedInstruction := by
  unfold Obligations.StepRunsDecodedInstruction
  intro s p rest i hreset hport hdecode
  rcases step_cases s with ⟨hr, -⟩ | ⟨-, hp, -⟩ | ⟨p', rest', i', -, hp, hd, hstep⟩ | ⟨p', rest', r, -, hp, hd, -⟩
  · simp [hreset] at hr
  · simp [hport] at hp
  · obtain ⟨rfl, -⟩ := List.cons.inj (hport.symm.trans hp)
    obtain rfl := Except.ok.inj (hdecode.symm.trans hd)
    exact hstep
  · obtain ⟨rfl, -⟩ := List.cons.inj (hport.symm.trans hp)
    simp [hdecode] at hd

end Sys2Proof.Proofs.Scope
end

section
/-! The family `10_state.md`: what a command can come to (`Outcome`), and the laws that every step keeps. -/

namespace Sys2Proof.Proofs.BlockState

open Sys2Proof.Machine Sys2Proof.Safety

/-! ### Lengths on the wire (30_encoding.md R103) -/

/-- Every encoding is a whole number of words. -/
theorem four_dvd_enc_length (bo : ByteOrder) : ∀ (t : Ty) (v : t.Val), 4 ∣ (enc bo t v).1.length := by
  have hstring : ∀ bs : List Byte, 4 ∣ (stringBytes bo bs).length := fun bs => by
    have := add_pad_mod (bs.length + 1)
    rw [stringBytes_length]
    omega
  intro t
  induction t with
  | int | uint | fixed => intro v; simp [enc]
  | string => exact hstring
  | array =>
    intro bs
    have := add_pad_mod bs.length
    simp only [enc, arrayBytes_length]
    omega
  | newid =>
    rintro ⟨name, ver⟩
    simpa [enc] using hstring name
  | fd => intro h; simp [enc]
  | seq t ih =>
    intro vs
    have hsum : 4 ∣ ((vs.map fun e => (enc bo t e).1).map List.length).sum :=
      List.dvd_sum fun n hn => by
        obtain ⟨bs, hbs, rfl⟩ := List.mem_map.mp hn
        obtain ⟨e, -, rfl⟩ := List.mem_map.mp hbs
        exact ih e
    simpa only [enc, List.length_append, bytes32_length, List.length_flatten, Nat.dvd_add_right (dvd_refl 4)]

/-! ### Cursors (10_state.md R30) -/

/-- The cursors go from `c`, `d` forward to `c'`, `d'`, and not past `PLEN` and `DCNT` unless they stood there. -/
def CursorsAdvance (s : State) (c d c' d' : Nat) : Prop :=
  c ≤ c' ∧ c' ≤ max c s.plen.toNat ∧ d ≤ d' ∧ d' ≤ max d s.dcnt.toNat

theorem CursorsAdvance.refl (s : State) (c d : Nat) : CursorsAdvance s c d c d := by
  unfold CursorsAdvance; omega

theorem CursorsAdvance.trans {s : State} {c d c1 d1 c2 d2 : Nat} (h1 : CursorsAdvance s c d c1 d1)
    (h2 : CursorsAdvance s c1 d1 c2 d2) : CursorsAdvance s c d c2 d2 := by
  unfold CursorsAdvance at *; omega

/-- A read moves `CUR` over bytes within `PLEN`. -/
theorem cursorsAdvance_of_memRead {s : State} {c n d : Nat} {b : List Byte} (h : s.memRead c n = some b) :
    CursorsAdvance s c d (c + n) d := by
  have := (memRead_eq_some.mp h).1
  unfold CursorsAdvance; omega

theorem cursorsAdvance_of_decU32 {s : State} {c c' d : Nat} {v : Word} (h : decU32 s c = .ok (v, c')) :
    CursorsAdvance s c d c' d := by
  obtain ⟨b, hb, -, rfl⟩ := decU32_ok.mp h
  exact cursorsAdvance_of_memRead hb

theorem cursorsAdvance_of_decStringAt {s : State} {c d c' d' : Nat} {bs : List Byte}
    (h : decStringAt s c d = .ok (bs, c', d')) : CursorsAdvance s c d c' d' := by
  obtain ⟨l, body, hl, -, hb, -, -, rfl, rfl⟩ := decStringAt_ok.mp h
  exact (cursorsAdvance_of_decU32 hl).trans (cursorsAdvance_of_memRead hb)

/-- Every successful `dec` moves both cursors forward and within bounds (42_decode.md R170 to R178). -/
theorem cursorsAdvance_of_dec {s : State} : ∀ {t : Ty} {v : t.Val} {c d c' d' : Nat},
    dec s t c d = .ok (v, c', d') → CursorsAdvance s c d c' d' := by
  intro t
  induction t with
  | int | uint | fixed =>
    intro v c d c' d' h
    obtain ⟨hv, rfl⟩ := decScalar_ok.mp h
    exact cursorsAdvance_of_decU32 hv
  | string => exact cursorsAdvance_of_decStringAt
  | array =>
    intro v c d c' d' h
    obtain ⟨l, body, hl, hb, -, rfl, rfl⟩ := decArrayAt_ok.mp h
    exact (cursorsAdvance_of_decU32 hl).trans (cursorsAdvance_of_memRead hb)
  | newid =>
    rintro ⟨name, ver⟩ c d c' d' h
    obtain ⟨c1, hname, hver⟩ := decNewidAt_ok.mp h
    exact (cursorsAdvance_of_decStringAt hname).trans (cursorsAdvance_of_decU32 hver)
  | fd =>
    intro v c d c' d' h
    obtain ⟨hd, rfl, rfl⟩ := decFdAt_ok.mp h
    have := (descAt_eq_some.mp hd).1
    unfold CursorsAdvance; omega
  | seq t ih =>
    intro vs c d c' d' h
    obtain ⟨n, hn, hmany⟩ := dec_seq_ok.mp h
    exact (cursorsAdvance_of_decU32 hn).trans
      (decMany_chain (fun _ => CursorsAdvance s) (CursorsAdvance.refl s)
        (fun _ _ _ _ _ _ _ _ hf hr => (ih hf).trans hr) hmany)

/-! ### What a command can come to -/

/-- The states that the command at the head of the command port, decoded to `d`, can lead to from `s`: every way in
which a command ends, and the FRAME that holds (60_exceptions.md R248 to R256). The state after the implicit discard is
a variable `u`, so that a proof by cases goes through the lemmas about `do_discard()`. -/
inductive Outcome (d : Except Reject Instr) (s : State) : State → Prop
  /-- A refusal: only the response (60_exceptions.md R255). -/
  | refused (st : Status) (hst : st.cls = .refusal) : Outcome d s (s.respond st [])
  /-- RDREG, the FX commands, and DISCARD in `IDLE`: only the response, and the counter of free values. -/
  | answered (n : Nat) (it : Item) : Outcome d s ({ s with draws := n }.respond .ok [it])
  /-- A type-contract violation (60_exceptions.md R253). -/
  | contract {u : State} (hu : u = s.discardLoaded) (w : Word)
    (hd : ∀ i, d = .ok i → typeSupported i = false) (hm : s.mode ≠ .dead) :
    Outcome d s ({ u with mode := .dead, err := 0x40, errinfo := w }.respond .typeContract [])
  /-- FRAME holds (40_framer.md R137). -/
  | frameHolds : Outcome d s s.await
  /-- FRAME fails in a read (40_framer.md R130; 60_exceptions.md R250, R251). -/
  | frameFails {u : State} (hu : u = s.discardLoaded) (e : Status) (info : Word) (rest : List Byte)
    (hd : d = .ok .frame) (hm : s.mode ≠ .dead) (he : e = .hdrRead ∨ e = .badSize ∨ e = .shortPayload) :
    Outcome d s
      ({ u.ancDone with rx := rest, mode := .dead, err := e.code, errinfo := info }.respond e [])
  /-- FRAME fails on a record, and closes the handles collected (40_framer.md R135, R136). -/
  | frameBadRecord {u : State} (hu : u = s.discardLoaded) (rest : List Byte) (info : Word) (ds : List Handle)
    (hd : d = .ok .frame) (hm : s.mode ≠ .dead)
    (hds : ∀ h ∈ ds, h ∈ rightsHandles (s.ancRecords.takeWhile (· != .bad))) :
    Outcome d s
      ({ ({ u.ancDone with rx := rest }.closeAll ds) with
        mode := .dead, err := 0x22, errinfo := info }.respond .ancParse [])
  /-- FRAME loads an envelope (40_framer.md R130). -/
  | frameLoads {u : State} (hu : u = s.discardLoaded) (w : Word) (z o : Half) (p rest : List Byte)
    (ds : List Handle) (is : List Item) (hd : d = .ok .frame) (hm : s.mode ≠ .dead) (hz : 8 ≤ z.toNat)
    (hp : p.length = z.toNat - 8) (hds : ds.length ≤ s.descMax.toNat) :
    Outcome d s (({ u.ancDone with rx := rest }.commitEnvelope w z o p ds).respond .ok is)
  /-- DISCARD of a loaded envelope (40_framer.md R132). -/
  | discarded {u : State} (hu : u = s.discardLoaded) (is : List Item) (hd : d = .ok .discard)
    (hm : s.mode ≠ .dead) :
    Outcome d s (u.respond .ok is)
  /-- SKIP, or a DEC command that decodes a value (40_framer.md R133, 42_decode.md R170). -/
  | cursorsMoved (c k : Nat) (is : List Item) (hm : s.mode = .ready)
    (hc : CursorsAdvance s s.cur.toNat s.dcur.toNat c k) :
    Outcome d s ({ s with cur := BitVec.ofNat 16 c, dcur := BitVec.ofNat 32 k }.respond .ok is)
  /-- SKIP or a DEC command that fails (60_exceptions.md R252). -/
  | decodeFailed (e : Status) (hm : s.mode = .ready) (he : e.cls = .decode) :
    Outcome d s ({ s with mode := .decodeFault, err := e.code, errinfo := s.cur.zeroExtend 32 }.respond e [])
  /-- ENC.BEGIN (43_encode.md R201). -/
  | begun (o : Half) (w : Word) : Outcome d s (s.beginBody o w)
  /-- An ENC value command that fits (43_encode.md R200). -/
  | appended (t : Ty) (v : t.Val) (hm : s.txmode = .txOpen)
    (hl : s.txlen.toNat + (enc s.bo t v).1.length ≤ Config.payloadMax) :
    Outcome d s
      ({ s.memWrite s.txlen.toNat (enc s.bo t v).1 with
        txlen := BitVec.ofNat 16 (s.txlen.toNat + (enc s.bo t v).1.length)
        txdesc := s.txdesc ++ (enc s.bo t v).2
        txdcnt := s.txdcnt + BitVec.ofNat 32 (enc s.bo t v).2.length }.respond .ok [])
  /-- An ENC value command that does not fit (43_encode.md R211; 60_exceptions.md R254). -/
  | overflowed (hm : s.txmode = .txOpen) :
    Outcome d s ({ s with txmode := .txFault, txerr := 0x50 }.respond .encOverflow [])
  /-- ENC.END (43_encode.md R210). -/
  | ended (hm : s.txmode = .txOpen) : Outcome d s s.endBody

section
variable {d : Except Reject Instr} {s : State}

/-- A command passes its mode check and comes to what its body does, or is refused (60_exceptions.md R248). -/
theorem outcome_checked {legal : Bool} {body : State → State}
    (h : s.mode ≠ .dead → legal = true → Outcome d s (body s)) : Outcome d s (s.checked legal body) := by
  rcases s.checked_cases legal body with ⟨hm, hl, he⟩ | ⟨-, he⟩ <;> rw [he]
  · exact h hm hl
  · exact .refused _ rfl

theorem outcome_unsupported (hd : ∀ i, d = .ok i → typeSupported i = false) (w : Word) :
    Outcome d s (s.unsupported w) := by
  rcases s.unsupported_cases w with ⟨-, he⟩ | ⟨hm, he⟩ <;> rw [he]
  · exact .refused _ rfl
  · exact .contract rfl w hd hm

theorem outcome_reject (r : Reject) : Outcome (.error r) s (s.reject r) := by
  rcases s.reject_cases r with ⟨-, he⟩ | ⟨w, -, he⟩ <;> rw [he]
  · exact .refused _ rfl
  · exact outcome_unsupported (d := .error r) nofun w

theorem outcome_frameBody (hd : d = .ok .frame) (hm : s.mode ≠ .dead) : Outcome d s s.frameBody := by
  rcases s.frameBody_cases with ⟨-, he⟩ | ⟨e, info, rest, hr, he⟩ | ⟨w, z, o, p, rest, j, ds, -, hs, he⟩ |
    ⟨w, z, o, p, rest, ds, hr, hs, he⟩ <;> rw [he]
  · exact .frameHolds
  · exact .frameFails rfl e info rest hd hm (readFrame_fails_cls hr)
  · refine .frameBadRecord rfl rest _ ds hd hm fun h hh => ?_
    exact (scanRecords_fatal_mem hs h hh).resolve_left List.not_mem_nil
  · obtain ⟨hz, hp⟩ := readFrame_done hr
    exact .frameLoads rfl w z o p rest ds _ hd hm hz hp (scanRecords_handles_length (Nat.zero_le _) hs)

theorem outcome_discardBody (hd : d = .ok .discard) (hm : s.mode ≠ .dead) : Outcome d s s.discardBody := by
  unfold State.discardBody
  split
  · exact .answered s.draws (.word 0)
  · rename_i hi
    have hl : s.loaded = true := s.loaded_iff.mpr (by cases h : s.mode <;> simp_all)
    rw [← State.discardLoaded_of_loaded hl]
    exact .discarded rfl _ hd hm

theorem outcome_skipBody (hm : s.mode = .ready) (n : Half) : Outcome d s (s.skipBody n) := by
  unfold State.skipBody
  split
  · rw [State.raise_decode rfl]
    exact .decodeFailed _ hm rfl
  · have h := Outcome.cursorsMoved (d := d) (s.cur.toNat + n.toNat) s.dcur.toNat [] hm
      (by unfold CursorsAdvance; omega)
    rwa [BitVec.ofNat_toNat, BitVec.setWidth_eq] at h

theorem outcome_decodeArg (hm : s.mode = .ready) (t : Ty) : Outcome d s (s.decodeArg t) := by
  rcases s.decodeArg_cases t with ⟨v, c, k, hdec, he⟩ | ⟨e, -, hcls, he⟩ <;> rw [he]
  · exact .cursorsMoved c k _ hm (cursorsAdvance_of_dec hdec)
  · exact .decodeFailed e hm hcls

theorem outcome_encodeArg (hm : s.txmode = .txOpen) (t : Ty) (v : t.Val) : Outcome d s (s.encodeArg t v) := by
  rcases s.encodeArg_cases t v with ⟨hl, he⟩ | ⟨-, he⟩ <;> rw [he]
  · exact .appended t v hm hl
  · exact .overflowed hm

end

/-- Every command ends in an outcome of its instruction. -/
theorem exec_outcome {i : Instr} {s t : State} (h : exec i s = .next t) : Outcome (.ok i) s t := by
  rcases exec_cases i s with ⟨rfl, hx⟩ | ⟨rfl, hx⟩ | ⟨n, -, hx⟩ | ⟨ty, -, -, hx⟩ | ⟨o, w, -, hx⟩ |
    ⟨ty, v, -, -, -, -, hx⟩ | ⟨-, hx⟩ | ⟨n, it, -, hx⟩ | ⟨r, -, -, hx⟩ | ⟨-, hi, hx⟩ | ⟨-, -, -, hx⟩ <;>
    rw [hx] at h <;> cases h
  · exact outcome_checked fun hm _ => outcome_frameBody rfl hm
  · exact outcome_checked fun hm _ => outcome_discardBody rfl hm
  · exact outcome_checked fun _ hl => outcome_skipBody (beq_iff_eq.mp hl) n
  · exact outcome_checked fun _ hl => outcome_decodeArg (beq_iff_eq.mp hl) ty
  · exact outcome_checked fun _ _ => .begun o w
  · exact outcome_checked fun _ hl => outcome_encodeArg (beq_iff_eq.mp hl) ty v
  · exact outcome_checked fun _ hl => .ended (beq_iff_eq.mp hl)
  · exact .answered n it
  · exact .refused _ rfl
  · exact outcome_unsupported (fun j hj => by cases hj; exact hi) _
  · exact .refused _ rfl

/-- A step is reset, or a wait, or an outcome of the packet at the head of the command port. -/
theorem step_outcome {s t : State} (h : step s = .next t) :
    (s.resetIn = true ∧ t = s.applyReset) ∨ (s.resetIn = false ∧ t = s.await) ∨
    (∃ p rest, s.resetIn = false ∧ s.cmdPort = p :: rest ∧ Outcome (decode p) s t) := by
  rcases step_cases s with ⟨hr, he⟩ | ⟨hr, -, he⟩ | ⟨p, rest, i, hr, hp, hd, he⟩ | ⟨p, rest, r, hr, hp, hd, he⟩ <;>
    rw [he] at h
  · cases h; exact .inl ⟨hr, rfl⟩
  · cases h; exact .inr (.inl ⟨hr, rfl⟩)
  · exact .inr (.inr ⟨p, rest, hr, hp, hd ▸ exec_outcome h⟩)
  · cases h; exact .inr (.inr ⟨p, rest, hr, hp, hd ▸ outcome_reject r⟩)

/-! ### The implicit discard (40_framer.md R130, R131)

What holds of the state `u` after the discard. An outcome adds to `u` only fields that such a fact does not read, so the
proofs over `Outcome` take the fact of `u` by `have` and it is the fact of the outcome by computation. -/

section
variable {s u : State} (hu : u = s.discardLoaded)
include hu

/-- The implicit discard is `do_discard()` of a loaded envelope, and nothing else. -/
theorem discard_cases : (s.loaded = true ∧ u = s.doDiscard) ∨ (s.loaded = false ∧ u = s) := by
  subst hu
  cases h : s.loaded
  · exact .inr ⟨rfl, State.discardLoaded_of_not_loaded h⟩
  · exact .inl ⟨rfl, State.discardLoaded_of_loaded h⟩

theorem discard_bo_descMax : u.bo = s.bo ∧ u.descMax = s.descMax := by
  rcases discard_cases hu with ⟨-, rfl⟩ | ⟨-, rfl⟩ <;> exact ⟨rfl, rfl⟩

/-- Outside `DEAD` the implicit discard leads to `IDLE`. -/
theorem discard_mode (hm : s.mode ≠ .dead) : u.mode = .idle := by
  subst hu
  rw [State.discardLoaded_mode]
  cases h : s.mode <;> simp_all [State.loaded]

theorem clearedEnvelope_discard (h : EnvelopeOk s) : ClearedEnvelope u := by
  rcases discard_cases hu with ⟨-, rfl⟩ | ⟨hl, rfl⟩
  · exact ⟨rfl, rfl, rfl, rfl, rfl, rfl, rfl, rfl, rfl⟩
  · exact h.2 hl

theorem errOk_discard (h : ErrOk s) : ErrOk u := by
  rcases discard_cases hu with ⟨-, rfl⟩ | ⟨-, rfl⟩
  · exact ⟨fun _ => ⟨rfl, rfl⟩, nofun, nofun⟩
  · exact h

theorem transmitOk_discard (h : TransmitOk s) : TransmitOk u := by
  rcases discard_cases hu with ⟨-, rfl⟩ | ⟨-, rfl⟩ <;> exact h

end

/-! ### The invariant, part by part (10_state.md R29, R31, R32, R36 to R39) -/

theorem envelopeOk_of_loaded {s : State} (hl : s.loaded = true) (h : LoadedEnvelope s) : EnvelopeOk s :=
  ⟨fun _ => h, fun hn => absurd hl (by simp [hn])⟩

theorem envelopeOk_of_cleared {s : State} (hl : s.loaded = false) (h : ClearedEnvelope s) : EnvelopeOk s :=
  ⟨fun hn => absurd hl (by simp [hn]), fun _ => h⟩

/-- Moved cursors of a loaded envelope hold the values they were moved to: none wraps. -/
theorem cursorsAdvance_toNat {s : State} (h : LoadedEnvelope s) {c k : Nat}
    (hc : CursorsAdvance s s.cur.toNat s.dcur.toNat c k) :
    (BitVec.ofNat 16 c).toNat = c ∧ (BitVec.ofNat 32 k).toNat = k ∧
      s.cur.toNat ≤ c ∧ c ≤ s.plen.toNat ∧ s.dcur.toNat ≤ k ∧ k ≤ s.dcnt.toNat := by
  obtain ⟨-, -, -, hcur, -, hdcur, -⟩ := h
  obtain ⟨hc1, hc2, hk1, hk2⟩ := hc
  have hplen := s.plen.isLt
  have hdcnt := s.dcnt.isLt
  refine ⟨?_, ?_, hc1, by omega, hk1, by omega⟩
  · rw [BitVec.toNat_ofNat, Nat.mod_eq_of_lt (by omega)]
  · rw [BitVec.toNat_ofNat, Nat.mod_eq_of_lt (by omega)]

/-- The envelope that FRAME commits meets R29 and R28. -/
theorem loadedEnvelope_commitEnvelope {s : State} {w : Word} {z o : Half} {p : List Byte} {ds : List Handle}
    (hz : 8 ≤ z.toNat) (hp : p.length = z.toNat - 8) (hds : ds.length ≤ s.descMax.toNat) :
    LoadedEnvelope (s.commitEnvelope w z o p ds) := by
  have hplen : (BitVec.ofNat 16 (z.toNat - 8)).toNat = z.toNat - 8 := by
    have := z.isLt
    rw [BitVec.toNat_ofNat, Nat.mod_eq_of_lt (by omega)]
  have hdcnt : (BitVec.ofNat 32 ds.length).toNat = ds.length := by
    have := s.descMax.isLt
    rw [BitVec.toNat_ofNat, Nat.mod_eq_of_lt (by omega)]
  exact ⟨hz, hplen, hp.trans hplen.symm, Nat.zero_le _, hdcnt, Nat.zero_le _, hdcnt.trans_le hds⟩

/-- A state with the registers, buffers and capacity of one that meets the invariant meets it. -/
theorem blockOk_congr {s t : State} (hst : SameBlock s t) (hmax : t.descMax = s.descMax) (h : BlockOk s) :
    BlockOk t := by
  obtain ⟨-, ⟨hmode, hsender, hopcode, hsize, hplen, hpayload, hcur, hdesc, hdcnt, hdcur, herr, herrinfo, -, -⟩,
    htxmode, htxsender, htxopcode, htxbuf, htxlen, htxdesc, htxdcnt, htxerr⟩ := hst
  simpa only [BlockOk, EnvelopeOk, LoadedEnvelope, ClearedEnvelope, ErrOk, TransmitOk, State.loaded, hmode, hsender,
    hopcode, hsize, hplen, hpayload, hcur, hdesc, hdcnt, hdcur, herr, herrinfo, htxmode, htxsender, htxopcode,
    htxbuf, htxlen, htxdesc, htxdcnt, htxerr, hmax] using h

/-- The outside world touches nothing that the invariant speaks of. -/
theorem blockOk_await {s : State} (h : BlockOk s) : BlockOk s.await := by
  have hst : SameBlock s s.await := by simp [SameBlock, SameReceive, SameTransmit, State.await_frame s]
  exact blockOk_congr hst (by simp [State.await_frame s]) h

/-- Every register and buffer at its reset value meets the invariant (70_reset_and_hazards.md R280). -/
theorem blockOk_applyReset (s : State) : BlockOk s.applyReset :=
  ⟨envelopeOk_of_cleared rfl ⟨rfl, rfl, rfl, rfl, rfl, rfl, rfl, rfl, rfl⟩,
    ⟨fun _ => ⟨rfl, rfl⟩, nofun, nofun⟩,
    ⟨rfl, Nat.zero_le _, rfl, rfl, fun _ => ⟨rfl, rfl, rfl, rfl⟩, rfl⟩⟩

section
variable {d : Except Reject Instr} {s t : State}

theorem envelopeOk_outcome (h : BlockOk s) (ho : Outcome d s t) : EnvelopeOk t := by
  have henv : EnvelopeOk s := h.1
  cases ho with
  | refused | answered | begun | appended | overflowed | ended => exact henv
  | contract hu | frameFails hu | frameBadRecord hu =>
    have hcleared := clearedEnvelope_discard hu henv
    exact envelopeOk_of_cleared rfl hcleared
  | frameHolds => exact (blockOk_await h).1
  | @frameLoads u hu w z o p rest ds is _ _ hz hp hds =>
    have hmax := hds.trans_eq (congrArg BitVec.toNat (discard_bo_descMax hu).2.symm)
    exact envelopeOk_of_loaded rfl
      (loadedEnvelope_commitEnvelope (s := { u.ancDone with rx := rest }) (w := w) (o := o) hz hp hmax)
  | discarded hu is _ hm =>
    have hcleared := clearedEnvelope_discard hu henv
    exact envelopeOk_of_cleared (by simp [State.loaded, discard_mode hu hm]) hcleared
  | cursorsMoved c k is hm hc =>
    have hl : s.loaded = true := s.loaded_iff.mpr (.inl hm)
    have hs := henv.1 hl
    obtain ⟨hc', hk', -, hc2, -, hk2⟩ := cursorsAdvance_toNat hs hc
    obtain ⟨hsize, hplen, hpayload, -, hdcnt, -, hmax⟩ := hs
    exact envelopeOk_of_loaded hl
      ⟨hsize, hplen, hpayload, hc'.trans_le hc2, hdcnt, hk'.trans_le hk2, hmax⟩
  | decodeFailed e hm =>
    exact envelopeOk_of_loaded rfl (henv.1 (s.loaded_iff.mpr (.inl hm)))

/-- The code of a Decode failure (60_exceptions.md R241). -/
theorem code_of_decode {e : Status} (h : e.cls = .decode) : e.code = 0x30 ∨ e.code = 0x31 ∨ e.code = 0x32 := by
  cases e <;> simp_all [Status.cls, Status.code]

theorem errOk_outcome (h : BlockOk s) (ho : Outcome d s t) : ErrOk t := by
  have herr : ErrOk s := h.2.1
  cases ho with
  | refused | answered | begun | appended | overflowed | ended => exact herr
  | contract => exact ⟨by simp, nofun, fun _ => by simp⟩
  | frameHolds => exact (blockOk_await h).2.1
  | frameFails _ e info rest _ _ he =>
    refine ⟨by simp, nofun, fun _ => ?_⟩
    rcases he with rfl | rfl | rfl <;> simp [Status.code]
  | frameBadRecord => exact ⟨by simp, nofun, fun _ => by simp⟩
  | frameLoads hu w z o p rest ds is _ hm =>
    exact ⟨fun _ => (errOk_discard hu herr).1 (.inl (discard_mode hu hm)), nofun, nofun⟩
  | discarded hu =>
    have hdiscard := errOk_discard hu herr
    exact hdiscard
  | cursorsMoved c k is hm =>
    exact ⟨herr.1, by simp [hm], by simp [hm]⟩
  | decodeFailed e _ he => exact ⟨by simp, fun _ => ⟨code_of_decode he, rfl⟩, nofun⟩

/-- A message under construction stays in agreement when an encoding that fits is appended (43_encode.md R200). -/
theorem transmitOk_append (h : TransmitOk s) (hm : s.txmode = .txOpen) {bs : List Byte} (hs : List Handle)
    (hbs : 4 ∣ bs.length) (hl : s.txlen.toNat + bs.length ≤ 65527) :
    TransmitOk { s.memWrite s.txlen.toNat bs with
      txlen := BitVec.ofNat 16 (s.txlen.toNat + bs.length)
      txdesc := s.txdesc ++ hs
      txdcnt := s.txdcnt + BitVec.ofNat 32 hs.length } := by
  obtain ⟨hlen, -, hmod, hcnt, -, herr⟩ := h
  have hnew : (BitVec.ofNat 16 (s.txlen.toNat + bs.length)).toNat = s.txlen.toNat + bs.length := by
    rw [BitVec.toNat_ofNat, Nat.mod_eq_of_lt (by omega)]
  rw [memWrite_append hlen.symm]
  refine ⟨?_, ?_, ?_, ?_, fun hi => absurd (hm.symm.trans hi) nofun, herr⟩
  · simp only [hnew, List.length_append]; omega
  · simp only [List.length_append]; omega
  · simp only [hnew]; omega
  · simp only [hcnt, List.length_append, BitVec.ofNat_add]

theorem transmitOk_outcome (h : BlockOk s) (ho : Outcome d s t) : TransmitOk t := by
  have htx : TransmitOk s := h.2.2
  cases ho with
  | refused | answered | cursorsMoved | decodeFailed => exact htx
  | contract hu | frameFails hu | frameBadRecord hu | frameLoads hu | discarded hu =>
    have hdiscard := transmitOk_discard hu htx
    exact hdiscard
  | frameHolds => exact (blockOk_await h).2.2
  | begun => exact ⟨rfl, Nat.zero_le _, rfl, rfl, nofun, rfl⟩
  | appended ty v hm hl => exact transmitOk_append htx hm _ (four_dvd_enc_length s.bo ty v) hl
  | overflowed hm =>
    obtain ⟨hlen, hmax, hmod, hcnt, -, -⟩ := htx
    exact ⟨hlen, hmax, hmod, hcnt, nofun, rfl⟩
  | ended hm =>
    obtain ⟨-, -, -, -, -, herr⟩ := htx
    exact ⟨rfl, Nat.zero_le _, rfl, rfl, fun _ => ⟨rfl, rfl, rfl, rfl⟩, by rw [hm] at herr; exact herr⟩

theorem blockOk_outcome (h : BlockOk s) (ho : Outcome d s t) : BlockOk t :=
  ⟨envelopeOk_outcome h ho, errOk_outcome h ho, transmitOk_outcome h ho⟩

end

/-- Settles O15: reset restores the invariant, a wait touches nothing of it, and every outcome of a command keeps its
three parts. -/
theorem stepKeepsInvariant : Obligations.StepKeepsInvariant := by
  unfold Obligations.StepKeepsInvariant
  intro s t h hstep
  rcases step_outcome hstep with ⟨-, rfl⟩ | ⟨-, rfl⟩ | ⟨p, rest, -, -, ho⟩
  · exact blockOk_applyReset s
  · exact blockOk_await h
  · exact blockOk_outcome h ho

/-- Settles O16: `State.reset` has the registers and buffers that reset restores. -/
theorem resetStateMeetsInvariant : Obligations.ResetStateMeetsInvariant := by
  unfold Obligations.ResetStateMeetsInvariant
  have h := blockOk_applyReset State.reset
  exact h

/-! ### `CFG.BO` and `DESC_MAX` (10_state.md R21) -/

/-- No command changes the byte order or the capacity of the descriptor list. -/
theorem bo_descMax_outcome {d : Except Reject Instr} {s t : State} (ho : Outcome d s t) :
    t.bo = s.bo ∧ t.descMax = s.descMax := by
  cases ho with
  | refused | answered | cursorsMoved | decodeFailed | begun | appended | overflowed | ended => exact ⟨rfl, rfl⟩
  | contract hu | frameFails hu | frameBadRecord hu | frameLoads hu | discarded hu =>
    have hdiscard := discard_bo_descMax hu
    exact hdiscard
  | frameHolds => simp [State.await_frame s]

/-- Settles O20: reset samples the strap, and neither a wait nor a command writes the byte order; nothing writes the
capacity. -/
theorem byteOrderFixedBetweenResets : Obligations.ByteOrderFixedBetweenResets := by
  unfold Obligations.ByteOrderFixedBetweenResets
  intro s t hstep
  rcases step_outcome hstep with ⟨hr, rfl⟩ | ⟨hr, rfl⟩ | ⟨p, rest, hr, -, ho⟩
  · simp [hr]
  · simp [hr, State.await_frame s]
  · simpa [hr] using bo_descMax_outcome ho

/-! ### `LEAK` and `LEAKCNT` (10_state.md R33, R34) -/

/-- `LEAK` stays set, and is newly set only with the count of the unconsumed descriptors of a loaded envelope. -/
def LeakLaw (s t : State) : Prop :=
  (s.leak = true → t.leak = true) ∧
    (t.leak = true → s.leak = true ∨
      (s.loaded = true ∧ s.dcur.toNat < s.dcnt.toNat ∧ t.leakcnt.toNat = s.dcnt.toNat - s.dcur.toNat))

theorem leakLaw_of_eq {s t : State} (h : t.leak = s.leak) : LeakLaw s t :=
  ⟨h.trans, fun ht => .inl (h.symm.trans ht)⟩

/-- `do_discard()` sets `LEAK` exactly when it counts an unconsumed descriptor (40_framer.md R131). -/
theorem leakLaw_discard {s u : State} (hu : u = s.discardLoaded) : LeakLaw s u := by
  rcases discard_cases hu with ⟨hl, rfl⟩ | ⟨-, rfl⟩
  · have hcnt : (BitVec.ofNat 32 s.unconsumed).toNat = s.dcnt.toNat - s.dcur.toNat := by
      have := s.dcnt.isLt
      rw [BitVec.toNat_ofNat, State.unconsumed, Nat.mod_eq_of_lt (by omega)]
    refine ⟨fun h => by simp [h], fun h => ?_⟩
    rw [State.doDiscard_leak, Bool.or_eq_true, decide_eq_true_iff] at h
    exact h.imp_right fun hn => ⟨hl, Nat.lt_of_sub_pos hn, hcnt⟩
  · exact leakLaw_of_eq rfl

theorem leakLaw_outcome {d : Except Reject Instr} {s t : State} (ho : Outcome d s t) : LeakLaw s t := by
  cases ho with
  | refused | answered | cursorsMoved | decodeFailed | begun | appended | overflowed | ended =>
    exact leakLaw_of_eq rfl
  | contract hu | frameFails hu | frameBadRecord hu | frameLoads hu | discarded hu =>
    have hdiscard := leakLaw_discard hu
    exact hdiscard
  | frameHolds => exact leakLaw_of_eq (by simp [State.await_frame s])

/-- Settles O21: a wait leaves `LEAK` alone, and of the outcomes of a command only those with a discard write it. -/
theorem leakIsSticky : Obligations.LeakIsSticky := by
  unfold Obligations.LeakIsSticky
  intro s t hreset hstep
  rcases step_outcome hstep with ⟨hr, -⟩ | ⟨-, rfl⟩ | ⟨p, rest, -, -, ho⟩
  · exact absurd hr (by simp [hreset])
  · exact leakLaw_of_eq (by simp [State.await_frame s])
  · exact leakLaw_outcome ho

/-! ### The cursors of a loaded envelope (10_state.md R27, R30) -/

/-- Settles O22: SKIP and the DEC commands that succeed move the cursors forward within bounds; FRAME, DISCARD and a
type-contract violation are excluded; every other outcome leaves the envelope alone. -/
theorem cursorsMoveForward : Obligations.CursorsMoveForward := by
  unfold Obligations.CursorsMoveForward
  intro i s t h hl hframe hdiscard hsupported hexec
  obtain ⟨⟨hloaded, -⟩, -, -⟩ := h
  have hs := hloaded hl
  obtain ⟨-, -, -, hcur, -, hdcur, -⟩ := hloaded hl
  cases exec_outcome hexec with
  | refused | answered | decodeFailed | begun | appended | overflowed | ended =>
    exact ⟨le_rfl, hcur, le_rfl, hdcur, rfl, rfl, rfl, rfl, rfl, rfl, rfl⟩
  | contract _ w hd => exact absurd (hd i rfl) (by simp [hsupported])
  | frameHolds => simp [State.await_frame s, hcur, hdcur]
  | frameFails _ _ _ _ hd | frameBadRecord _ _ _ _ hd | frameLoads _ _ _ _ _ _ _ _ hd =>
    exact absurd (Except.ok.inj hd) hframe
  | discarded _ _ hd => exact absurd (Except.ok.inj hd) hdiscard
  | cursorsMoved c k is _ hc =>
    obtain ⟨hc', hk', hc1, hc2, hk1, hk2⟩ := cursorsAdvance_toNat hs hc
    exact ⟨hc1.trans_eq hc'.symm, hc'.trans_le hc2, hk1.trans_eq hk'.symm, hk'.trans_le hk2,
      rfl, rfl, rfl, rfl, rfl, rfl, rfl⟩

/-! ### Closed handles (10_state.md R46; 20_memory.md R67) -/

theorem closedHandles_append (os os' : List Output) :
    closedHandles (os ++ os') = closedHandles os ++ closedHandles os' := by
  induction os with
  | nil => rfl
  | cons o os ih => cases o <;> simp [closedHandles, ih]

theorem closedHandles_map_close (hs : List Handle) : closedHandles (hs.map Output.close) = hs := by
  induction hs with
  | nil => rfl
  | cons h hs ih => simp [closedHandles, ih]

/-- From `s` to `t` outputs are added only, and they close handles that meet `P` only. -/
def ClosesOnly (P : Handle → Prop) (s t : State) : Prop :=
  ∃ evs, t.out = s.out ++ evs ∧ ∀ h ∈ closedHandles evs, P h

section
variable {P : Handle → Prop} {s t u : State}

theorem closesOnly_of_out_eq (h : t.out = s.out) : ClosesOnly P s t := ⟨[], by simp [h], nofun⟩

/-- More outputs that close handles meeting `P`. -/
theorem ClosesOnly.append {os : List Output} (hu : ClosesOnly P s u) (hos : ∀ h ∈ closedHandles os, P h)
    (ht : t.out = u.out ++ os) : ClosesOnly P s t := by
  obtain ⟨evs, hout, hevs⟩ := hu
  refine ⟨evs ++ os, by rw [ht, hout, List.append_assoc], fun h hh => ?_⟩
  rw [closedHandles_append, List.mem_append] at hh
  exact hh.elim (hevs h) (hos h)

/-- A response closes nothing. -/
theorem ClosesOnly.respond (hu : ClosesOnly P s u) {st : Status} {is : List Item}
    (ht : t.out = u.out ++ [.response st is]) : ClosesOnly P s t :=
  hu.append (by simp [closedHandles]) ht

/-- A command with no event but its response closes nothing. -/
theorem closesOnly_of_response {st : Status} {is : List Item} (ht : t.out = s.out ++ [.response st is]) :
    ClosesOnly P s t := (closesOnly_of_out_eq rfl).respond ht

/-- The implicit discard closes unconsumed descriptors of the loaded envelope only (40_framer.md R131). -/
theorem closesOnly_discard (hP : ∀ h, s.loaded = true ∧ h ∈ s.desc.drop s.dcur.toNat → P h)
    (hu : u = s.discardLoaded) : ClosesOnly P s u := by
  rcases discard_cases hu with ⟨hl, rfl⟩ | ⟨-, rfl⟩
  · refine ⟨_, State.doDiscard_out s, fun h hh => ?_⟩
    rw [closedHandles_map_close] at hh
    exact hP h ⟨hl, List.mem_of_mem_take hh⟩
  · exact closesOnly_of_out_eq rfl

end

/-- The block owns the handle in the step from `s` to `t`: an unconsumed descriptor of the loaded envelope, or a handle
of a record before the first bad one, taken by a FRAME that fails on its records (10_state.md R46). -/
def OwnedInStep (s t : State) (h : Handle) : Prop :=
  (s.loaded = true ∧ h ∈ s.desc.drop s.dcur.toNat) ∨
    (s.resetIn = false ∧ (∃ p rest, s.cmdPort = p :: rest ∧ decode p = .ok .frame) ∧
      t.mode = .dead ∧ t.err = 0x22 ∧ h ∈ rightsHandles (s.ancRecords.takeWhile (· != .bad)))

theorem closesOnly_outcome {s t : State} {p : Packet} {rest : List Packet} (hr : s.resetIn = false)
    (hp : s.cmdPort = p :: rest) (ho : Outcome (decode p) s t) : ClosesOnly (OwnedInStep s t) s t := by
  have hdiscard : ∀ {u t : State}, u = s.discardLoaded → ClosesOnly (OwnedInStep s t) s u :=
    closesOnly_discard fun _ => .inl
  cases ho with
  | refused | answered | cursorsMoved | decodeFailed | begun | appended | overflowed =>
    exact closesOnly_of_response rfl
  | contract hu | frameFails hu | frameLoads hu | discarded hu => exact (hdiscard hu).respond rfl
  | frameHolds => exact closesOnly_of_out_eq (by simp [State.await_frame s])
  | @frameBadRecord u hu rx info ds hd _ hds =>
    refine ClosesOnly.respond (u := { u.ancDone with rx := rx }.closeAll ds) ?_ rfl
    refine (hdiscard hu).append (os := ds.map .close) (fun h hh => ?_) rfl
    rw [closedHandles_map_close] at hh
    exact .inr ⟨hr, ⟨p, rest, hp, hd⟩, rfl, rfl, hds h hh⟩
  | ended =>
    refine ClosesOnly.respond (u := s.txEmit _ s.txdesc) ?_ rfl
    exact (closesOnly_of_out_eq rfl).append (u := s) (by simp [closedHandles]) rfl

/-- Settles O25: reset and waits put out nothing, and of the outcomes of a command only a discard and the FRAME that
fails on a record close handles. -/
theorem closesOnlyOwnedHandles : Obligations.ClosesOnlyOwnedHandles := by
  unfold Obligations.ClosesOnlyOwnedHandles
  intro s t hstep
  change ClosesOnly (OwnedInStep s t) s t
  rcases step_outcome hstep with ⟨-, rfl⟩ | ⟨-, rfl⟩ | ⟨p, rest, hr, hp, ho⟩
  · exact closesOnly_of_out_eq rfl
  · exact closesOnly_of_out_eq (by simp [State.await_frame s])
  · exact closesOnly_outcome hr hp ho

end Sys2Proof.Proofs.BlockState
end

section
/-! The family `20_memory.md`: the bounds of what `dec` reads (R61, R62), and the separation of the receive side and
the transmit side (R79). -/

namespace Sys2Proof.Proofs.Memory

open Sys2Proof.Machine Sys2Proof.Safety Sys2Proof.Proofs.BlockState

/-! ### Reads stay within the envelope (20_memory.md R61, R62) -/

/-- Settles O44: it is `CursorsAdvance`, with each bound read from a start within it. -/
theorem decodeStaysInBounds : Obligations.DecodeStaysInBounds := by
  unfold Obligations.DecodeStaysInBounds
  intro s t v c d c' d' h
  obtain ⟨hc, hplen, hd, hdcnt⟩ := cursorsAdvance_of_dec h
  exact ⟨hc, hd, fun hb => max_eq_right hb ▸ hplen, fun hb => max_eq_right hb ▸ hdcnt⟩

/-! ### The two sides (20_memory.md R79)

An update that writes nothing of a side has the same registers and buffers of it by computation, so the reflexivity
lemmas serve for every such update. -/

theorem sameReceive_refl (s : State) : SameReceive s s := by simp [SameReceive]

theorem sameTransmit_refl (s : State) : SameTransmit s s := by simp [SameTransmit]

section
variable {s : State}

/-- `do_discard()` clears the envelope, and it is on the receive side (40_framer.md R131). -/
theorem sameTransmit_discard {u : State} (hu : u = s.discardLoaded) : SameTransmit s u := by
  rcases discard_cases hu with ⟨-, rfl⟩ | ⟨-, rfl⟩ <;> exact sameTransmit_refl _

/-- FRAME in each of its ends: it waits, fails in a read or on a record, or loads (40_framer.md R130, R135, R137). -/
theorem sameTransmit_frameBody : SameTransmit s s.frameBody := by
  rcases s.frameBody_cases with ⟨-, he⟩ | ⟨e, info, rest, -, he⟩ | ⟨w, z, o, p, rest, j, ds, -, -, he⟩ |
    ⟨w, z, o, p, rest, ds, -, -, he⟩ <;> rw [he]
  · simp [SameTransmit, s.await_frame]
  all_goals
    generalize hu : s.discardLoaded = u
    have hdiscard := sameTransmit_discard hu.symm
    exact hdiscard

theorem sameTransmit_discardBody : SameTransmit s s.discardBody := by
  unfold State.discardBody
  split <;> exact sameTransmit_refl s

theorem sameTransmit_skipBody (n : Half) : SameTransmit s (s.skipBody n) := by
  unfold State.skipBody
  split <;> exact sameTransmit_refl s

theorem sameTransmit_decodeArg (t : Ty) : SameTransmit s (s.decodeArg t) := by
  rcases s.decodeArg_cases t with ⟨v, c, d, -, he⟩ | ⟨e, -, -, he⟩ <;> rw [he] <;> exact sameTransmit_refl s

/-- An ENC value command writes the message under construction, or enters `TX_FAULT` (60_exceptions.md R254). -/
theorem sameReceive_encodeArg (t : Ty) (v : t.Val) : SameReceive s (s.encodeArg t v) := by
  rcases s.encodeArg_cases t v with ⟨-, he⟩ | ⟨-, he⟩ <;> rw [he] <;> exact sameReceive_refl s

/-- The mode check refuses with a response only (60_exceptions.md R255), so what holds of that and of the body's result
holds of the command. -/
theorem checked_of_body {P : State → Prop} {legal : Bool} {body : State → State}
    (hrefused : P (s.respond .badMode [])) (hbody : P (body s)) : P (s.checked legal body) := by
  rcases s.checked_cases legal body with ⟨-, -, he⟩ | ⟨-, he⟩ <;> rw [he]
  · exact hbody
  · exact hrefused

theorem sameTransmit_checked {legal : Bool} {body : State → State} (h : SameTransmit s (body s)) :
    SameTransmit s (s.checked legal body) :=
  checked_of_body (P := SameTransmit s) (sameTransmit_refl s) h

theorem sameReceive_checked {legal : Bool} {body : State → State} (h : SameReceive s (body s)) :
    SameReceive s (s.checked legal body) :=
  checked_of_body (P := SameReceive s) (sameReceive_refl s) h

end

/-- The commands that work on the transmit side: the ENC value commands, ENC.END, and ENC.BEGIN (43_encode.md). -/
def IsEnc (i : Instr) : Prop := legality i = .txOpenOnly ∨ ∃ o w, i = .encBegin o w

/-- ENC.BEGIN is the one command on the transmit side that `TX_OPEN` does not guard, and its row is `unlessDead`. -/
theorem not_isEnc_of_legality {i : Instr} (h : legality i = .readyOnly ∨ legality i = .anywhere) : ¬ IsEnc i := by
  rintro (htx | ⟨o, w, rfl⟩)
  · simp [htx] at h
  · simp [legality] at h

/-- Each command of a supported type works on its own side only. -/
theorem exec_sides {i : Instr} {s t : State} (hsupported : typeSupported i = true) (hexec : exec i s = .next t) :
    (IsEnc i ∧ SameReceive s t) ∨ (¬ IsEnc i ∧ SameTransmit s t) := by
  rcases exec_cases i s with ⟨rfl, hx⟩ | ⟨rfl, hx⟩ | ⟨n, rfl, hx⟩ | ⟨ty, hl, -, hx⟩ | ⟨o, w, rfl, hx⟩ |
    ⟨ty, v, hl, -, -, -, hx⟩ | ⟨rfl, hx⟩ | ⟨n, it, hl, hx⟩ | ⟨r, rfl, -, hx⟩ | ⟨-, hu, hx⟩ | ⟨hl, -, -, hx⟩ <;>
    obtain rfl := Host.Outcome.next.inj (hx.symm.trans hexec)
  · exact .inr ⟨by simp [IsEnc, legality], sameTransmit_checked sameTransmit_frameBody⟩
  · exact .inr ⟨by simp [IsEnc, legality], sameTransmit_checked sameTransmit_discardBody⟩
  · exact .inr ⟨not_isEnc_of_legality (.inl rfl), sameTransmit_checked (sameTransmit_skipBody n)⟩
  · exact .inr ⟨not_isEnc_of_legality (.inl hl), sameTransmit_checked (sameTransmit_decodeArg ty)⟩
  · exact .inl ⟨.inr ⟨o, w, rfl⟩, sameReceive_checked (sameReceive_refl s)⟩
  · exact .inl ⟨.inl hl, sameReceive_checked (sameReceive_encodeArg ty v)⟩
  · exact .inl ⟨.inl rfl, sameReceive_checked (sameReceive_refl s)⟩
  · exact .inr ⟨not_isEnc_of_legality (.inr hl), sameTransmit_refl s⟩
  · exact .inr ⟨not_isEnc_of_legality (.inr rfl), sameTransmit_refl s⟩
  · simp [hsupported] at hu
  · rcases hl with hl | hl
    · exact .inr ⟨not_isEnc_of_legality (.inl hl), sameTransmit_refl s⟩
    · exact .inl ⟨.inl hl, sameReceive_refl s⟩

/-- Settles O28: no outcome writes the byte order, and each command works on its own side. -/
theorem sidesAreSeparate : Obligations.SidesAreSeparate := by
  unfold Obligations.SidesAreSeparate
  intro i s t hsupported hexec
  refine ⟨(bo_descMax_outcome (exec_outcome hexec)).1, ?_⟩
  rcases exec_sides hsupported hexec with ⟨henc, hreceive⟩ | ⟨hother, htransmit⟩
  · exact ⟨fun _ => hreceive, fun htx hbegin => absurd henc (not_or.mpr ⟨htx, fun ⟨o, w, hi⟩ => hbegin o w hi⟩)⟩
  · exact ⟨fun henc => absurd henc hother, fun _ _ => htransmit⟩

end Sys2Proof.Proofs.Memory
end

section
/-! The family `30_encoding.md`, the carriage of items in beats: data beats and their bytes, items and their values,
operand beats and their items (R112 to R114). -/

namespace Sys2Proof.Proofs.Beats

open Sys2Proof.Machine Sys2Proof.Safety

/-! ### Data beats (30_encoding.md R114) -/

theorem padding_add_four (n : Nat) : padding (n + 4) = padding n := by
  simp [padding, pad]

/-- The data beats of a byte list hold its bytes in order, then zero lanes. -/
theorem flatten_packBytes : ∀ bs : List Byte,
    ((packBytes bs).map (bytes32 .le)).flatten = bs ++ padding bs.length
  | [] => rfl
  | [b0] => by simp [packBytes, bytes32_u32, padding, pad]
  | [b0, b1] => by simp [packBytes, bytes32_u32, padding, pad]
  | [b0, b1, b2] => by simp [packBytes, bytes32_u32, padding, pad]
  | b0 :: b1 :: b2 :: b3 :: bs => by
    have ih := flatten_packBytes bs
    simp [packBytes, bytes32_u32, ih, padding_add_four bs.length]

theorem itemFits_bytes {bs : List Byte} : itemFits (.bytes bs) = true ↔ bs.length ≤ 65535 := decide_eq_true_iff

/-- A `Bytes` item that fits is read back from its beats. -/
theorem takeBytes_itemBeats {bs : List Byte} (h : itemFits (.bytes bs) = true) (r : List Word) :
    takeBytes (itemBeats (.bytes bs) ++ r) = some (bs, r) := by
  rw [itemFits_bytes] at h
  have hn : (lenWord bs.length).toNat = bs.length := lenWord_toNat (by omega)
  simp [takeBytes, itemBeats, hn, h, ← packBytes_length, flatten_packBytes]

/-- What is read as a `Bytes` item are the beats of one, and it fits. -/
theorem takeBytes_parts {ops r : List Word} {bs : List Byte} (h : takeBytes ops = some (bs, r)) :
    itemFits (.bytes bs) = true ∧ ∃ ws, ops = ws ++ r ∧ BytesBeats ws := by
  refine ⟨itemFits_bytes.mpr (takeBytes_eq_some h).1, ?_⟩
  cases ops with
  | nil => simp [takeBytes] at h
  | cons n ops =>
    simp only [takeBytes] at h
    split_ifs at h with hn hbeats
    obtain ⟨-, rfl⟩ := Prod.mk.inj (Option.some.inj h)
    exact ⟨n :: ops.take ((n.toNat + 3) / 4), by simp, n, _, rfl, Nat.not_lt.mp hn,
      List.length_take_of_le (Nat.not_lt.mp hbeats)⟩

/-- The beats of a `Bytes` item are read as one, whatever follows. -/
theorem takeBytes_of_bytesBeats {ws : List Word} (h : BytesBeats ws) :
    ∃ bs, ∀ r, takeBytes (ws ++ r) = some (bs, r) := by
  obtain ⟨n, data, rfl, hn, hlen⟩ := h
  refine ⟨((data.map (bytes32 .le)).flatten).take n.toNat, fun r => ?_⟩
  simp [takeBytes, ← hlen, hn]

/-! ### Many values -/

/-- The converse of `readMany_flatten`: when every value that `f` reads was written by `w`, what `readMany` read are
values written one after another. -/
theorem readMany_parts {α γ δ : Type} {f : List γ → Option (δ × List γ)} {w : α → List γ} {g : α → δ}
    {P : α → Prop} (hf : ∀ {r v r'}, f r = some (v, r') → ∃ x, r = w x ++ r' ∧ v = g x ∧ P x) :
    ∀ {n : Nat} {r r' : List γ} {vs : List δ}, readMany f n r = some (vs, r') →
      ∃ xs : List α, xs.length = n ∧ r = (xs.map w).flatten ++ r' ∧ vs = xs.map g ∧ ∀ x ∈ xs, P x
  | 0, r, r', vs, h => by
    obtain ⟨rfl, rfl⟩ := Prod.mk.inj (Option.some.inj h)
    exact ⟨[], rfl, rfl, rfl, nofun⟩
  | n + 1, r, r', vs, h => by
    simp only [readMany] at h
    split at h
    · cases h
    · rename_i v r1 hv
      split at h
      · cases h
      · rename_i us r2 hus
        obtain ⟨rfl, rfl⟩ := Prod.mk.inj (Option.some.inj h)
        obtain ⟨x, rfl, rfl, hx⟩ := hf hv
        obtain ⟨xs, rfl, rfl, rfl, hxs⟩ := readMany_parts hf hus
        exact ⟨x :: xs, rfl, by simp, rfl, by simpa using ⟨hx, hxs⟩⟩

theorem lenWord_of_toNat {n : Nat} {w : Word} (h : n = w.toNat) : lenWord n = w := by
  rw [lenWord, h, BitVec.ofNat_toNat, BitVec.setWidth_eq]

/-! ### Values that a packet can carry (30_encoding.md R112, R114) -/

/-- The counts of the value fit their words, and its `Bytes` items fit a packet. -/
def Carried (t : Ty) (v : t.Val) : Prop := countsFit t v = true ∧ (items t v).all itemFits = true

/-- A `Bytes` item that fits a packet has a length that fits a word, so it alone decides. -/
@[simp] theorem carried_string {s : List Byte} : Carried .string s ↔ itemFits (.bytes s) = true := by
  simp only [Carried, countsFit, items, List.all_cons, List.all_nil, Bool.and_true, itemFits_bytes, decide_eq_true_eq]
  omega

@[simp] theorem carried_array {b : List Byte} : Carried .array b ↔ itemFits (.bytes b) = true := by
  simp only [Carried, countsFit, items, List.all_cons, List.all_nil, Bool.and_true, itemFits_bytes, decide_eq_true_eq]
  omega

@[simp] theorem carried_newid {name : List Byte} {ver : Word} :
    Carried .newid (name, ver) ↔ itemFits (.bytes name) = true := by
  have hver : itemFits (.word ver) = true := rfl
  simp only [Carried, countsFit, items, List.all_cons, List.all_nil, Bool.and_true, itemFits_bytes, hver,
    decide_eq_true_eq]
  omega

@[simp] theorem carried_seq {t : Ty} {vs : List t.Val} :
    Carried (.seq t) vs ↔ vs.length < 2 ^ 32 ∧ ∀ v ∈ vs, Carried t v := by
  simp only [Carried, countsFit, items, List.all_cons, List.all_flatten, List.all_map, Bool.and_eq_true,
    decide_eq_true_eq, List.all_eq_true (l := vs), Function.comp_apply, forall_and, and_assoc,
    show ∀ w, itemFits (.word w) = true from fun _ => rfl, true_and]

/-! ### Items and the value they carry (30_encoding.md R113) -/

/-- The items of a value whose counts fit their words are read back as that value. -/
theorem ofItems_items : ∀ {t : Ty} {v : t.Val}, Carried t v → ∀ r : List Item,
    ofItems t (items t v ++ r) = some (v, r) := by
  intro t
  induction t with
  | int | uint | fixed | string | array | newid | fd => intros; rfl
  | seq t ih =>
    intro vs h r
    obtain ⟨hlen, hall⟩ := carried_seq.mp h
    have hmany := readMany_flatten vs (fun v hv => ih (hall v hv)) r
    simpa [ofItems, items, lenWord_toNat hlen] using hmany

/-- What is read as a value are its items; where they fit a packet, its counts fit their words. -/
theorem ofItems_parts : ∀ {t : Ty} {is r : List Item} {v : t.Val}, ofItems t is = some (v, r) →
    is = items t v ++ r ∧ ((items t v).all itemFits = true → Carried t v) := by
  intro t
  induction t with
  | int | uint | fixed | fd =>
    intro is r v h
    rcases is with _ | ⟨_ | _ | _ | _, is⟩ <;> simp_all [ofItems, items, Carried, countsFit]
  | string | array =>
    intro is r v h
    rcases is with _ | ⟨_ | _ | _ | _, is⟩ <;> simp_all [ofItems, items]
  | newid =>
    rintro is r ⟨name, ver⟩ h
    rcases is with _ | ⟨_ | _ | _ | _, _ | ⟨_ | _ | _ | _, is⟩⟩ <;> simp_all [ofItems, items]
  | seq t ih =>
    intro is r vs h
    rcases is with _ | ⟨n | _ | _ | _, is⟩ <;> simp only [ofItems, reduceCtorEq] at h
    obtain ⟨us, hlen, rfl, rfl, hus⟩ := readMany_parts (g := id) (fun h => by
      obtain ⟨hr, hc⟩ := ih h
      exact ⟨_, hr, rfl, hc⟩) h
    rw [List.map_id]
    refine ⟨by simp [items, lenWord_of_toNat hlen], fun hfits => ?_⟩
    refine carried_seq.mpr ⟨hlen ▸ n.isLt, fun v hv => ?_⟩
    have hflat : ((us.map (items t)).flatten).all itemFits = true := (Bool.and_eq_true_iff.mp hfits).2
    rw [List.all_flatten, List.all_map] at hflat
    exact hus v hv (List.all_eq_true.mp hflat v hv)

/-- The items of a well-shaped operand are those of a value that a packet can carry (30_encoding.md R110, R113). -/
theorem shapeOk_iff {t : Ty} {is : List Item} : shapeOk t is = true ↔ ∃ v, is = items t v ∧ Carried t v := by
  unfold shapeOk
  constructor
  · intro h
    obtain ⟨hfits, hread⟩ := Bool.and_eq_true_iff.mp h
    split at hread
    · rename_i v hv
      obtain ⟨his, hcarried⟩ := ofItems_parts hv
      rw [List.append_nil] at his
      exact ⟨v, his, hcarried (his ▸ hfits)⟩
    · cases hread
  · rintro ⟨v, rfl, hv⟩
    have hread := ofItems_items hv []
    rw [List.append_nil] at hread
    rw [hv.2, hread]
    rfl

/-! ### Items and their beats (30_encoding.md R113, R114) -/

@[simp] theorem itemsBeats_nil : itemsBeats [] = [] := rfl

@[simp] theorem itemsBeats_word (w : Word) (is : List Item) : itemsBeats (.word w :: is) = w :: itemsBeats is := rfl

theorem itemsBeats_cons (it : Item) (is : List Item) : itemsBeats (it :: is) = itemBeats it ++ itemsBeats is := by
  simp [itemsBeats]

theorem itemsBeats_flatten (iss : List (List Item)) :
    itemsBeats iss.flatten = (iss.map itemsBeats).flatten := by
  induction iss with
  | nil => rfl
  | cons is iss ih => simp_all [itemsBeats]

/-- A `Bytes` item that fits is read back from the beats of an item list that begins with it. -/
theorem takeBytes_itemsBeats {bs : List Byte} (h : itemFits (.bytes bs) = true) (is : List Item) :
    takeBytes (itemsBeats (.bytes bs :: is)) = some (bs, itemsBeats is) := by
  rw [itemsBeats_cons, takeBytes_itemBeats h]

/-- One who knows the type reads the items of a value back from their beats. -/
theorem takeItems_itemsBeats : ∀ {t : Ty} {v : t.Val}, Carried t v → ∀ r : List Word,
    takeItems t (itemsBeats (items t v) ++ r) = some (items t v, r) := by
  intro t
  induction t with
  | int | uint | fixed | fd => intros; rfl
  | string | array =>
    intro v h r
    have hbytes : itemFits (.bytes v) = true := by simpa using h
    simp [takeItems, items, itemsBeats, takeBytes_itemBeats hbytes]
  | newid =>
    rintro ⟨name, ver⟩ h r
    have hname := takeBytes_itemBeats (carried_newid.mp h) (ver :: r)
    simp [takeItems, items, itemsBeats_cons (.bytes name), hname]
  | seq t ih =>
    intro vs h r
    obtain ⟨hlen, hall⟩ := carried_seq.mp h
    have hmany := readMany_flatten vs (fun v hv => ih (hall v hv)) r
    simp [takeItems, items, itemsBeats_cons, itemsBeats_flatten, itemBeats, lenWord_toNat hlen,
      Function.comp_def, hmany]

/-- What is read as the items of a type are the items of a value that a packet can carry, and the beats are those of
one value. -/
theorem takeItems_parts : ∀ {t : Ty} {ops r : List Word} {is : List Item}, takeItems t ops = some (is, r) →
    ∃ x : List Word × t.Val, ops = x.1 ++ r ∧ is = items t x.2 ∧ ValueBeats t x.1 ∧ Carried t x.2 := by
  intro t
  induction t with
  | int | uint | fixed | fd =>
    intro ops r is h
    cases ops with
    | nil => simp [takeItems] at h
    | cons w ops =>
      obtain ⟨rfl, rfl⟩ := Prod.mk.inj (Option.some.inj h)
      exact ⟨([w], w), rfl, rfl, rfl, rfl, rfl⟩
  | string | array =>
    intro ops r is h
    simp only [takeItems, Option.map_eq_some_iff, Prod.mk.injEq, Prod.exists] at h
    obtain ⟨bs, r1, hbs, rfl, rfl⟩ := h
    obtain ⟨hfits, ws, rfl, hws⟩ := takeBytes_parts hbs
    exact ⟨(ws, bs), rfl, rfl, hws, by simpa using hfits⟩
  | newid =>
    intro ops r is h
    simp only [takeItems] at h
    split at h
    · rename_i bs ver r1 hbs
      obtain ⟨rfl, rfl⟩ := Prod.mk.inj (Option.some.inj h)
      obtain ⟨hfits, ws, rfl, hws⟩ := takeBytes_parts hbs
      exact ⟨(ws ++ [ver], (bs, ver)), by simp, rfl, ⟨ws, ver, rfl, hws⟩, carried_newid.mpr hfits⟩
    · cases h
  | seq t ih =>
    intro ops r is h
    cases ops with
    | nil => simp [takeItems] at h
    | cons n ops =>
      simp only [takeItems, Option.map_eq_some_iff, Prod.mk.injEq, Prod.exists] at h
      obtain ⟨iss, r1, hmany, rfl, rfl⟩ := h
      obtain ⟨xs, hlen, rfl, rfl, hxs⟩ := readMany_parts ih hmany
      have hlen2 : (xs.map Prod.snd).length = n.toNat := by simpa using hlen
      refine ⟨(n :: (xs.map Prod.fst).flatten, xs.map Prod.snd), rfl, ?_, ⟨n, xs.map Prod.fst, rfl, ?_, ?_⟩,
        carried_seq.mpr ⟨hlen2 ▸ n.isLt, ?_⟩⟩
      · simp only [items, lenWord_of_toNat hlen2, List.map_map, Function.comp_def]
      · simpa using hlen
      · exact List.forall_mem_map.mpr fun x hx => (hxs x hx).1
      · exact List.forall_mem_map.mpr fun x hx => (hxs x hx).2

/-- The beats of one value are read as its items, whatever follows. -/
theorem takeItems_of_valueBeats : ∀ {t : Ty} {ws : List Word}, ValueBeats t ws →
    ∃ is, ∀ r, takeItems t (ws ++ r) = some (is, r) := by
  intro t
  induction t with
  | int | uint | fixed | fd =>
    intro ws h
    obtain ⟨w, rfl⟩ := List.length_eq_one_iff.mp h
    exact ⟨_, fun r => rfl⟩
  | string | array =>
    intro ws h
    obtain ⟨bs, hbs⟩ := takeBytes_of_bytesBeats h
    exact ⟨[.bytes bs], fun r => by simp [takeItems, hbs]⟩
  | newid =>
    rintro ws ⟨ws, ver, rfl, h⟩
    obtain ⟨bs, hbs⟩ := takeBytes_of_bytesBeats h
    exact ⟨[.bytes bs, .word ver], fun r => by simp [takeItems, hbs]⟩
  | seq t ih =>
    rintro ws ⟨n, parts, rfl, hlen, hparts⟩
    choose! g hg using fun ws => ih (ws := ws)
    refine ⟨.word n :: (parts.map g).flatten, fun r => ?_⟩
    have hmany := readMany_flatten (w := id) parts (fun part hp => hg part (hparts part hp)) r
    rw [List.map_id, hlen] at hmany
    simp [takeItems, hmany]

end Sys2Proof.Proofs.Beats
end

section
/-! The family `30_encoding.md`, command packets: the decoder's answer for every command word and its operand beats
(R105 to R114), and the obligations on encoding and decoding packets. -/

namespace Sys2Proof.Proofs.Packets

open Sys2Proof.Machine Sys2Proof.Safety Sys2Proof.Proofs.Beats

/-! ### The commands with a type (30_encoding.md R106, R108)

For each of the four operations: where the fields in use are right, the packet is read by `BASE` and `DEPTH`. -/

section
variable {p : Packet} (himm : immField p.word = 0)
include himm

theorem decode_opDec (hop : opField p.word = 0x10) (hdepth : depthField p.word = 0) :
    decode p = decodeDec p.word p.operands := by
  simp [decode, formatBase, hop, himm, hdepth]

theorem decode_opEnc (hop : opField p.word = 0x21) (hdepth : depthField p.word = 0) :
    decode p = decodeEnc p.word p.operands := by
  simp [decode, formatBase, hop, himm, hdepth]

theorem decode_opDecSeq (hop : opField p.word = 0x11) (hdepth : depthField p.word ≠ 0) :
    decode p = decodeDecSeq p.word p.operands := by
  simp only [decode, formatSeq, hop, himm, if_neg hdepth]
  rfl

theorem decode_opEncSeq (hop : opField p.word = 0x22) (hdepth : depthField p.word ≠ 0) :
    decode p = decodeEncSeq p.word p.operands := by
  simp only [decode, formatSeq, hop, himm, if_neg hdepth]
  rfl

end

section
variable {w : Word} {ops : List Word}

/-- Without operand beats DEC.SEQ is read whether its type is supported or not. -/
theorem decodeDecSeq_of_nil (h : ops = []) : decodeDecSeq w ops = .ok (.decSeq (depthField w) (baseField w)) := by
  subst h
  unfold decodeDecSeq
  split <;> rfl

theorem decodeDecSeq_of_some {t : Ty} (ht : typeOf (depthField w) (baseField w) = some t) :
    decodeDecSeq w ops = takesNone ops (.decSeq (depthField w) (baseField w)) := by
  rw [decodeDecSeq, ht]

theorem decodeDecSeq_of_none (ht : typeOf (depthField w) (baseField w) = none) :
    decodeDecSeq w ops = .ok (.decSeq (depthField w) (baseField w)) := by
  rw [decodeDecSeq, ht]

theorem decodeEncSeq_of_some {t : Ty} (ht : typeOf (depthField w) (baseField w) = some t) :
    decodeEncSeq w ops = takesItems t ops (.encSeq (depthField w) (baseField w)) := by
  rw [decodeEncSeq, ht]

theorem decodeEncSeq_of_none (ht : typeOf (depthField w) (baseField w) = none) :
    decodeEncSeq w ops = .ok (.encSeq (depthField w) (baseField w) []) := by
  rw [decodeEncSeq, ht]

end

/-! ### Decoding what the encoder wrote (30_encoding.md R105, R106, R114) -/

/-- An `F64` is its two beats, low half first (30_encoding.md R114). -/
theorem f64_of_beats (x : F64) :
    (x.extractLsb' 32 32).setWidth 64 <<< 32 ||| (x.extractLsb' 0 32).setWidth 64 = x := by
  ext i hi
  simp [BitVec.getLsbD_eq_getElem, hi]
  grind

/-- The operand items of a sequence are read back from their beats (30_encoding.md R113). -/
theorem takesItems_of_shapeOk {t : Ty} {is : List Item} (h : shapeOk t is = true) {f : List Item → Instr} :
    takesItems t (itemsBeats is) f = .ok (f is) := by
  obtain ⟨v, rfl, hv⟩ := shapeOk_iff.mp h
  have htake := takeItems_itemsBeats hv []
  rw [List.append_nil] at htake
  rw [takesItems, htake]

/-- ENC.SEQ carries the items of one value of its type, or none where it names no type (30_encoding.md R110, R111). -/
theorem wf_encSeq {depth base : BitVec 4} {is : List Item} : WellFormed (.encSeq depth base is) ↔ depth ≠ 0 ∧
    ((∃ t, typeOf depth base = some t ∧ shapeOk t is = true) ∨ (typeOf depth base = none ∧ is = [])) := by
  rw [WellFormed, Instr.wf, Bool.and_eq_true, bne_iff_ne]
  refine and_congr_right fun _ => ?_
  cases ht : typeOf depth base with
  | none => exact ⟨fun h => .inr ⟨rfl, List.isEmpty_iff.mp h⟩, fun h => by
      obtain ⟨t, h, -⟩ | ⟨-, rfl⟩ := h
      · cases h
      · rfl⟩
  | some t => exact ⟨fun h => .inl ⟨t, rfl, h⟩, fun h => by
      obtain ⟨u, hu, h⟩ | ⟨h, -⟩ := h
      · obtain rfl := Option.some.inj hu
        exact h
      · cases h⟩

/-- Settles O1: an instruction of each format, by the fields of its command word; its operands by the lemma on their
beats. -/
theorem decodeInvertsEncode : Obligations.DecodeInvertsEncode := by
  unfold Obligations.DecodeInvertsEncode
  intro i hwf
  cases i with
  | frame | discard | encEnd => rfl
  | decInt | decUint | decFixed | decString | decArray | decNewid | decFd => rfl
  | skip | rdreg =>
    simp [decode, encode, encodeWord, operandItems, itemsBeats, formatCmdI, takesNone]
  | encBegin =>
    simp [decode, encode, encodeWord, operandItems, itemsBeats, itemBeats, formatCmdI, takesWord]
  | encInt | encUint | encFixed | encFd =>
    simp [decode, encode, encodeWord, operandItems, itemsBeats, itemBeats, formatBase, decodeEnc, takesWord]
  | fxFromint | fxInteger | fxFraction | fxFloat =>
    simp [decode, encode, encodeWord, operandItems, itemsBeats, itemBeats, formatCmd0, takesWord]
  | fxFromfloat x =>
    simp [decode, encode, encodeWord, operandItems, itemsBeats, itemBeats, formatCmd0, takesF64, f64_of_beats]
  | encString | encArray =>
    simp [decode, encode, encodeWord, operandItems, formatBase, decodeEnc, takesBytes, takeBytes_itemsBeats hwf]
  | encNewid =>
    simp [decode, encode, encodeWord, operandItems, formatBase, decodeEnc, takesBytesWord, takeBytes_itemsBeats hwf]
  | decSeq depth base =>
    have hword : (encode (.decSeq depth base)).word = commandWord 0x11 base depth 0 := rfl
    have hops : (encode (.decSeq depth base)).operands = [] := rfl
    have hdepth : depth ≠ 0 := bne_iff_ne.mp hwf
    rw [decode_opDecSeq (by simp [hword]) (by simp [hword]) (by simpa [hword] using hdepth),
      decodeDecSeq_of_nil hops, hword, depthField_commandWord, baseField_commandWord]
  | encSeq depth base is =>
    have hword : (encode (.encSeq depth base is)).word = commandWord 0x22 base depth 0 := rfl
    obtain ⟨hdepth, htype⟩ := wf_encSeq.mp hwf
    rw [decode_opEncSeq (by simp [hword]) (by simp [hword]) (by simpa [hword] using hdepth)]
    rcases htype with ⟨t, ht, hshape⟩ | ⟨ht, rfl⟩
    · rw [decodeEncSeq_of_some (t := t) (by rwa [hword, depthField_commandWord, baseField_commandWord]), hword,
        depthField_commandWord, baseField_commandWord]
      exact takesItems_of_shapeOk hshape
    · rw [decodeEncSeq_of_none (by rwa [hword, depthField_commandWord, baseField_commandWord]), hword,
        depthField_commandWord, baseField_commandWord]

/-! ### The reading of operand beats (30_encoding.md R106, R110, R114) -/

/-- A reading `r` of the operand beats of a command word `w`: an instruction of that word, well-formed, exactly when
the beats fit, and `badOperands` otherwise. -/
structure Reads (w : Word) (fit : Prop) (r : Except Reject Instr) : Prop where
  word : ∀ i, r = .ok i → encodeWord i = w ∧ WellFormed i
  fits : fit → ∃ i, r = .ok i
  misfits : ¬ fit → r = .error .badOperands

section
variable {w : Word} {ops : List Word}

theorem reads_of_fit {fit : Prop} {i : Instr} (hfit : fit) (hi : encodeWord i = w ∧ WellFormed i) :
    Reads w fit (.ok i) where
  word j hj := by cases hj; exact hi
  fits _ := ⟨i, rfl⟩
  misfits h := absurd hfit h

theorem reads_of_misfit {fit : Prop} (hfit : ¬ fit) : Reads w fit (.error .badOperands) where
  word _ := nofun
  fits h := absurd h hfit
  misfits _ := rfl

theorem reads_takesNone {i : Instr} (hi : encodeWord i = w ∧ WellFormed i) :
    Reads w (ops = []) (takesNone ops i) := by
  unfold takesNone
  split
  · exact reads_of_fit rfl hi
  · exact reads_of_misfit ‹_›

theorem reads_takesWord {f : Word → Instr} (hf : ∀ v, encodeWord (f v) = w ∧ WellFormed (f v)) :
    Reads w (ops.length = 1) (takesWord ops f) := by
  unfold takesWord
  split
  · exact reads_of_fit rfl (hf _)
  · rename_i h
    exact reads_of_misfit fun hlen => (List.length_eq_one_iff.mp hlen).elim h

theorem reads_takesF64 {f : F64 → Instr} (hf : ∀ x, encodeWord (f x) = w ∧ WellFormed (f x)) :
    Reads w (ops.length = 2) (takesF64 ops f) := by
  unfold takesF64
  split
  · exact reads_of_fit rfl (hf _)
  · rename_i h
    exact reads_of_misfit fun hlen => (List.length_eq_two.mp hlen).elim fun lo ⟨hi, e⟩ => h lo hi e

theorem reads_takesBytes {f : List Byte → Instr}
    (hf : ∀ bs, itemFits (.bytes bs) = true → encodeWord (f bs) = w ∧ WellFormed (f bs)) :
    Reads w (BytesBeats ops) (takesBytes ops f) := by
  unfold takesBytes
  split
  · rename_i bs h
    obtain ⟨hfits, ws, rfl, hws⟩ := takeBytes_parts h
    exact reads_of_fit (by simpa using hws) (hf bs hfits)
  · rename_i h
    refine reads_of_misfit fun hops => ?_
    obtain ⟨bs, hbs⟩ := takeBytes_of_bytesBeats hops
    exact h bs (by simpa using hbs [])

theorem reads_takesBytesWord {f : List Byte → Word → Instr}
    (hf : ∀ bs v, itemFits (.bytes bs) = true → encodeWord (f bs v) = w ∧ WellFormed (f bs v)) :
    Reads w (ValueBeats .newid ops) (takesBytesWord ops f) := by
  unfold takesBytesWord
  split
  · rename_i bs v h
    obtain ⟨hfits, ws, rfl, hws⟩ := takeBytes_parts h
    exact reads_of_fit ⟨ws, v, rfl, hws⟩ (hf bs v hfits)
  · rename_i h
    refine reads_of_misfit ?_
    rintro ⟨ws, v, rfl, hws⟩
    obtain ⟨bs, hbs⟩ := takeBytes_of_bytesBeats hws
    exact h bs v (hbs [v])

theorem reads_takesItems {t : Ty} {f : List Item → Instr}
    (hf : ∀ is, shapeOk t is = true → encodeWord (f is) = w ∧ WellFormed (f is)) :
    Reads w (ValueBeats t ops) (takesItems t ops f) := by
  unfold takesItems
  split
  · rename_i is h
    obtain ⟨⟨ws, v⟩, rfl, rfl, hws, hv⟩ := takeItems_parts h
    exact reads_of_fit (by simpa using hws) (hf _ (shapeOk_iff.mpr ⟨v, rfl, hv⟩))
  · rename_i h
    refine reads_of_misfit fun hops => ?_
    obtain ⟨is, his⟩ := takeItems_of_valueBeats hops
    exact h is (by simpa using his [])

end

/-! ### Command words whose fields fit (30_encoding.md R105 to R108) -/

section
variable {p : Packet}

theorem commandWord_eq {w : Word} {op : Byte} {base depth : BitVec 4} {imm : Half} (hop : opField w = op)
    (hbase : baseField w = base) (hdepth : depthField w = depth) (himm : immField w = imm) :
    commandWord op base depth imm = w := by
  rw [← hop, ← hbase, ← hdepth, ← himm, commandWord_fields]

theorem reads_plain (hop : opField p.word ∈ [0x01, 0x02, 0x23, 0x30, 0x31, 0x32, 0x33, 0x34])
    (hbase : baseField p.word = 0) (hdepth : depthField p.word = 0) (himm : immField p.word = 0) :
    Reads p.word (OperandsFit p.word p.operands) (decode p) := by
  simp only [List.mem_cons, List.not_mem_nil, or_false] at hop
  rcases hop with hop | hop | hop | hop | hop | hop | hop | hop <;>
    have hword := commandWord_eq hop hbase hdepth himm <;>
    simp only [decode, OperandsFit, formatCmd0, hop, hbase, hdepth, himm, List.mem_cons, List.not_mem_nil]
  · exact reads_takesNone ⟨hword, rfl⟩
  · exact reads_takesNone ⟨hword, rfl⟩
  · exact reads_takesNone ⟨hword, rfl⟩
  · exact reads_takesWord fun v => ⟨hword, rfl⟩
  · exact reads_takesF64 fun x => ⟨hword, rfl⟩
  · exact reads_takesWord fun v => ⟨hword, rfl⟩
  · exact reads_takesWord fun v => ⟨hword, rfl⟩
  · exact reads_takesWord fun v => ⟨hword, rfl⟩

theorem reads_imm (hop : opField p.word ∈ [0x03, 0x08, 0x20])
    (hbase : baseField p.word = 0) (hdepth : depthField p.word = 0) :
    Reads p.word (OperandsFit p.word p.operands) (decode p) := by
  simp only [List.mem_cons, List.not_mem_nil, or_false] at hop
  rcases hop with hop | hop | hop <;>
    have hword := commandWord_eq hop hbase hdepth rfl <;>
    simp only [decode, OperandsFit, formatCmdI, hop, hbase, hdepth, List.mem_cons, List.not_mem_nil]
  · exact reads_takesNone ⟨hword, rfl⟩
  · exact reads_takesNone ⟨hword, rfl⟩
  · exact reads_takesWord fun v => ⟨hword, rfl⟩

theorem eq_of_base_lt_seven : ∀ b : BitVec 4, b.toNat < 7 →
    b = 0 ∨ b = 1 ∨ b = 2 ∨ b = 3 ∨ b = 4 ∨ b = 5 ∨ b = 6 := by
  decide

theorem reads_dec (hop : opField p.word = 0x10) (himm : immField p.word = 0) (hdepth : depthField p.word = 0)
    (hbase : (baseField p.word).toNat < 7) : Reads p.word (OperandsFit p.word p.operands) (decode p) := by
  have hword := fun {b} (hb : baseField p.word = b) => commandWord_eq hop hb hdepth himm
  have hfit : OperandsFit p.word p.operands = (p.operands = []) := by simp [OperandsFit, hop]
  rw [decode_opDec himm hop hdepth, hfit]
  rcases eq_of_base_lt_seven _ hbase with hb | hb | hb | hb | hb | hb | hb <;> simp only [decodeDec, hb] <;>
    exact reads_takesNone ⟨hword hb, rfl⟩

theorem reads_enc (hop : opField p.word = 0x21) (himm : immField p.word = 0) (hdepth : depthField p.word = 0)
    (hbase : (baseField p.word).toNat < 7) : Reads p.word (OperandsFit p.word p.operands) (decode p) := by
  have hword := fun {b} (hb : baseField p.word = b) => commandWord_eq hop hb hdepth himm
  rw [decode_opEnc himm hop hdepth]
  simp only [OperandsFit, hop, hdepth]
  rcases eq_of_base_lt_seven _ hbase with hb | hb | hb | hb | hb | hb | hb <;> simp only [decodeEnc, hb]
  · exact reads_takesWord fun v => ⟨hword hb, rfl⟩
  · exact reads_takesWord fun v => ⟨hword hb, rfl⟩
  · exact reads_takesWord fun v => ⟨hword hb, rfl⟩
  · exact reads_takesBytes fun bs h => ⟨hword hb, h⟩
  · exact reads_takesBytes fun bs h => ⟨hword hb, h⟩
  · exact reads_takesBytesWord fun bs v h => ⟨hword hb, h⟩
  · exact reads_takesWord fun v => ⟨hword hb, rfl⟩

theorem reads_seq (hop : opField p.word ∈ [0x11, 0x22]) (himm : immField p.word = 0) (hdepth : depthField p.word ≠ 0)
    (hbase : (baseField p.word).toNat < 7) : Reads p.word (OperandsFit p.word p.operands) (decode p) := by
  obtain ⟨t, ht⟩ : ∃ t, typeOf (depthField p.word) (baseField p.word) = some t :=
    Option.isSome_iff_exists.mp (by simp [typeOf_isSome, hbase])
  simp only [List.mem_cons, List.not_mem_nil, or_false] at hop
  rcases hop with hop | hop <;> have hword := commandWord_eq hop rfl rfl himm
  · have hfit : OperandsFit p.word p.operands = (p.operands = []) := by simp [OperandsFit, hop]
    rw [decode_opDecSeq himm hop hdepth, decodeDecSeq_of_some ht, hfit]
    exact reads_takesNone ⟨hword, bne_iff_ne.mpr hdepth⟩
  · have hfit : OperandsFit p.word p.operands = ValueBeats t p.operands := by simp [OperandsFit, hop, ht]
    rw [decode_opEncSeq himm hop hdepth, decodeEncSeq_of_some ht, hfit]
    exact reads_takesItems fun is h => ⟨hword, wf_encSeq.mpr ⟨hdepth, .inl ⟨t, ht, h⟩⟩⟩

/-- Where the fields fit, the decoder reads the operand beats of the word. -/
theorem reads_of_fieldsFit (h : FieldsFit p.word) : Reads p.word (OperandsFit p.word p.operands) (decode p) := by
  rcases h with ⟨hop, hbase, hdepth, himm⟩ | ⟨hop, hbase, hdepth⟩ | ⟨hop, himm, hdepth, hbase⟩ |
    ⟨hop, himm, hdepth, hbase⟩
  · exact reads_plain hop hbase hdepth himm
  · exact reads_imm hop hbase hdepth
  · simp only [List.mem_cons, List.not_mem_nil, or_false] at hop
    rcases hop with hop | hop
    · exact reads_dec hop himm hdepth hbase
    · exact reads_enc hop himm hdepth hbase
  · exact reads_seq hop himm hdepth hbase

/-! ### Malformed and unsupported command words (30_encoding.md R110, R111) -/

theorem decode_reservedOp (hop : opField p.word ∉
    [0x01, 0x02, 0x03, 0x08, 0x10, 0x11, 0x20, 0x21, 0x22, 0x23, 0x30, 0x31, 0x32, 0x33, 0x34]) :
    decode p = .error .reservedOp := by
  simp only [List.mem_cons, List.not_mem_nil, or_false, not_or] at hop
  simp only [decode, hop, if_false]

theorem decode_unusedField_plain (hop : opField p.word ∈ [0x01, 0x02, 0x23, 0x30, 0x31, 0x32, 0x33, 0x34])
    (h : baseField p.word ≠ 0 ∨ depthField p.word ≠ 0 ∨ immField p.word ≠ 0) : decode p = .error .unusedField := by
  have hformat : ∀ r, formatCmd0 p.word r = .error .unusedField := fun r => if_neg (by tauto)
  simp only [List.mem_cons, List.not_mem_nil, or_false] at hop
  rcases hop with hop | hop | hop | hop | hop | hop | hop | hop <;> simp [decode, hop, hformat]

theorem decode_unusedField_imm (hop : opField p.word ∈ [0x03, 0x08, 0x20])
    (h : baseField p.word ≠ 0 ∨ depthField p.word ≠ 0) : decode p = .error .unusedField := by
  have hformat : ∀ r, formatCmdI p.word r = .error .unusedField := fun r => if_neg (by tauto)
  simp only [List.mem_cons, List.not_mem_nil, or_false] at hop
  rcases hop with hop | hop | hop <;> simp [decode, hop, hformat]

theorem decode_unusedField_typed (hop : opField p.word ∈ [0x10, 0x11, 0x21, 0x22]) (himm : immField p.word ≠ 0) :
    decode p = .error .unusedField := by
  have hbase : ∀ r, formatBase p.word r = .error .unusedField := fun r => if_pos himm
  have hseq : ∀ r, formatSeq p.word r = .error .unusedField := fun r => if_pos himm
  simp only [List.mem_cons, List.not_mem_nil, or_false] at hop
  rcases hop with hop | hop | hop | hop <;> simp [decode, hop, hbase, hseq]

theorem decode_badDepth_base (hop : opField p.word ∈ [0x10, 0x21]) (himm : immField p.word = 0)
    (hdepth : depthField p.word ≠ 0) : decode p = .error .badDepth := by
  have hformat : ∀ r, formatBase p.word r = .error .badDepth := fun r => by
    rw [formatBase, if_neg (not_not.mpr himm), if_pos hdepth]
  simp only [List.mem_cons, List.not_mem_nil, or_false] at hop
  rcases hop with hop | hop <;> simp [decode, hop, hformat]

theorem decode_badDepth_seq (hop : opField p.word ∈ [0x11, 0x22]) (himm : immField p.word = 0)
    (hdepth : depthField p.word = 0) : decode p = .error .badDepth := by
  have hformat : ∀ r, formatSeq p.word r = .error .badDepth := fun r => by
    rw [formatSeq, if_neg (not_not.mpr himm), if_pos hdepth]
  simp only [List.mem_cons, List.not_mem_nil, or_false] at hop
  rcases hop with hop | hop <;> simp [decode, hop, hformat]

end

/-- Settles O4: the rejections of a word by their lemmas, and the two clauses on operand beats by what the decoder
reads where the fields fit. -/
theorem malformedWordsRejected : Obligations.MalformedWordsRejected := by
  unfold Obligations.MalformedWordsRejected
  intro p
  exact ⟨decode_reservedOp, decode_unusedField_plain, decode_unusedField_imm, decode_unusedField_typed,
    decode_badDepth_base, decode_badDepth_seq, fun hfields => (reads_of_fieldsFit hfields).misfits,
    fun hfields => (reads_of_fieldsFit hfields).fits⟩

/-- The fields of a command with a type are right, but `BASE` names no type (30_encoding.md R107, R111). -/
def UnsupportedFields (w : Word) : Prop :=
  immField w = 0 ∧ 7 ≤ (baseField w).toNat ∧
    (opField w ∈ [0x10, 0x21] ∧ depthField w = 0 ∨ opField w ∈ [0x11, 0x22] ∧ depthField w ≠ 0)

theorem ne_of_seven_le_base : ∀ b : BitVec 4, 7 ≤ b.toNat →
    b ≠ 0 ∧ b ≠ 1 ∧ b ≠ 2 ∧ b ≠ 3 ∧ b ≠ 4 ∧ b ≠ 5 ∧ b ≠ 6 := by
  decide

section
variable {p : Packet}

/-- A command of an unsupported type is named with its word, or is the DEC.SEQ or ENC.SEQ of that word: the block
answers the type-contract check either way (60_exceptions.md R248; log 14). -/
theorem decode_unsupported (h : UnsupportedFields p.word) :
    decode p = .error (.unsupportedType p.word) ∨
    ∃ i, decode p = .ok i ∧ encodeWord i = p.word ∧ WellFormed i ∧
      ∀ s, exec i s = .next (s.unsupported p.word) := by
  obtain ⟨himm, hbase, hclass⟩ := h
  simp only [List.mem_cons, List.not_mem_nil, or_false] at hclass
  rcases hclass with ⟨hop | hop, hdepth⟩ | ⟨hop | hop, hdepth⟩
  · left
    obtain ⟨h0, h1, h2, h3, h4, h5, h6⟩ := ne_of_seven_le_base _ hbase
    rw [decode_opDec himm hop hdepth]
    simp only [decodeDec, h0, h1, h2, h3, h4, h5, h6, if_false]
  · left
    obtain ⟨h0, h1, h2, h3, h4, h5, h6⟩ := ne_of_seven_le_base _ hbase
    rw [decode_opEnc himm hop hdepth]
    simp only [decodeEnc, h0, h1, h2, h3, h4, h5, h6, if_false]
  all_goals
    right
    have hword := commandWord_eq hop rfl rfl himm
    have ht : typeOf (depthField p.word) (baseField p.word) = none := by
      rw [← Option.not_isSome_iff_eq_none, typeOf_isSome]
      simpa using hbase
  · refine ⟨.decSeq (depthField p.word) (baseField p.word), ?_, hword, ?_, fun s => ?_⟩
    · rw [decode_opDecSeq himm hop hdepth, decodeDecSeq_of_none ht]
    · exact bne_iff_ne.mpr hdepth
    · simp only [exec, execDecSeq, if_neg hdepth, ht, encodeWord, hword]
  · refine ⟨.encSeq (depthField p.word) (baseField p.word) [], ?_, hword, ?_, fun s => ?_⟩
    · rw [decode_opEncSeq himm hop hdepth, decodeEncSeq_of_none ht]
    · exact wf_encSeq.mpr ⟨hdepth, .inr ⟨ht, rfl⟩⟩
    · simp only [exec, execEncSeq, if_neg hdepth, ht, encodeWord, hword]

/-- Every other command word is malformed. -/
theorem fields_of_decode_ok {i : Instr} (h : decode p = .ok i) : FieldsFit p.word ∨ UnsupportedFields p.word := by
  have hne : ∀ r, decode p ≠ .error r := fun r hr => by simp [h] at hr
  obtain hop | hop | hop | hop : opField p.word ∈ [0x01, 0x02, 0x23, 0x30, 0x31, 0x32, 0x33, 0x34] ∨
      opField p.word ∈ [0x03, 0x08, 0x20] ∨ opField p.word ∈ [0x10, 0x21] ∨ opField p.word ∈ [0x11, 0x22] := by
    by_contra hops
    refine hne _ (decode_reservedOp fun hmem => hops ?_)
    simp only [List.mem_cons, List.not_mem_nil, or_false] at hmem ⊢
    tauto
  · refine .inl (.inl ⟨hop, ?_⟩)
    by_contra hfields
    exact hne _ (decode_unusedField_plain hop (by tauto))
  · refine .inl (.inr (.inl ⟨hop, ?_⟩))
    by_contra hfields
    exact hne _ (decode_unusedField_imm hop (by tauto))
  · have himm : immField p.word = 0 := by
      by_contra himm
      exact hne _ (decode_unusedField_typed (by simp only [List.mem_cons] at hop ⊢; tauto) himm)
    have hdepth : depthField p.word = 0 := by
      by_contra hdepth
      exact hne _ (decode_badDepth_base hop himm hdepth)
    rcases Nat.lt_or_ge (baseField p.word).toNat 7 with hbase | hbase
    · exact .inl (.inr (.inr (.inl ⟨hop, himm, hdepth, hbase⟩)))
    · exact .inr ⟨himm, hbase, .inl ⟨hop, hdepth⟩⟩
  · have himm : immField p.word = 0 := by
      by_contra himm
      exact hne _ (decode_unusedField_typed (by simp only [List.mem_cons] at hop ⊢; tauto) himm)
    have hdepth : depthField p.word ≠ 0 := fun hdepth => hne _ (decode_badDepth_seq hop himm hdepth)
    rcases Nat.lt_or_ge (baseField p.word).toNat 7 with hbase | hbase
    · exact .inl (.inr (.inr (.inr ⟨hop, himm, hdepth, hbase⟩)))
    · exact .inr ⟨himm, hbase, .inr ⟨hop, hdepth⟩⟩

end

/-- Settles O2: an instruction is read from a word whose fields fit, or is the sequence of an unsupported type. -/
theorem decodedWordIsTheInstructions : Obligations.DecodedWordIsTheInstructions := by
  unfold Obligations.DecodedWordIsTheInstructions
  intro p i h
  rcases fields_of_decode_ok h with hfields | hfields
  · exact (reads_of_fieldsFit hfields).word i h
  · rcases decode_unsupported hfields with hd | ⟨j, hd, hword, hwf, -⟩
    · simp [h] at hd
    · obtain rfl := Except.ok.inj (h.symm.trans hd)
      exact ⟨hword, hwf⟩

/-! ### The words of the Encoding lines (files 40 to 44) -/

/-- The packet of a well-formed instruction decodes to it. -/
theorem decode_of_encode_eq {i : Instr} {p : Packet} (hp : encode i = p) (hwf : WellFormed i) : decode p = .ok i :=
  hp ▸ decodeInvertsEncode i hwf

/-- A sequence with no element has one item, its count. -/
theorem wf_encSeq_empty {depth base : BitVec 4} (hdepth : depth ≠ 0) (hbase : base.toNat < 7) :
    WellFormed (.encSeq depth base [.word 0]) := by
  obtain ⟨t, ht⟩ : ∃ t, typeOf depth base = some t := Option.isSome_iff_exists.mp (by simp [typeOf_isSome, hbase])
  obtain ⟨b, -, rfl⟩ := typeOf_eq_some ht
  obtain ⟨n, hn⟩ : ∃ n, depth.toNat = n + 1 :=
    Nat.exists_eq_succ_of_ne_zero fun h => hdepth (BitVec.eq_of_toNat_eq h)
  have hshape : shapeOk (seqOf depth.toNat b) [.word 0] = true := by rw [hn]; rfl
  exact wf_encSeq.mpr ⟨hdepth, .inl ⟨_, ht, hshape⟩⟩

/-- Settles O3: each line is the packet of its instruction. -/
theorem printedWordsDecode : Obligations.PrintedWordsDecode := by
  unfold Obligations.PrintedWordsDecode
  have himm : ∀ (op : Byte) (n : Half), commandWord op 0 0 n = (n.zeroExtend 32 <<< 16) ||| op.zeroExtend 32 := by
    intro op n; simp [commandWord]
  have htype : ∀ (op : Byte) (depth base : BitVec 4), commandWord op base depth 0 =
      (depth.zeroExtend 32 <<< 12) ||| (base.zeroExtend 32 <<< 8) ||| op.zeroExtend 32 := by
    intro op depth base; simp [commandWord]
  refine ⟨⟨rfl, rfl, rfl⟩, fun n => ⟨?_, ?_, fun sender => ?_⟩, ⟨rfl, rfl, rfl, rfl, rfl, rfl, rfl⟩,
    fun depth base hdepth hbase => ⟨?_, ?_⟩, rfl, rfl, rfl, fun v => ?_, rfl, rfl, rfl⟩
  · exact decode_of_encode_eq (congrArg (Packet.mk · []) (himm 0x03 n)) rfl
  · exact decode_of_encode_eq (congrArg (Packet.mk · []) (himm 0x08 n)) rfl
  · exact decode_of_encode_eq (congrArg (Packet.mk · [sender]) (himm 0x20 n)) rfl
  · exact decode_of_encode_eq (congrArg (Packet.mk · []) (htype 0x11 depth base))
      (bne_iff_ne.mpr hdepth)
  · exact decode_of_encode_eq (congrArg (Packet.mk · [0]) (htype 0x22 depth base)) (wf_encSeq_empty hdepth hbase)
  · refine ⟨?_, ?_, ?_, ?_, ?_, ?_, ?_, ?_, ?_⟩ <;> exact decode_of_encode_eq rfl rfl

end Sys2Proof.Proofs.Packets
end

section
/-! The family `30_encoding.md`, the wire: the length and the layout of an encoding (R95, R100 to R103), the round trip
of a value (R104), and the beats of a result (R113, R114). -/

namespace Sys2Proof.Proofs.Wire

open Sys2Proof.Machine Sys2Proof.Safety Sys2Proof.Proofs.BlockState Sys2Proof.Proofs.Beats

/-! ### Lengths (30_encoding.md R103) -/

theorem enc_length (bo : ByteOrder) : ∀ (t : Ty) (v : t.Val), (enc bo t v).1.length = wireLen t v := by
  intro t
  induction t with
  | int | uint | fixed => intro v; simp [enc, wireLen]
  | string | array => intro v; simp [enc, wireLen]
  | newid => rintro ⟨name, ver⟩; simp [enc, wireLen]
  | fd => intro h; rfl
  | seq t ih =>
    intro vs
    simp [enc, wireLen, List.length_flatten, Function.comp_def, ih]

/-- Settles O8: the length of an encoding is `wire_len`, and it is a whole number of words. -/
theorem encodingHasWireLength : Obligations.EncodingHasWireLength := by
  unfold Obligations.EncodingHasWireLength
  intro bo t v
  have hdvd := four_dvd_enc_length bo t v
  rw [enc_length] at hdvd
  exact ⟨enc_length bo t v, Nat.mod_eq_zero_of_dvd hdvd⟩

/-! ### Strings (30_encoding.md R95, R100, R101) -/

/-- After the length word and the content, a string field has zero bytes only: the terminator, then the padding. -/
theorem stringBytes_eq (bo : ByteOrder) (s : List Byte) : stringBytes bo s =
    bytes32 bo (lenWord (s.length + 1)) ++ (s ++ List.replicate (pad (s.length + 1) + 1) 0x00) := by
  simp [stringBytes, padding, List.replicate_succ]

theorem stringBytes_getElem?_tail {bo : ByteOrder} {s : List Byte} {k : Nat} (h : 4 + s.length ≤ k) :
    (stringBytes bo s)[k]? = if k < (stringBytes bo s).length then some 0x00 else none := by
  rw [stringBytes_length, stringBytes_eq, List.getElem?_append_right (by simp; omega),
    List.getElem?_append_right (by simp; omega), List.getElem?_replicate, bytes32_length]
  congr 1
  exact propext (by omega)

/-- Settles O9: the field is the length word, the content, and then zero bytes only, the terminator the first of them. -/
theorem stringFieldLayout : Obligations.StringFieldLayout := by
  unfold Obligations.StringFieldLayout
  intro bo s
  have hword := bytes32_length bo (lenWord (s.length + 1))
  refine ⟨?_, ?_, ?_, ?_, fun k b hk hb => ?_⟩
  · rw [stringBytes_length, Nat.add_assoc, add_pad_eq]
  · rw [stringBytes_getElem?_tail le_rfl, if_pos (by rw [stringBytes_length]; omega)]
  · rw [stringBytes_eq, List.take_left' hword, lenWord]
  · rw [stringBytes_eq, List.drop_left' hword, List.take_left' rfl]
  · rw [stringBytes_getElem?_tail (by omega)] at hb
    split at hb
    · exact (Option.some.inj hb).symm
    · cases hb

/-! ### The round trip (30_encoding.md R104) -/

/-- Handles in two parts stand one part after the other: the counterpart of `payloadHas_append`. -/
theorem descHas_append {s : State} {d : Nat} {hs ks : List Handle} (h : DescHas s d (hs ++ ks)) :
    DescHas s d hs ∧ DescHas s (d + hs.length) ks := by
  obtain ⟨hle, heq⟩ := h
  rw [List.length_append, List.take_add, List.drop_drop] at heq
  have hlen := congrArg List.length heq
  simp only [List.length_append, List.length_take, List.length_drop] at hle hlen
  obtain ⟨hfirst, hrest⟩ := List.append_inj heq (by simp only [List.length_take, List.length_drop]; omega)
  exact ⟨⟨by omega, hfirst⟩, by omega, hrest⟩

/-- Elements encoded one after another stand one after another. -/
theorem elementsAt_of_enc {s : State} {t : Ty} {vs : List t.Val}
    (ih : ∀ v ∈ vs, ∀ {c d}, PayloadHas s c (enc s.bo t v).1 → DescHas s d (enc s.bo t v).2 →
      WireAt s t v c d (c + wireLen t v) (d + (enc s.bo t v).2.length)) :
    ∀ {c d : Nat}, PayloadHas s c (vs.map fun v => (enc s.bo t v).1).flatten →
      DescHas s d (vs.map fun v => (enc s.bo t v).2).flatten →
      ElementsAt (WireAt s t) vs c d (c + (vs.map (wireLen t)).sum)
        (d + (vs.map fun v => (enc s.bo t v).2).flatten.length) := by
  induction vs with
  | nil => intro c d _ _; exact ⟨rfl, rfl⟩
  | cons v vs ihs =>
    intro c d hp hd
    obtain ⟨hp1, hp2⟩ := payloadHas_append.mp hp
    obtain ⟨hd1, hd2⟩ := descHas_append hd
    rw [enc_length] at hp2
    have hv := ih v List.mem_cons_self hp1 hd1
    have hvs := ihs (fun u hu => ih u (List.mem_cons_of_mem v hu)) hp2 hd2
    refine ⟨_, _, hv, ?_⟩
    simpa only [List.map_cons, List.sum_cons, List.flatten_cons, List.length_append, Nat.add_assoc] using hvs

/-- The value stands where the payload and the descriptor list hold its encoding. -/
theorem wireAt_of_enc {s : State} : ∀ {t : Ty} {v : t.Val}, countsFit t v = true → ∀ {c d : Nat},
    PayloadHas s c (enc s.bo t v).1 → DescHas s d (enc s.bo t v).2 →
    WireAt s t v c d (c + wireLen t v) (d + (enc s.bo t v).2.length) := by
  have hstring : ∀ {name : List Byte} {c : Nat}, PayloadHas s c (stringBytes s.bo name) →
      StringAt s name c (c + (stringBytes s.bo name).length) := fun {name c} hp =>
    ⟨padding (name.length + 1), padding_length _, by rw [stringBytes_length, padding_length]; omega, hp⟩
  intro t
  induction t with
  | int | uint | fixed => intro v _ c d hp _; exact ⟨hp, rfl, rfl⟩
  | string =>
    intro name _ c d hp _
    have h := hstring hp
    rw [stringBytes_length] at h
    exact ⟨h, rfl⟩
  | array =>
    intro bs _ c d hp _
    exact ⟨⟨padding bs.length, padding_length _, by simp [wireLen]; omega, hp⟩, rfl⟩
  | newid =>
    rintro ⟨name, ver⟩ _ c d hp _
    obtain ⟨hname, hver⟩ := payloadHas_append.mp hp
    exact ⟨_, hstring hname, hver, by simp [wireLen]; omega, rfl⟩
  | fd => intro h _ c d _ hd; exact ⟨hd, rfl, rfl⟩
  | seq t ih =>
    intro vs hcount c d hp hd
    simp only [countsFit, Bool.and_eq_true, decide_eq_true_eq, List.all_eq_true] at hcount
    obtain ⟨hlen, hall⟩ := hcount
    obtain ⟨hword, helements⟩ := payloadHas_append.mp hp
    rw [bytes32_length] at helements
    have h := elementsAt_of_enc (fun v hv {c d} => ih (hall v hv)) helements hd
    refine ⟨hlen, hword, ?_⟩
    rwa [Nat.add_assoc] at h

/-- Settles O10: `dec` answers exactly the value whose layout stands at the cursors, and that of an encoding does. -/
theorem decodingInvertsEncoding : Obligations.DecodingInvertsEncoding := by
  unfold Obligations.DecodingInvertsEncoding
  intro s t v c d hcount hp hplen hd hdcnt
  exact (dec_ok_iff hplen hdcnt).mpr (wireAt_of_enc hcount hp hd)

/-! ### Results (30_encoding.md R113, R114) -/

/-- Settles O5: after the status beat come the beats of the items, which one who knows the type reads back. -/
theorem responsePacketReadsBack : Obligations.ResponsePacketReadsBack := by
  unfold Obligations.ResponsePacketReadsBack
  intro st t v hcount hfits
  exact ⟨itemsBeats (items t v), rfl, by simpa using takeItems_itemsBeats ⟨hcount, hfits⟩ []⟩

end Sys2Proof.Proofs.Wire
end

section
/-! The family `30_encoding.md`, the answer to a packet: malformed commands and unsupported types (R110, R111), and the
one response of every command (R116). -/

namespace Sys2Proof.Proofs.Answers

open Sys2Proof.Machine Sys2Proof.Safety Sys2Proof.Proofs.Scope Sys2Proof.Proofs.BlockState
  Sys2Proof.Proofs.Memory Sys2Proof.Proofs.Packets

/-! ### Rejected packets (30_encoding.md R110, R111) -/

section
variable {s : State} {p : Packet} {rest : List Packet}

/-- A packet that stands for no row is answered by the block itself. -/
theorem step_of_decode_error {r : Reject} (hreset : s.resetIn = false) (hport : s.cmdPort = p :: rest)
    (hdecode : decode p = .error r) : step s = .next (s.reject r) := by
  simp [step, hreset, hport, hdecode]

theorem respond_of_cmdPort (hport : s.cmdPort = p :: rest) (st : Status) (is : List Item) :
    s.respond st is = { s with cmdPort := rest, out := s.out ++ [.response st is] } := by
  simp [State.respond, hport]

theorem discardLoaded_cmdPort (s : State) : s.discardLoaded.cmdPort = s.cmdPort := by
  rcases discard_cases (s := s) rfl with ⟨-, h⟩ | ⟨-, h⟩ <;> rw [h]
  rfl

/-- A command of an unsupported type comes to checks 3 and 4 of 60_exceptions.md R248, whichever way it decodes. -/
theorem step_unsupported (hreset : s.resetIn = false) (hport : s.cmdPort = p :: rest)
    (hfields : UnsupportedFields p.word) : step s = .next (s.unsupported p.word) := by
  rcases decode_unsupported hfields with hdecode | ⟨i, hdecode, -, -, hexec⟩
  · exact step_of_decode_error hreset hport hdecode
  · exact (stepRunsDecodedInstruction s p rest i hreset hport hdecode).trans (hexec s)

end

/-- Settles O12: every rejection but that of a type is the refusal `E_BAD_CMD`. -/
theorem malformedCommandRefused : Obligations.MalformedCommandRefused := by
  unfold Obligations.MalformedCommandRefused
  intro s p rest r hreset hport hdecode hr
  rw [step_of_decode_error hreset hport hdecode]
  rcases s.reject_cases r with ⟨-, he⟩ | ⟨w, hw, -⟩
  · rw [he, respond_of_cmdPort hport]
  · exact absurd hw (hr w)

/-- Settles O13: the two answers of the check of the type. -/
theorem unsupportedTypeEntersDead : Obligations.UnsupportedTypeEntersDead := by
  unfold Obligations.UnsupportedTypeEntersDead
  intro s p rest hreset hport himm hbase hclass
  rw [step_unsupported hreset hport ⟨himm, hbase, hclass⟩]
  rcases s.unsupported_cases p.word with ⟨hm, he⟩ | ⟨hm, he⟩ <;> rw [he]
  · exact ⟨fun h => absurd hm h, fun _ => by rw [respond_of_cmdPort hport]⟩
  · refine ⟨fun _ => ?_, fun h => absurd h hm⟩
    rw [respond_of_cmdPort (p := p) (rest := rest) (by simpa [discardLoaded_cmdPort] using hport)]

/-! ### One response for each command (30_encoding.md R116) -/

/-- From `s` to `t` outputs without a response are added only, and the command port stays. -/
def Unanswered (s t : State) : Prop :=
  t.cmdPort = s.cmdPort ∧ ∃ evs, t.out = s.out ++ evs ∧ responsesOf evs = []

/-- The command at the head of the port is done with: outputs without a response, then its one response, which has
items only if it is `OK`. -/
def Answered (s t : State) : Prop :=
  t.cmdPort = s.cmdPort.tail ∧
    ∃ evs st is, t.out = s.out ++ evs ++ [.response st is] ∧ responsesOf evs = [] ∧ (st ≠ .ok → is = [])

theorem responsesOf_map_close (hs : List Handle) : responsesOf (hs.map Output.close) = [] := by
  induction hs with
  | nil => rfl
  | cons h hs ih => exact ih

theorem responsesOf_append (os os' : List Output) : responsesOf (os ++ os') = responsesOf os ++ responsesOf os' := by
  induction os with
  | nil => rfl
  | cons o os ih => cases o <;> simp [responsesOf, ih]

section
variable {s t u : State}

theorem unanswered_of_eq (hport : t.cmdPort = s.cmdPort) (hout : t.out = s.out) : Unanswered s t :=
  ⟨hport, [], by rw [hout, List.append_nil], rfl⟩

/-- A response after outputs without one; the state `t` is the response of `u` by computation, whatever registers `u`
has. -/
theorem Unanswered.answered (hu : Unanswered s u) {st : Status} {is : List Item} (his : st ≠ .ok → is = [])
    (hport : t.cmdPort = u.cmdPort.tail) (hout : t.out = u.out ++ [.response st is]) : Answered s t := by
  obtain ⟨hp, evs, ho, hevs⟩ := hu
  exact ⟨by rw [hport, hp], evs, st, is, by rw [hout, ho], hevs, his⟩

/-- A command with no event but its response. -/
theorem answered_of_response {st : Status} {is : List Item} (his : st ≠ .ok → is = [])
    (hport : t.cmdPort = s.cmdPort.tail) (hout : t.out = s.out ++ [.response st is]) : Answered s t :=
  (unanswered_of_eq rfl rfl).answered his hport hout

theorem unanswered_closeAll (hu : Unanswered s u) (hs : List Handle) : Unanswered s (u.closeAll hs) := by
  obtain ⟨hp, evs, ho, hevs⟩ := hu
  refine ⟨hp, evs ++ hs.map .close, ?_, by rw [responsesOf_append, hevs, responsesOf_map_close]; rfl⟩
  rw [State.closeAll_out, ho, List.append_assoc]

/-- `do_discard()` closes handles and answers nothing (40_framer.md R131). -/
theorem unanswered_doDiscard (s : State) : Unanswered s s.doDiscard :=
  unanswered_closeAll (unanswered_of_eq (s := s) rfl rfl) ((s.desc.drop s.dcur.toNat).take s.unconsumed)

theorem unanswered_discardLoaded (s : State) : Unanswered s s.discardLoaded := by
  rcases discard_cases (s := s) rfl with ⟨-, h⟩ | ⟨-, h⟩ <;> rw [h]
  · exact unanswered_doDiscard s
  · exact unanswered_of_eq rfl rfl

end

section
variable {s : State}

/-- The mode check answers, or the body does (60_exceptions.md R248). -/
theorem answered_checked {legal : Bool} {body : State → State} (h : Answered s (body s)) :
    Answered s (s.checked legal body) :=
  checked_of_body (P := Answered s) (answered_of_response (fun _ => rfl) rfl rfl) h

theorem answered_unsupported (w : Word) : Answered s (s.unsupported w) := by
  rcases s.unsupported_cases w with ⟨-, he⟩ | ⟨-, he⟩ <;> rw [he]
  · exact answered_of_response (fun _ => rfl) rfl rfl
  · exact (unanswered_discardLoaded s).answered (fun _ => rfl) rfl rfl

theorem answered_reject (r : Reject) : Answered s (s.reject r) := by
  rcases s.reject_cases r with ⟨-, he⟩ | ⟨w, -, he⟩ <;> rw [he]
  · exact answered_of_response (fun _ => rfl) rfl rfl
  · exact answered_unsupported w

/-- FRAME answers unless it holds: it fails in a read or on a record, or loads (40_framer.md R130, R136, R137). -/
theorem answered_frameBody (h : readFrame s.bo s.rx s.rxEnd ≠ .holds) : Answered s s.frameBody := by
  have hdiscard := unanswered_discardLoaded s
  rcases s.frameBody_cases with ⟨hr, -⟩ | ⟨e, info, rest, -, he⟩ | ⟨w, z, o, p, rest, j, ds, -, -, he⟩ |
    ⟨w, z, o, p, rest, ds, -, -, he⟩
  · exact absurd hr h
  · rw [he]; exact hdiscard.answered (fun _ => rfl) rfl rfl
  · rw [he]; exact (unanswered_closeAll hdiscard ds).answered (fun _ => rfl) rfl rfl
  · rw [he]; exact hdiscard.answered (by simp) rfl rfl

theorem answered_discardBody : Answered s s.discardBody := by
  unfold State.discardBody
  split
  · exact answered_of_response (by simp) rfl rfl
  · exact (unanswered_doDiscard s).answered (by simp) rfl rfl

theorem answered_skipBody (n : Half) : Answered s (s.skipBody n) := by
  unfold State.skipBody
  split <;> exact answered_of_response (fun _ => rfl) rfl rfl

theorem answered_decodeArg (t : Ty) : Answered s (s.decodeArg t) := by
  rcases s.decodeArg_cases t with ⟨v, c, d, -, he⟩ | ⟨e, -, -, he⟩ <;> rw [he]
  · exact answered_of_response (by simp) rfl rfl
  · exact answered_of_response (fun _ => rfl) rfl rfl

theorem answered_encodeArg (t : Ty) (v : t.Val) : Answered s (s.encodeArg t v) := by
  rcases s.encodeArg_cases t v with ⟨-, he⟩ | ⟨-, he⟩ <;> rw [he] <;>
    exact answered_of_response (fun _ => rfl) rfl rfl

/-- ENC.END emits the message, then answers (43_encode.md R210). -/
theorem answered_endBody : Answered s s.endBody :=
  ⟨rfl, [.txEmit _ _], .ok, _, rfl, rfl, by simp⟩

/-- Every command answers, but a FRAME whose reads have no answer yet. -/
theorem answered_exec {i : Instr} {t : State}
    (hframe : i = .frame → s.mode ≠ .dead → readFrame s.bo s.rx s.rxEnd ≠ .holds) (h : exec i s = .next t) :
    Answered s t := by
  rcases exec_cases i s with ⟨rfl, hx⟩ | ⟨-, hx⟩ | ⟨n, -, hx⟩ | ⟨ty, -, -, hx⟩ | ⟨o, w, -, hx⟩ |
    ⟨ty, v, -, -, -, -, hx⟩ | ⟨-, hx⟩ | ⟨n, it, -, hx⟩ | ⟨r, -, -, hx⟩ | ⟨-, -, hx⟩ | ⟨-, -, -, hx⟩ <;>
    obtain rfl := Host.Outcome.next.inj (hx.symm.trans h)
  · rcases s.checked_cases true State.frameBody with ⟨hm, -, he⟩ | ⟨-, he⟩ <;> rw [he]
    · exact answered_frameBody (hframe rfl hm)
    · exact answered_of_response (fun _ => rfl) rfl rfl
  · exact answered_checked answered_discardBody
  · exact answered_checked (answered_skipBody n)
  · exact answered_checked (answered_decodeArg ty)
  · exact answered_checked (answered_of_response (fun _ => rfl) rfl rfl)
  · exact answered_checked (answered_encodeArg ty v)
  · exact answered_checked answered_endBody
  · exact answered_of_response (by simp) rfl rfl
  · exact answered_of_response (fun _ => rfl) rfl rfl
  · exact answered_unsupported _
  · exact answered_of_response (fun _ => rfl) rfl rfl

end

/-- Settles O24: the packet is a command, which answers since it is no FRAME that holds, or is rejected with an
answer. -/
theorem oneResponsePerCommand : Obligations.OneResponsePerCommand := by
  unfold Obligations.OneResponsePerCommand
  intro s t p rest hreset hport hholds hstep
  have hanswered : Answered s t := by
    cases hdecode : decode p with
    | ok i =>
      rw [stepRunsDecodedInstruction s p rest i hreset hport hdecode] at hstep
      refine answered_exec (fun hi hm hread => ?_) hstep
      simp [State.frameHolds, hport, hdecode, hi, hm, hread] at hholds
    | error r =>
      rw [step_of_decode_error hreset hport hdecode] at hstep
      obtain rfl := Host.Outcome.next.inj hstep
      exact answered_reject r
  obtain ⟨hcmd, hout⟩ := hanswered
  exact ⟨by rw [hcmd, hport]; rfl, hout⟩

end Sys2Proof.Proofs.Answers
end

section
/-! The family `40_framer.md`: the header (R134), the reads of FRAME and what it comes to (R130, R135 to R137),
DISCARD and the implicit discard (R131, R132), SKIP (R133). -/

namespace Sys2Proof.Proofs.Framer

open Sys2Proof.Machine Sys2Proof.Safety Sys2Proof.Proofs.BlockState Sys2Proof.Proofs.Memory
  Sys2Proof.Proofs.Packets Sys2Proof.Proofs.Answers

/-! ### The header (40_framer.md R134; 30_encoding.md R91) -/

section
variable (size opcode : Half)

theorem sizeField_headerWord :
    ((size.zeroExtend 32 <<< 16) ||| opcode.zeroExtend 32).extractLsb' 16 16 = size := by
  ext i hi
  have h : 16 + i < 32 := by omega
  simp [h, hi]

theorem opcodeField_headerWord :
    ((size.zeroExtend 32 <<< 16) ||| opcode.zeroExtend 32).extractLsb' 0 16 = opcode := by
  ext i hi
  have h : i < 32 := by omega
  simp [BitVec.getLsbD_eq_getElem, h, hi]

end

/-- Settles O7: each word of the header is read back from its four bytes, and each half of the second word from its
place. -/
theorem headerReadsBack : Obligations.HeaderReadsBack := by
  unfold Obligations.HeaderReadsBack
  intro bo sender size opcode
  have htake : (packHeader bo sender size opcode).take 4 = bytes32 bo sender :=
    List.take_left' (bytes32_length bo sender)
  have hdrop : (packHeader bo sender size opcode).drop 4 =
      bytes32 bo ((size.zeroExtend 32 <<< 16) ||| opcode.zeroExtend 32) :=
    List.drop_left' (bytes32_length bo sender)
  simp only [parseHeader, htake, hdrop, u32_bytes32, sizeField_headerWord, opcodeField_headerWord]

/-! ### The reads of FRAME (40_framer.md R130, R137; 20_memory.md R64) -/

section
variable {bo : ByteOrder} {ended : Bool}

/-- A stream without a whole header: `E_HDR_READ` with the bytes there are once it has ended, and no answer before. -/
theorem readFrame_of_length_lt_eight {rx : List Byte} (h : rx.length < 8) :
    readFrame bo rx ended = if ended then .fails .hdrRead (BitVec.ofNat 32 rx.length) [] else .holds := by
  unfold readFrame
  rcases rxRead_cases 4 rx ended with ⟨h4, he⟩ | ⟨-, rfl, he⟩ | ⟨-, rfl, he⟩ <;> rw [he]
  · have hleft : (rx.drop 4).length = rx.length - 4 := List.length_drop
    rcases rxRead_cases 4 (rx.drop 4) ended with ⟨h8, -⟩ | ⟨-, rfl, he'⟩ | ⟨-, rfl, he'⟩
    · omega
    · simp [he', Nat.add_sub_cancel' h4]
    · simp [he']
  · rfl
  · rfl

variable {r0 r1 part : List Byte} (h0 : r0.length = 4) (h1 : r1.length = 4)
include h0 h1

theorem readFrame_of_size_lt_eight (hsize : ((u32 bo r1).extractLsb' 16 16).toNat < 8) :
    readFrame bo (r0 ++ r1 ++ part) ended = .fails .badSize (u32 bo r1) part := by
  rw [readFrame_header h0 h1, if_pos hsize]

/-- A payload that is not there whole: `E_SHORT_PAYLOAD` with the bytes there are once the stream has ended, and no
answer before. -/
theorem readFrame_of_payload_lt (hsize : 8 ≤ ((u32 bo r1).extractLsb' 16 16).toNat)
    (hpart : part.length < ((u32 bo r1).extractLsb' 16 16).toNat - 8) :
    readFrame bo (r0 ++ r1 ++ part) ended =
      if ended then .fails .shortPayload (BitVec.ofNat 32 part.length) [] else .holds := by
  rw [readFrame_header h0 h1, if_neg (Nat.not_lt.mpr hsize)]
  rcases rxRead_cases (((u32 bo r1).extractLsb' 16 16).toNat - 8) part ended with ⟨h, -⟩ | ⟨-, rfl, he⟩ | ⟨-, rfl, he⟩
  · omega
  · rw [he]; rfl
  · rw [he]; rfl

theorem readFrame_of_whole {payload rest : List Byte} (hsize : 8 ≤ ((u32 bo r1).extractLsb' 16 16).toNat)
    (hpayload : payload.length = ((u32 bo r1).extractLsb' 16 16).toNat - 8) :
    readFrame bo (r0 ++ r1 ++ payload ++ rest) ended =
      .done (u32 bo r0) ((u32 bo r1).extractLsb' 16 16) ((u32 bo r1).extractLsb' 0 16) payload rest := by
  have hread := rxRead_append payload rest ended
  rw [hpayload] at hread
  rw [List.append_assoc (r0 ++ r1), readFrame_header h0 h1, if_neg (Nat.not_lt.mpr hsize), hread]

end

/-- On an open stream that is too short for the header, or for the size it gives, some read has no answer. -/
theorem readFrame_open_of_short {bo : ByteOrder} {rx : List Byte}
    (h : rx.length < 8 ∨ (8 ≤ ((u32 bo ((rx.drop 4).take 4)).extractLsb' 16 16).toNat ∧
      rx.length < ((u32 bo ((rx.drop 4).take 4)).extractLsb' 16 16).toNat)) :
    readFrame bo rx false = .holds := by
  by_cases h8 : rx.length < 8
  · exact readFrame_of_length_lt_eight h8
  · obtain ⟨hsize, hlen⟩ := h.resolve_left h8
    have hrx : rx = rx.take 4 ++ (rx.drop 4).take 4 ++ (rx.drop 4).drop 4 := by
      rw [List.append_assoc, List.take_append_drop, List.take_append_drop]
    rw [hrx]
    refine readFrame_of_payload_lt ?_ ?_ hsize ?_ <;> simp only [List.length_take, List.length_drop] <;> omega

/-! ### The mode check (60_exceptions.md R248, R261) -/

section
variable {s : State} {legal : Bool} (body : State → State)

theorem checked_of_legal (hm : s.mode ≠ .dead) (hl : legal = true) : s.checked legal body = body s := by
  rw [State.checked, if_neg hm, if_pos hl]

theorem checked_of_refused (h : s.mode = .dead ∨ legal = false) : s.checked legal body = s.respond .badMode [] := by
  rcases s.checked_cases legal body with ⟨hm, hl, -⟩ | ⟨-, he⟩
  · exact absurd h (by simp [hm, hl])
  · exact he

end

/-! ### What a FRAME comes to (40_framer.md R130, R135 to R137) -/

section
variable {s : State}

theorem discardLoaded_anc (s : State) : s.discardLoaded.anc = s.anc := by
  rcases discard_cases (s := s) rfl with ⟨-, h⟩ | ⟨-, h⟩ <;> rw [h]
  rfl

variable (hm : s.mode ≠ .dead)
include hm

theorem exec_frame : exec .frame s = .next s.frameBody :=
  congrArg _ (checked_of_legal State.frameBody hm rfl)

theorem exec_frame_of_holds (hread : readFrame s.bo s.rx s.rxEnd = .holds) : exec .frame s = .next s.await := by
  rw [exec_frame hm, State.frameBody, hread]

/-- A read that fails: the implicit discard, then the entry of the failure (60_exceptions.md R250, R251). -/
theorem exec_frame_of_fails {e : Status} {info : Word} {rest : List Byte}
    (hread : readFrame s.bo s.rx s.rxEnd = .fails e info rest) :
    exec .frame s = .next { s.discardLoaded with
      mode := .dead
      err := e.code
      errinfo := info
      rx := rest
      anc := s.anc.tail
      cmdPort := s.cmdPort.tail
      out := s.discardLoaded.out ++ [.response e []] } := by
  have hcls : e.cls = .transport ∨ e.cls = .framing := by
    rcases readFrame_fails_cls hread with rfl | rfl | rfl <;> simp [Status.cls]
  rw [exec_frame hm, State.frameBody, hread, ← discardLoaded_anc s, ← discardLoaded_cmdPort s]
  exact congrArg _ (State.raise_fatal hcls info)

variable {sender : Word} {size opcode : Half} {payload rest : List Byte} {ds : List Handle}
  (hread : readFrame s.bo s.rx s.rxEnd = .done sender size opcode payload rest)
include hread

/-- A fatal record: the implicit discard, the release of the handles collected, then the entry of the failure
(40_framer.md R136; 93_implementation_defined.md U7). -/
theorem exec_frame_of_fatal {j : Nat} (hscan : scanRecords s.descMax.toNat s.ancRecords 0 [] = .fatal j ds) :
    exec .frame s = .next { s.discardLoaded with
      mode := .dead
      err := 0x22
      errinfo := BitVec.ofNat 32 j
      rx := rest
      anc := s.anc.tail
      cmdPort := s.cmdPort.tail
      out := s.discardLoaded.out ++ ds.map Output.close ++ [.response .ancParse []] } := by
  rw [exec_frame hm, State.frameBody, hread, ← discardLoaded_anc s, ← discardLoaded_cmdPort s]
  dsimp only
  rw [hscan]
  rfl

theorem exec_frame_of_handles (hscan : scanRecords s.descMax.toNat s.ancRecords 0 [] = .handles ds) :
    exec .frame s = .next { s.discardLoaded with
      mode := .ready
      sender := sender
      opcode := opcode
      size := size
      plen := BitVec.ofNat 16 (size.toNat - 8)
      payload := payload
      cur := 0
      desc := ds
      dcnt := BitVec.ofNat 32 ds.length
      dcur := 0
      rx := rest
      anc := s.anc.tail
      cmdPort := s.cmdPort.tail
      out := s.discardLoaded.out ++
        [.response .ok [.word sender, .word (opcode.zeroExtend 32), .word (size.zeroExtend 32)]] } := by
  rw [exec_frame hm, State.frameBody, hread, ← discardLoaded_anc s, ← discardLoaded_cmdPort s]
  dsimp only
  rw [hscan]
  rfl

end

/-! ### The records (40_framer.md R135; 93_implementation_defined.md U7) -/

section
variable {max : Nat} {before after : List AncRecord} (hgood : ∀ r ∈ before, r ≠ .bad)
  (hfit : (rightsHandles before).length ≤ max)
include hgood hfit

theorem scanRecords_of_good : scanRecords max before 0 [] = .handles (rightsHandles before) := by
  have h := scanRecords_append (rest := []) (j := 0) (ds := []) hgood hfit
  rwa [List.append_nil] at h

theorem scanRecords_of_bad :
    scanRecords max (before ++ .bad :: after) 0 [] = .fatal before.length (rightsHandles before) := by
  rw [scanRecords_append (ds := []) hgood hfit, scanRecords, Nat.zero_add, List.nil_append]

theorem scanRecords_of_full {hs : List Handle} (hfull : max < (rightsHandles before ++ hs).length) :
    scanRecords max (before ++ .rights hs :: after) 0 [] = .fatal before.length (rightsHandles before ++ hs) := by
  rw [scanRecords_append (ds := []) hgood hfit, scanRecords, Nat.zero_add, List.nil_append, if_pos hfull]

end

/-! ### FRAME -/

/-- `PLEN` is the size less the 8 bytes of the header (10_state.md R26). -/
theorem plen_of_size {size : Half} (h : 8 ≤ size.toNat) : BitVec.ofNat 16 (size.toNat - 8) = size - 8 := by
  bv_omega

/-- Settles O29: the reads give the message, the records its descriptors. -/
theorem frameLoadsMessage : Obligations.FrameLoadsMessage := by
  unfold Obligations.FrameLoadsMessage
  intro s r0 r1 payload rest size opcode hm h0 h1 hrx hsize hopcode h8 hpayload hgood hfit
  subst hsize hopcode
  have hread : readFrame s.bo s.rx s.rxEnd = .done (u32 s.bo r0) ((u32 s.bo r1).extractLsb' 16 16)
      ((u32 s.bo r1).extractLsb' 0 16) payload rest := by
    rw [hrx, readFrame_of_whole h0 h1 h8 hpayload]
  rw [exec_frame_of_handles hm hread (scanRecords_of_good hgood hfit), plen_of_size h8]

/-- Settles O30: the reads have no answer, and a move of the outside world changes nothing of the block. -/
theorem frameHoldsForBytes : Obligations.FrameHoldsForBytes := by
  unfold Obligations.FrameHoldsForBytes
  intro s hm hopen hshort
  have hexec : exec .frame s = .next s.await := exec_frame_of_holds hm (by rw [hopen, readFrame_open_of_short hshort])
  refine ⟨hexec, ?_, ?_, fun hagenda => by rw [hexec, State.await_nil hagenda]⟩
  · simp [SameBlock, SameReceive, SameTransmit, s.await_frame]
  · simp [s.await_frame]

/-- Settles O31: the read of the header, or that of the payload, comes back short. -/
theorem frameShortReads : Obligations.FrameShortReads := by
  unfold Obligations.FrameShortReads
  intro s hm hended
  refine ⟨fun h8 => ?_, fun r0 r1 part h0 h1 hrx hsize hpart => ?_⟩
  · have hread : readFrame s.bo s.rx s.rxEnd = .fails .hdrRead (BitVec.ofNat 32 s.rx.length) [] := by
      rw [hended, readFrame_of_length_lt_eight h8, if_pos rfl]
    exact ⟨_, _, exec_frame_of_fails hm hread⟩
  · have hread : readFrame s.bo s.rx s.rxEnd = .fails .shortPayload (BitVec.ofNat 32 part.length) [] := by
      rw [hended, hrx, readFrame_of_payload_lt h0 h1 hsize hpart, if_pos rfl]
    exact ⟨_, _, exec_frame_of_fails hm hread⟩

/-- Settles O32: the size is looked at before the payload is read. -/
theorem frameBadSize : Obligations.FrameBadSize := by
  unfold Obligations.FrameBadSize
  intro s r0 r1 more hm h0 h1 hrx hsize
  have hread : readFrame s.bo s.rx s.rxEnd = .fails .badSize (u32 s.bo r1) more := by
    rw [hrx, readFrame_of_size_lt_eight h0 h1 hsize]
  exact ⟨_, _, exec_frame_of_fails hm hread⟩

/-- Settles O33: the records before the fatal one are gone through, and it ends the scan. -/
theorem frameBadRecord : Obligations.FrameBadRecord := by
  unfold Obligations.FrameBadRecord
  intro s r0 r1 payload more before after hm h0 h1 hrx hsize hpayload hgood hfit
  have hread : readFrame s.bo s.rx s.rxEnd = .done (u32 s.bo r0) ((u32 s.bo r1).extractLsb' 16 16)
      ((u32 s.bo r1).extractLsb' 0 16) payload more := by
    rw [hrx, readFrame_of_whole h0 h1 hsize hpayload]
  refine ⟨fun hrecords => ?_, fun hs hrecords hfull => ?_⟩
  · exact ⟨_, _, exec_frame_of_fatal hm hread (by rw [hrecords, scanRecords_of_bad hgood hfit])⟩
  · exact ⟨_, _, exec_frame_of_fatal hm hread (by rw [hrecords, scanRecords_of_full hgood hfit hfull])⟩

/-! ### DISCARD and the implicit discard (40_framer.md R131, R132) -/

section
variable {s : State}

/-- `do_discard()` where `DCNT` counts `DESC`, as 10_state.md R29 has it: it closes all entries from `DCUR` on. -/
theorem doDiscard_eq (hdcnt : s.dcnt.toNat = s.desc.length) :
    s.doDiscard = { s with
      mode := .idle, sender := 0, opcode := 0, size := 0, plen := 0, cur := 0, dcnt := 0, dcur := 0,
      payload := [], desc := [], err := 0, errinfo := 0,
      leak := s.leak || decide (s.dcur.toNat < s.dcnt.toNat)
      leakcnt := BitVec.ofNat 32 (s.dcnt.toNat - s.dcur.toNat)
      out := s.out ++ (s.desc.drop s.dcur.toNat).map Output.close } := by
  have hclosed : (s.desc.drop s.dcur.toNat).take s.unconsumed = s.desc.drop s.dcur.toNat :=
    List.take_of_length_le (by rw [List.length_drop, State.unconsumed, hdcnt])
  have hleak : decide (0 < s.unconsumed) = decide (s.dcur.toNat < s.dcnt.toNat) :=
    decide_eq_decide.mpr Nat.sub_pos_iff_lt
  unfold State.doDiscard
  dsimp only
  rw [hclosed, hleak]
  rfl

theorem exec_discard (hm : s.mode ≠ .dead) : exec .discard s = .next s.discardBody :=
  congrArg _ (checked_of_legal State.discardBody hm rfl)

theorem exec_discard_of_loaded (h : s.loaded = true) :
    exec .discard s = .next (s.doDiscard.respond .ok [.word (BitVec.ofNat 32 s.unconsumed)]) := by
  obtain ⟨hdead, hidle⟩ : s.mode ≠ .dead ∧ s.mode ≠ .idle := by
    rcases s.loaded_iff.mp h with h | h <;> simp [h]
  rw [exec_discard hdead, State.discardBody, if_neg hidle]

theorem exec_discard_of_idle (h : s.mode = .idle) : exec .discard s = .next (s.respond .ok [.word 0]) := by
  rw [exec_discard (by simp [h]), State.discardBody, if_pos h]

theorem exec_discard_of_dead (h : s.mode = .dead) : exec .discard s = .next (s.respond .badMode []) :=
  congrArg _ (checked_of_refused State.discardBody (.inl h))

end

/-- Settles O34: by what `do_discard()` comes to, and by the mode. -/
theorem discardReleasesEnvelope : Obligations.DiscardReleasesEnvelope := by
  unfold Obligations.DiscardReleasesEnvelope
  refine ⟨rfl, fun s => ⟨fun hl hdcnt => ?_, State.discardLoaded_of_not_loaded, fun hl hdcnt => ?_,
    exec_discard_of_idle, exec_discard_of_dead⟩⟩
  · rw [State.discardLoaded_of_loaded hl, doDiscard_eq hdcnt]
  · rw [exec_discard_of_loaded hl, doDiscard_eq hdcnt]
    rfl

/-! ### SKIP (40_framer.md R133) -/

section
variable {s : State} {n : Half}

theorem exec_skip_of_ready (h : s.mode = .ready) : exec (.skip n) s = .next (s.skipBody n) :=
  congrArg _ (checked_of_legal (State.skipBody n) (by simp [h]) (beq_iff_eq.mpr h))

theorem exec_skip_of_not_ready (h : s.mode ≠ .ready) : exec (.skip n) s = .next (s.respond .badMode []) :=
  congrArg _ (checked_of_refused (State.skipBody n) (.inr (beq_eq_false_iff_ne.mpr h)))

theorem skipBody_of_le (h : s.cur.toNat + n.toNat ≤ s.plen.toNat) :
    s.skipBody n = { s with cur := s.cur + n }.respond .ok [] := by
  have hcur : BitVec.ofNat 16 (s.cur.toNat + n.toNat) = s.cur + n := by bv_omega
  rw [State.skipBody, if_neg (Nat.not_lt.mpr h), hcur]

theorem skipBody_of_lt (h : s.plen.toNat < s.cur.toNat + n.toNat) :
    s.skipBody n = { s with mode := .decodeFault, err := 0x32, errinfo := s.cur.zeroExtend 32 }.respond
      .payloadUnderrun [] := by
  rw [State.skipBody, if_pos h, State.raise_decode rfl]
  rfl

end

/-- Settles O35: the word is one of the printed ones, and each case of the mode and of the bound has its lemma. -/
theorem skipMovesCursor : Obligations.SkipMovesCursor := by
  unfold Obligations.SkipMovesCursor
  intro s n
  obtain ⟨-, hprinted, -⟩ := printedWordsDecode
  obtain ⟨hword, -, -⟩ := hprinted n
  refine ⟨hword, fun hm hle => ?_, fun hm hlt => ?_, exec_skip_of_not_ready⟩
  · rw [exec_skip_of_ready hm, skipBody_of_le hle]
    rfl
  · rw [exec_skip_of_ready hm, skipBody_of_lt hlt]
    rfl

end Sys2Proof.Proofs.Framer
end

section
/-! The family `41_fixed_point.md`: the parts of a 24.8 word (R151, R153, R154, R156), the exact value of FX.FLOAT
(R155, R157), and FX.FROMFLOAT's construction on the rational number of its operand (R152, R158, R160). -/

namespace Sys2Proof.Proofs.FixedPoint

open Sys2Proof.Machine Sys2Proof.Safety Sys2Proof.Proofs.Packets

/-! ### The integer commands (41_fixed_point.md R151, R153, R154) -/

theorem fixedInteger_eq_sshiftRight (v : Word) : fixedInteger v = v.sshiftRight 8 := by
  ext i hi
  rw [fixedInteger, BitVec.getElem_signExtend, BitVec.getElem_sshiftRight]
  by_cases h : i < 24
  · have hlow : 8 + i < 32 := by omega
    simp [h, hlow]
  · have hhigh : ¬ 8 + i < 32 := by omega
    simp [h, hhigh, BitVec.msb_eq_getLsbD_last]

theorem toInt_fixedInteger (v : Word) : (fixedInteger v).toInt = v.toInt / 256 := by
  rw [fixedInteger_eq_sshiftRight, BitVec.toInt_sshiftRight, Int.shiftRight_eq_div_pow]
  rfl

theorem toNat_fixedFraction (v : Word) : (fixedFraction v).toNat = v.toNat % 256 := by
  have h : v.toNat % 256 < 2 ^ 32 := by omega
  simpa [fixedFraction] using h

theorem toNat_shiftLeft_eight (n : Word) : (n <<< 8).toNat = n.toNat * 256 % 2 ^ 32 := by
  rw [BitVec.toNat_shiftLeft, Nat.shiftLeft_eq]

/-- Settles O54: each result word has the value of the formula. -/
theorem fixedIntegerCommands : Obligations.FixedIntegerCommands := by
  unfold Obligations.FixedIntegerCommands
  intro s n
  obtain ⟨-, -, -, -, -, -, -, hprinted, -⟩ := printedWordsDecode
  obtain ⟨-, -, -, -, hfromint, hinteger, hfraction, -, -⟩ := hprinted n
  have hshift : n <<< 8 = BitVec.ofNat 32 (n.toNat * 256) := BitVec.eq_of_toNat_eq (toNat_shiftLeft_eight n)
  have hint : fixedInteger n = BitVec.ofInt 32 (n.toInt / 256) := by
    rw [← toInt_fixedInteger, BitVec.ofInt_toInt]
  have hfrac : fixedFraction n = BitVec.ofNat 32 (n.toNat % 256) := by
    rw [← toNat_fixedFraction, BitVec.ofNat_toNat, BitVec.setWidth_eq]
  rw [← hshift, ← hint, ← hfrac]
  exact ⟨hfromint, hinteger, hfraction, rfl, rfl, rfl⟩

/-! ### The fields of a binary64 pattern (41_fixed_point.md R160) -/

/-- The sign of a binary64 as a factor. -/
def signOf (neg : Bool) : ℚ := if neg then -1 else 1

theorem abs_signOf (neg : Bool) : |signOf neg| = 1 := by cases neg <;> simp [signOf]

theorem signOf_mul_natAbs (n : Int) : signOf (decide (n < 0)) * n.natAbs = n := by
  rcases lt_or_ge n 0 with h | h
  · simp [signOf, h, abs_of_neg]
  · simpa [signOf, not_lt.mpr h] using h

/-- The pattern of a sign, a biased exponent and a fraction. -/
def f64OfFields (neg : Bool) (e m : Nat) : F64 :=
  BitVec.ofNat 64 ((if neg then 2 ^ 63 else 0) + e * 2 ^ 52 + m)

section
variable {neg : Bool} {e m : Nat} (he : e < 2 ^ 11) (hm : m < 2 ^ 52)
include he hm

theorem toNat_f64OfFields : (f64OfFields neg e m).toNat = (if neg then 2 ^ 63 else 0) + e * 2 ^ 52 + m := by
  rw [f64OfFields, BitVec.toNat_ofNat, Nat.mod_eq_of_lt]
  split <;> omega

theorem sign_f64OfFields : (f64OfFields neg e m).getLsbD 63 = neg := by
  rw [BitVec.getLsbD, Nat.testBit_eq_decide_div_mod_eq, toNat_f64OfFields he hm]
  cases neg with
  | false => rw [if_neg Bool.false_ne_true, decide_eq_false_iff_not]; omega
  | true => rw [if_pos rfl, decide_eq_true_iff]; omega

theorem exponent_f64OfFields : ((f64OfFields neg e m).extractLsb' 52 11).toNat = e := by
  rw [BitVec.extractLsb'_toNat, toNat_f64OfFields he hm, Nat.shiftRight_eq_div_pow]
  split <;> omega

theorem fraction_f64OfFields : ((f64OfFields neg e m).extractLsb' 0 52).toNat = m := by
  rw [BitVec.extractLsb'_toNat, toNat_f64OfFields he hm, Nat.shiftRight_eq_div_pow]
  split <;> omega

end

theorem f64Value_f64OfFields {neg : Bool} {e m : Nat} (h0 : 0 < e) (he : e < 2047) (hm : m < 2 ^ 52) :
    f64Value (f64OfFields neg e m) = some (signOf neg * (2 ^ 52 + m) * (2 : ℚ) ^ ((e : ℤ) - 1075)) := by
  have hfield : e < 2 ^ 11 := by omega
  rw [f64Value, sign_f64OfFields hfield hm, exponent_f64OfFields hfield hm, fraction_f64OfFields hfield hm,
    if_neg (by omega), if_neg (by omega)]
  rfl

theorem f64Value_zero : f64Value 0 = some 0 := by simp [f64Value]

/-! ### FX.FLOAT (41_fixed_point.md R155, R157) -/

theorem f64Of256ths_eq_fields {n : Int} (h : n ≠ 0) :
    f64Of256ths n = f64OfFields (decide (n < 0)) (1015 + n.natAbs.log2)
      (n.natAbs * 2 ^ (52 - n.natAbs.log2) - 2 ^ 52) := by
  have he : 1023 + n.natAbs.log2 - 8 = 1015 + n.natAbs.log2 := by omega
  simp [f64Of256ths, f64OfFields, h, he]

/-- A numerator of at most 53 bits, moved up until its leading bit is bit 52. -/
theorem normalized_bounds {a : Nat} (h0 : a ≠ 0) (h : a < 2 ^ 53) :
    2 ^ 52 ≤ a * 2 ^ (52 - a.log2) ∧ a * 2 ^ (52 - a.log2) < 2 ^ 53 := by
  have hlog : a.log2 < 53 := (Nat.log2_lt h0).mpr h
  have hadd : a.log2 + (52 - a.log2) = 52 := by omega
  have hsucc : a.log2 + 1 + (52 - a.log2) = 53 := by omega
  constructor
  · calc 2 ^ 52 = 2 ^ a.log2 * 2 ^ (52 - a.log2) := by rw [← pow_add, hadd]
      _ ≤ a * 2 ^ (52 - a.log2) := Nat.mul_le_mul_right _ (Nat.log2_self_le h0)
  · calc a * 2 ^ (52 - a.log2) < 2 ^ (a.log2 + 1) * 2 ^ (52 - a.log2) :=
          Nat.mul_lt_mul_of_pos_right Nat.lt_log2_self (by positivity)
      _ = 2 ^ 53 := by rw [← pow_add, hsucc]

/-- The shift that normalizes the numerator and the exponent written for it differ by the 8 fraction bits. -/
theorem two_pow_mul_exponent {p : Nat} (hp : p < 53) :
    (2 : ℚ) ^ (52 - p) * 2 ^ (((1015 + p : Nat) : ℤ) - 1075) = 1 / 256 := by
  have hexp : ((52 - p : Nat) : ℤ) + (((1015 + p : Nat) : ℤ) - 1075) = -8 := by omega
  rw [← zpow_natCast, ← zpow_add₀ two_ne_zero, hexp]
  norm_num

theorem f64Value_f64Of256ths {n : Int} (h : n.natAbs < 2 ^ 53) :
    f64Value (f64Of256ths n) = some ((n : ℚ) / 256) := by
  rcases eq_or_ne n 0 with rfl | hn
  · rw [f64Of256ths, if_pos rfl, f64Value_zero, Int.cast_zero, zero_div]
  have ha : n.natAbs ≠ 0 := Int.natAbs_ne_zero.mpr hn
  have hp : n.natAbs.log2 < 53 := (Nat.log2_lt ha).mpr h
  obtain ⟨hlo, hhi⟩ := normalized_bounds ha h
  have hmantissa : (2 : ℚ) ^ 52 + (n.natAbs * 2 ^ (52 - n.natAbs.log2) - 2 ^ 52 : Nat) =
      n.natAbs * 2 ^ (52 - n.natAbs.log2) := by exact_mod_cast Nat.add_sub_cancel' hlo
  rw [f64Of256ths_eq_fields hn, f64Value_f64OfFields (by omega) (by omega) (by omega), hmantissa, ← mul_assoc,
    mul_assoc, two_pow_mul_exponent hp, signOf_mul_natAbs, mul_one_div]

theorem toInt_emod_256 (v : Word) : v.toInt % 256 = (v.toNat % 256 : Nat) := by
  rw [BitVec.toInt_eq_toNat_cond]
  split <;> omega

theorem f64OfFixed_eq (v : Word) : f64OfFixed v = f64Of256ths v.toInt := by
  rw [f64OfFixed, toInt_fixedInteger, toNat_fixedFraction, ← toInt_emod_256, Int.ediv_mul_add_emod]

theorem f64Value_f64OfFixed (v : Word) : f64Value (f64OfFixed v) = some ((v.toInt : ℚ) / 256) := by
  have hlo := v.le_toInt
  have hhi := v.toInt_lt
  rw [f64OfFixed_eq, f64Value_f64Of256ths (by omega)]

/-- Settles O56: the two parts of the word add up to the signed word, whose 256ths the pattern holds exactly. -/
theorem fixedFloatIsExact : Obligations.FixedFloatIsExact := by
  unfold Obligations.FixedFloatIsExact
  refine fun s v => ⟨f64OfFixed v, rfl, f64Value_f64OfFixed v, ?_⟩
  rintro rfl
  rw [f64OfFixed_eq]
  rfl

/-! ### The law of FX.FROMINT (41_fixed_point.md R156) -/

theorem toInt_shiftLeft_eight {n : Word} (hlo : -(2 ^ 23) ≤ n.toInt) (hhi : n.toInt ≤ 2 ^ 23 - 1) :
    (n <<< 8).toInt = n.toInt * 256 := by
  have hshift := toNat_shiftLeft_eight n
  rw [BitVec.toInt_eq_toNat_cond] at hlo hhi ⊢
  rw [BitVec.toInt_eq_toNat_cond]
  split at hlo <;> split <;> omega

theorem fixedInteger_shiftLeft_eight {n : Word} (hlo : -(2 ^ 23) ≤ n.toInt) (hhi : n.toInt ≤ 2 ^ 23 - 1) :
    fixedInteger (n <<< 8) = n := by
  apply BitVec.eq_of_toInt_eq
  rw [toInt_fixedInteger, toInt_shiftLeft_eight hlo hhi, Int.mul_ediv_cancel _ (by decide)]

theorem fixedFraction_shiftLeft_eight (n : Word) : fixedFraction (n <<< 8) = 0 := by
  apply BitVec.eq_of_toNat_eq
  rw [toNat_fixedFraction, toNat_shiftLeft_eight]
  change _ = 0
  omega

theorem f64OfFixed_five : f64OfFixed ((5 : Word) <<< 8) = 0x4014000000000000 := by decide

/-- Settles O55: the two parts of the shifted word, and the exact value of FX.FLOAT at 5. -/
theorem fixedFromIntLaw : Obligations.FixedFromIntLaw := by
  unfold Obligations.FixedFromIntLaw
  refine fun s => ⟨fun n hlo hhi => ⟨n <<< 8, rfl, ?_, ?_⟩, (5 : Word) <<< 8, rfl, ?_, ?_⟩
  · change execFxInteger _ s = _
    rw [execFxInteger, fixedInteger_shiftLeft_eight hlo hhi]
  · change execFxFraction _ s = _
    rw [execFxFraction, fixedFraction_shiftLeft_eight]
  · change execFxFloat _ s = _
    rw [execFxFloat, f64OfFixed_five]
  · rw [← f64OfFixed_five, f64Value_f64OfFixed, toInt_shiftLeft_eight (by decide) (by decide),
      show (5 : Word).toInt = 5 from rfl]
    norm_num

/-! ### The rational number of the parts of a binary64 (41_fixed_point.md R152, R160) -/

/-- The rational number of a sign, a numerator n and an exponent k: the magnitude is n / 2^k. -/
def partsValue (p : Bool × Nat × Nat) : ℚ := signOf p.1 * (p.2.1 / 2 ^ p.2.2)

theorem two_zpow_exponent_of_le {e : Nat} (h : e ≤ 1075) : (2 : ℚ) ^ ((e : ℤ) - 1075) = 1 / 2 ^ (1075 - e) := by
  rw [show (e : ℤ) - 1075 = -((1075 - e : Nat) : ℤ) by omega, zpow_neg, zpow_natCast, one_div]

theorem two_zpow_exponent_of_lt {e : Nat} (h : 1075 < e) : (2 : ℚ) ^ ((e : ℤ) - 1075) = 2 ^ (e - 1075) := by
  rw [show (e : ℤ) - 1075 = ((e - 1075 : Nat) : ℤ) by omega, zpow_natCast]

theorem f64Value_eq_parts (x : F64) : f64Value x = (f64Parts x).map partsValue := by
  unfold f64Value f64Parts
  generalize x.getLsbD 63 = neg, (x.extractLsb' 52 11).toNat = e, (x.extractLsb' 0 52).toNat = m
  dsimp only
  by_cases hspecial : e = 2047
  · rw [if_pos hspecial, if_pos hspecial]
    rfl
  rw [if_neg hspecial, if_neg hspecial]
  by_cases hsub : e = 0
  · rw [if_pos hsub, if_pos hsub, Option.map_some, partsValue, mul_assoc]
    rfl
  rw [if_neg hsub, if_neg hsub]
  rcases Nat.lt_or_ge 1075 e with hbig | hsmall
  · rw [if_neg (Nat.not_le.mpr hbig), Option.map_some, partsValue, two_zpow_exponent_of_lt hbig, mul_assoc]
    push_cast
    rw [pow_zero, div_one]
    rfl
  · rw [if_pos hsmall, Option.map_some, partsValue, two_zpow_exponent_of_le hsmall, mul_assoc, mul_one_div]
    push_cast
    rfl

theorem floor_div_two_pow (n k : Nat) : ⌊(n / 2 ^ k : ℚ)⌋ = (n / 2 ^ k : Nat) := by
  exact_mod_cast Rat.floor_natCast_div_natCast n (2 ^ k)

theorem div_two_pow_sub_floor (n k : Nat) : (n / 2 ^ k : ℚ) - (n / 2 ^ k : Nat) = (n % 2 ^ k : Nat) / 2 ^ k := by
  have h : ((2 ^ k * (n / 2 ^ k) + n % 2 ^ k : Nat) : ℚ) = n := congrArg _ (Nat.div_add_mod n (2 ^ k))
  rw [← h, Nat.cast_add, Nat.cast_mul, Nat.cast_pow, Nat.cast_ofNat, add_div,
    mul_div_cancel_left₀ _ (by positivity), add_sub_cancel_left]

theorem truncRat_neg {q : ℚ} (h : 0 ≤ q) : truncRat (-q) = -truncRat q := by
  rcases h.eq_or_lt with rfl | hpos
  · simp [truncRat]
  · rw [truncRat, truncRat, if_pos h, if_neg (by linarith), Int.ceil_neg]

theorem truncRat_partsValue (neg : Bool) (n k : Nat) : truncRat (partsValue (neg, n, k)) = f64Trunc neg n k := by
  have hnonneg : (0 : ℚ) ≤ n / 2 ^ k := by positivity
  have hpos : truncRat (n / 2 ^ k) = (n / 2 ^ k : Nat) := by
    rw [truncRat, if_pos hnonneg, floor_div_two_pow]
  cases neg with
  | false => simpa [partsValue, signOf, f64Trunc] using hpos
  | true => simpa [partsValue, signOf, f64Trunc, truncRat_neg hnonneg] using hpos

theorem cast_f64Trunc (neg : Bool) (n k : Nat) : (f64Trunc neg n k : ℚ) = signOf neg * (n / 2 ^ k : Nat) := by
  rw [f64Trunc]
  generalize n / 2 ^ k = i
  cases neg <;> simp [signOf]

theorem abs_partsValue_sub_trunc (neg : Bool) (n k : Nat) :
    |partsValue (neg, n, k) - (f64Trunc neg n k : ℚ)| = (n % 2 ^ k : Nat) / 2 ^ k := by
  rw [partsValue, cast_f64Trunc, ← mul_sub, div_two_pow_sub_floor, abs_mul, abs_signOf, one_mul,
    abs_of_nonneg (by positivity)]

theorem round_partsValue (neg : Bool) (n k : Nat) :
    ⌊|partsValue (neg, n, k) - (f64Trunc neg n k : ℚ)| * 256 + 1 / 2⌋ = f64Round256 n k := by
  have hscale : ((n % 2 ^ k : Nat) / 2 ^ k * 256 + 1 / 2 : ℚ) =
      (((n % 2 ^ k) * 512 + 2 ^ k : Nat) : ℚ) / 2 ^ (k + 1) := by
    push_cast [pow_succ]
    field_simp
    ring
  rw [abs_partsValue_sub_trunc, hscale, floor_div_two_pow, f64Round256]

/-! ### FX.FROMFLOAT (41_fixed_point.md R152) -/

theorem fixedOfF64_of_value {x : F64} {q : ℚ} (h : f64Value x = some q) :
    fixedOfF64 x =
      if truncRat q < -(2 ^ 31) ∨ 2 ^ 31 - 1 < truncRat q then none
      else some (BitVec.ofInt 32 (truncRat q) <<< 8 |||
        BitVec.ofNat 32 (⌊|q - (truncRat q : ℚ)| * 256 + 1 / 2⌋).toNat) := by
  rw [f64Value_eq_parts, Option.map_eq_some_iff] at h
  obtain ⟨⟨neg, n, k⟩, hparts, rfl⟩ := h
  rw [truncRat_partsValue, round_partsValue, fixedOfF64, hparts, Int.toNat_natCast]

theorem fixedOfF64_of_no_value {x : F64} (h : f64Value x = none) : fixedOfF64 x = none := by
  rw [f64Value_eq_parts, Option.map_eq_none_iff] at h
  rw [fixedOfF64, h]

section
variable {s : State} {x : F64}

theorem exec_fxFromfloat_of_some {v : Word} (h : fixedOfF64 x = some v) :
    exec (.fxFromfloat x) s = .next (s.respond .ok [.word v]) := by
  change execFxFromfloat x s = _
  rw [execFxFromfloat, h]

theorem exec_fxFromfloat_of_none (h : fixedOfF64 x = none) :
    exec (.fxFromfloat x) s =
      .next ({ s with draws := s.draws + 1 }.respond .ok [.word (Config.freeWord s.draws)]) := by
  change execFxFromfloat x s = _
  rw [execFxFromfloat, h]

end

/-- Settles O57: the model's integer part and rounded fraction are those of the rational number. -/
theorem fixedFromFloatConstruction : Obligations.FixedFromFloatConstruction := by
  unfold Obligations.FixedFromFloatConstruction
  intro s x q hq hlo hhi
  refine exec_fxFromfloat_of_some ?_
  rw [fixedOfF64_of_value hq, if_neg (by omega)]

/-- Settles O58: without a number in range the construction gives no word, and the next draw is answered. -/
theorem fixedFromFloatOpenValue : Obligations.FixedFromFloatOpenValue := by
  unfold Obligations.FixedFromFloatOpenValue
  intro s x hopen
  have hnone : fixedOfF64 x = none := by
    cases hq : f64Value x with
    | none => exact fixedOfF64_of_no_value hq
    | some q => rw [fixedOfF64_of_value hq, if_pos (hopen q hq)]
  exact ⟨Config.freeWord s.draws, s.draws + 1, exec_fxFromfloat_of_none hnone⟩

/-! ### FX.FROMFLOAT of a number from 0 up to 2^23 (41_fixed_point.md R158) -/

/-- A fraction that fits its 8 bits does not meet the shifted integer part: the OR adds them. -/
theorem toInt_shiftLeft_eight_or {i r : Int} (hi0 : 0 ≤ i) (hi : i < 2 ^ 23) (hr0 : 0 ≤ r) (hr : r < 2 ^ 8) :
    (BitVec.ofInt 32 i <<< 8 ||| BitVec.ofNat 32 r.toNat : Word).toInt = i * 256 + r := by
  lift i to ℕ using hi0
  lift r to ℕ using hr0
  have hi32 : i % 2 ^ 32 = i := Nat.mod_eq_of_lt (by omega)
  have hr32 : r % 2 ^ 32 = r := Nat.mod_eq_of_lt (by omega)
  have hshift : i * 256 % 2 ^ 32 = 2 ^ 8 * i := by omega
  have hadd : 2 ^ 8 * i ||| r = 2 ^ 8 * i + r := (Nat.two_pow_add_eq_or_of_lt (by omega) i).symm
  have hnat : (BitVec.ofInt 32 i <<< 8 ||| BitVec.ofNat 32 r : Word).toNat = 2 ^ 8 * i + r := by
    rw [BitVec.ofInt_natCast, BitVec.toNat_or, toNat_shiftLeft_eight, BitVec.toNat_ofNat, BitVec.toNat_ofNat,
      hi32, hr32, hshift, hadd]
  rw [Int.toNat_natCast, BitVec.toInt_eq_toNat_of_lt (by omega), hnat]
  omega

theorem floor_mul_256 (q : ℚ) :
    ⌊q * 256 + 1 / 2⌋ = ⌊q⌋ * 256 + ⌊(q - (⌊q⌋ : ℚ)) * 256 + 1 / 2⌋ := by
  rw [← Int.floor_intCast_add]
  congr 1
  push_cast
  ring

/-- Settles O59: outside the carry band the rounded fraction fits 8 bits. -/
theorem fixedFromFloatRoundsNonNegative : Obligations.FixedFromFloatRoundsNonNegative := by
  unfold Obligations.FixedFromFloatRoundsNonNegative
  intro s x q hq h0 hlt hband
  have htrunc : truncRat q = ⌊q⌋ := if_pos h0
  have hfrac : 0 ≤ q - (⌊q⌋ : ℚ) := sub_nonneg.mpr (Int.floor_le q)
  have hi0 : 0 ≤ ⌊q⌋ := Int.floor_nonneg.mpr h0
  have hi : ⌊q⌋ < 2 ^ 23 := Int.floor_lt.mpr (by exact_mod_cast hlt)
  have hr0 : 0 ≤ ⌊(q - (⌊q⌋ : ℚ)) * 256 + 1 / 2⌋ := Int.floor_nonneg.mpr (by linarith)
  have hr : ⌊(q - (⌊q⌋ : ℚ)) * 256 + 1 / 2⌋ < 2 ^ 8 := Int.floor_lt.mpr (by push_cast; linarith)
  refine ⟨_, fixedFromFloatConstruction s x q hq (by omega) (by omega), ?_⟩
  rw [htrunc, abs_of_nonneg hfrac, toInt_shiftLeft_eight_or hi0 hi hr0 hr, floor_mul_256 q]

end Sys2Proof.Proofs.FixedPoint
end

section
/-! The family `42_decode.md`: a DEC command in `READY` by what `dec` answers (R170, R179, R180), the fields that
begin with a length (R174 to R176), descriptors (R177), sequences and their bound (R178, R182). -/

namespace Sys2Proof.Proofs.Decoder

open Sys2Proof.Machine Sys2Proof.Safety Sys2Proof.Proofs.BlockState Sys2Proof.Proofs.Framer
  Sys2Proof.Proofs.Packets Sys2Proof.Proofs.Wire

/-! ### A DEC command in `READY` (42_decode.md R170, R180; 60_exceptions.md R252)

The instruction is given with the type it decodes, so that each lemma serves all DEC commands. -/

section
variable {s : State} {i : Instr} {t : Ty} (hm : s.mode = .ready) (hi : exec i s = .next (s.decCommand t))
include hm hi

theorem exec_dec_of_ready : exec i s = .next (s.decodeArg t) := by
  rw [hi, State.decCommand, checked_of_legal _ (by simp [hm]) (beq_iff_eq.mpr hm)]

theorem exec_dec_of_ok {v : t.Val} {c d : Nat} (h : dec s t s.cur.toNat s.dcur.toNat = .ok (v, c, d)) :
    exec i s = .next { s with
      cur := BitVec.ofNat 16 c
      dcur := BitVec.ofNat 32 d
      cmdPort := s.cmdPort.tail
      out := s.out ++ [.response .ok (items t v)] } := by
  rw [exec_dec_of_ready hm hi, State.decodeArg, h]
  rfl

/-- A value without descriptors leaves `DCUR`. -/
theorem exec_dec_of_ok_payload {v : t.Val} {c : Nat}
    (h : dec s t s.cur.toNat s.dcur.toNat = .ok (v, c, s.dcur.toNat)) :
    exec i s = .next { s with
      cur := BitVec.ofNat 16 c
      cmdPort := s.cmdPort.tail
      out := s.out ++ [.response .ok (items t v)] } := by
  have hexec := exec_dec_of_ok hm hi h
  rwa [BitVec.ofNat_toNat, BitVec.setWidth_eq] at hexec

theorem exec_dec_of_error {e : Status} (h : dec s t s.cur.toNat s.dcur.toNat = .error e) :
    exec i s = .next { s with
      mode := .decodeFault, err := e.code, errinfo := s.cur.zeroExtend 32,
      cmdPort := s.cmdPort.tail, out := s.out ++ [.response e []] } := by
  rw [exec_dec_of_ready hm hi, State.decodeArg, h]
  exact congrArg _ (State.raise_decode (dec_error_cls h) _)

end

/-- DEC.SEQ decodes the type that its fields name. -/
theorem exec_decSeq {s : State} {depth base : BitVec 4} {t : Ty} (hdepth : depth ≠ 0)
    (ht : typeOf depth base = some t) : exec (.decSeq depth base) s = .next (s.decCommand t) := by
  rw [exec, execDecSeq, if_neg hdepth, ht]

/-! ### Words (42_decode.md R179) -/

section
variable {s : State} {c : Nat}

theorem decU32_of_le (hl : s.payload.length = s.plen.toNat) (h : c + 4 ≤ s.plen.toNat) :
    decU32 s c = .ok (u32 s.bo ((s.payload.drop c).take 4), c + 4) :=
  decU32_ok.mpr ⟨_, memRead_eq_some.mpr ⟨h, hl ▸ h, rfl⟩, rfl, rfl⟩

theorem decU32_of_lt (h : s.plen.toNat < c + 4) : decU32 s c = .error .payloadUnderrun :=
  decU32_error.mpr ⟨memRead_eq_none.mpr (.inl h), rfl⟩

/-- Every type but FD begins with a word: a scalar, a length or a count. -/
theorem dec_error_of_decU32 {t : Ty} {d : Nat} {e : Status} (ht : t ≠ .fd) (h : decU32 s c = .error e) :
    dec s t c d = .error e := by
  cases t with
  | int | uint | fixed => simp [dec, decScalar, h]
  | string => simp [dec, decStringAt, h]
  | array => simp [dec, decArrayAt, h]
  | newid => simp [dec, decNewidAt, decStringAt, h]
  | fd => exact absurd rfl ht
  | seq t => simp [dec, h]

end

/-- Without four bytes at the cursor, every DEC command but DEC.FD fails. -/
theorem exec_dec_of_lt_four {s : State} {i : Instr} {t : Ty} (hm : s.mode = .ready)
    (hi : exec i s = .next (s.decCommand t)) (ht : t ≠ .fd) (h : s.plen.toNat < s.cur.toNat + 4) :
    exec i s = .next { s with
      mode := .decodeFault, err := 0x32, errinfo := s.cur.zeroExtend 32,
      cmdPort := s.cmdPort.tail, out := s.out ++ [.response .payloadUnderrun []] } :=
  exec_dec_of_error hm hi (dec_error_of_decU32 ht (decU32_of_lt h))

/-- The three scalars are read and answered alike (42_decode.md R171 to R173). -/
theorem decodeArg_scalar {t : Ty} (ht : t = .uint ∨ t = .fixed) : State.decodeArg t = State.decodeArg .int := by
  funext s
  rcases ht with rfl | rfl
  all_goals
    simp only [State.decodeArg, dec]
    cases decScalar s s.cur.toNat s.dcur.toNat <;> rfl

theorem exec_decScalar {i : Instr} (s : State) (hi : i = .decInt ∨ i = .decUint ∨ i = .decFixed) :
    exec i s = .next (s.decCommand .int) := by
  unfold State.decCommand
  rcases hi with rfl | rfl | rfl
  · rfl
  · rw [← decodeArg_scalar (.inl rfl)]
    rfl
  · rw [← decodeArg_scalar (.inr rfl)]
    rfl

/-- Settles O36: the three are one command, and its word is there or not. -/
theorem decScalarsReadFourBytes : Obligations.DecScalarsReadFourBytes := by
  unfold Obligations.DecScalarsReadFourBytes
  obtain ⟨-, -, ⟨hint, huint, hfixed, -⟩, -⟩ := printedWordsDecode
  refine ⟨hint, huint, hfixed, fun s i hm hl hi => ⟨fun hle => ?_, fun hlt => ?_⟩⟩
  · have hcur : BitVec.ofNat 16 (s.cur.toNat + 4) = s.cur + 4 := by bv_omega
    rw [← hcur]
    exact exec_dec_of_ok_payload hm (exec_decScalar s hi) (decScalar_ok.mpr ⟨decU32_of_le hl hle, rfl⟩)
  · exact exec_dec_of_lt_four hm (exec_decScalar s hi) nofun hlt

/-- A type with a level of SEQ is not FD. -/
theorem typeOf_ne_fd {depth base : BitVec 4} {t : Ty} (hdepth : depth ≠ 0) (ht : typeOf depth base = some t) :
    t ≠ .fd := by
  obtain ⟨b, -, rfl⟩ := typeOf_eq_some ht
  obtain ⟨n, hn⟩ : ∃ n, depth.toNat = n + 1 :=
    Nat.exists_eq_succ_of_ne_zero fun h => hdepth (BitVec.eq_of_toNat_eq h)
  rw [hn]
  nofun

/-- Settles O37: each begins with the read of a word. -/
theorem decWithoutPrefixUnderruns : Obligations.DecWithoutPrefixUnderruns := by
  unfold Obligations.DecWithoutPrefixUnderruns
  intro s i hm hi hlt
  rcases hi with rfl | rfl | rfl | ⟨depth, base, rfl, hdepth, hbase⟩
  · exact exec_dec_of_lt_four (t := .string) hm rfl nofun hlt
  · exact exec_dec_of_lt_four (t := .array) hm rfl nofun hlt
  · exact exec_dec_of_lt_four (t := .newid) hm rfl nofun hlt
  · obtain ⟨t, ht⟩ : ∃ t, typeOf depth base = some t :=
      Option.isSome_iff_exists.mp (by simp [typeOf_isSome, hbase])
    exact exec_dec_of_lt_four hm (exec_decSeq hdepth ht) (typeOf_ne_fd hdepth ht) hlt

/-! ### Fields with a length (42_decode.md R174 to R176; 30_encoding.md R100)

The length that stands at the cursor is the word `w`. -/

theorem ne_zero_of_toNat_pos {w : Word} (h : 0 < w.toNat) : w ≠ 0 :=
  fun h0 => h.ne' (congrArg BitVec.toNat h0)

/-- The body of a field that fits: its bytes and the padding, from the first byte after the length on. -/
theorem memRead_body {s : State} {c : Nat} {w : Word} (hl : s.payload.length = s.plen.toNat)
    (hle : c + 4 + (w.toNat + 3) / 4 * 4 ≤ s.plen.toNat) :
    s.memRead (c + 4) (w.toNat + pad w.toNat) = some ((s.payload.drop (c + 4)).take ((w.toNat + 3) / 4 * 4)) := by
  rw [add_pad_eq]
  exact memRead_eq_some.mpr ⟨hle, hl ▸ hle, rfl⟩

/-- A pair fails as its string does, or as the word after the string does. -/
theorem decNewidAt_error {s : State} {c d : Nat} {e : Status} : decNewidAt s c d = .error e ↔
    decStringAt s c d = .error e ∨
      ∃ name c1 d1, decStringAt s c d = .ok (name, c1, d1) ∧ decU32 s c1 = .error e := by
  unfold decNewidAt
  cases decStringAt s c d with
  | error e' => simp
  | ok r =>
    obtain ⟨name, c1, d1⟩ := r
    cases hu : decU32 s c1 <;> simp [hu]

section
variable {s : State} {c : Nat} {w : Word} (hl : s.payload.length = s.plen.toNat) (hw : decU32 s c = .ok (w, c + 4))
include hl hw

theorem stringFails_of_zero (h0 : w.toNat = 0) : StringFails s c .malformedString :=
  .inr ⟨w, ((decU32_iff hl).mp hw).1, .inl ⟨BitVec.eq_of_toNat_eq h0, rfl⟩⟩

theorem stringFails_of_passes (h0 : 0 < w.toNat) (hlt : s.plen.toNat < c + 4 + (w.toNat + 3) / 4 * 4) :
    StringFails s c .payloadUnderrun :=
  .inr ⟨w, ((decU32_iff hl).mp hw).1, .inr (.inl ⟨ne_zero_of_toNat_pos h0, hlt, rfl⟩)⟩

theorem stringFails_of_unterminated (h0 : 0 < w.toNat) (hle : c + 4 + (w.toNat + 3) / 4 * 4 ≤ s.plen.toNat)
    (hbyte : s.payload[c + 4 + (w.toNat - 1)]? ≠ some 0x00) : StringFails s c .malformedString :=
  .inr ⟨w, ((decU32_iff hl).mp hw).1, .inr (.inr ⟨ne_zero_of_toNat_pos h0, hle, hbyte, rfl⟩)⟩

variable {d : Nat}

theorem decStringAt_of_terminated (h0 : 0 < w.toNat) (hle : c + 4 + (w.toNat + 3) / 4 * 4 ≤ s.plen.toNat)
    (hbyte : s.payload[c + 4 + (w.toNat - 1)]? = some 0x00) :
    decStringAt s c d =
      .ok ((s.payload.drop (c + 4)).take (w.toNat - 1), c + 4 + (w.toNat + 3) / 4 * 4, d) := by
  refine decStringAt_ok.mpr ⟨w, _, hw, ne_zero_of_toNat_pos h0, memRead_body hl hle, ?_, ?_, ?_, rfl⟩
  · rw [List.getElem?_take, if_pos (by omega), List.getElem?_drop, hbyte]
  · rw [List.take_take, Nat.min_eq_left (by omega)]
  · rw [add_pad_eq]

theorem decNewidAt_of_terminated (h0 : 0 < w.toNat) (hle : c + 8 + (w.toNat + 3) / 4 * 4 ≤ s.plen.toNat)
    (hbyte : s.payload[c + 4 + (w.toNat - 1)]? = some 0x00) :
    decNewidAt s c d = .ok (((s.payload.drop (c + 4)).take (w.toNat - 1),
      u32 s.bo ((s.payload.drop (c + 4 + (w.toNat + 3) / 4 * 4)).take 4)), c + 8 + (w.toNat + 3) / 4 * 4, d) := by
  have hend : c + 8 + (w.toNat + 3) / 4 * 4 = c + 4 + (w.toNat + 3) / 4 * 4 + 4 := by omega
  rw [hend] at hle ⊢
  exact decNewidAt_ok.mpr ⟨_, decStringAt_of_terminated hl hw h0 (by omega) hbyte, decU32_of_le hl hle⟩

/-- The name ends where no four bytes are left for the version. -/
theorem decNewidAt_of_no_version (h0 : 0 < w.toNat) (hle : c + 4 + (w.toNat + 3) / 4 * 4 ≤ s.plen.toNat)
    (hlt : s.plen.toNat < c + 8 + (w.toNat + 3) / 4 * 4)
    (hbyte : s.payload[c + 4 + (w.toNat - 1)]? = some 0x00) :
    decNewidAt s c d = .error .payloadUnderrun :=
  decNewidAt_error.mpr (.inr ⟨_, _, _, decStringAt_of_terminated hl hw h0 hle hbyte, decU32_of_lt (by omega)⟩)

theorem decArrayAt_of_fits (hle : c + 4 + (w.toNat + 3) / 4 * 4 ≤ s.plen.toNat) :
    decArrayAt s c d = .ok ((s.payload.drop (c + 4)).take w.toNat, c + 4 + (w.toNat + 3) / 4 * 4, d) := by
  refine decArrayAt_ok.mpr ⟨w, _, hw, memRead_body hl hle, ?_, ?_, rfl⟩
  · rw [List.take_take, Nat.min_eq_left (by omega)]
  · rw [add_pad_eq]

theorem decArrayAt_of_passes (hlt : s.plen.toNat < c + 4 + (w.toNat + 3) / 4 * 4) :
    decArrayAt s c d = .error .payloadUnderrun :=
  (decArrayAt_error_iff hl).mpr ⟨rfl, .inr ⟨w, ((decU32_iff hl).mp hw).1, hlt⟩⟩

end

/-- A string that fails at the cursor fails DEC.STRING, and DEC.NEWID, whose name it is. -/
theorem exec_dec_of_stringFails {s : State} {i : Instr} {t : Ty} {e : Status} (hm : s.mode = .ready)
    (hl : s.payload.length = s.plen.toNat) (hi : exec i s = .next (s.decCommand t)) (ht : t = .string ∨ t = .newid)
    (h : StringFails s s.cur.toNat e) :
    exec i s = .next { s with
      mode := .decodeFault, err := e.code, errinfo := s.cur.zeroExtend 32,
      cmdPort := s.cmdPort.tail, out := s.out ++ [.response e []] } := by
  have hstring : decStringAt s s.cur.toNat s.dcur.toNat = .error e := (decStringAt_error_iff hl).mpr h
  refine exec_dec_of_error hm hi ?_
  rcases ht with rfl | rfl
  · exact hstring
  · exact decNewidAt_error.mpr (.inl hstring)

/-- Settles O38: each test of the string in its order, and the string that passes them. -/
theorem decStringReadsField : Obligations.DecStringReadsField := by
  unfold Obligations.DecStringReadsField
  intro s l hm hl hfour hlen
  subst hlen
  have hw := decU32_of_le hl hfour
  have hfails {e} (h : StringFails s s.cur.toNat e) :=
    exec_dec_of_stringFails (i := .decString) (t := .string) hm hl rfl (.inl rfl) h
  refine ⟨fun h0 => ?_, fun h0 hlt => ?_, fun h0 hle hbyte => ?_, fun h0 hle hbyte => ?_⟩
  · exact hfails (stringFails_of_zero hl hw h0)
  · exact hfails (stringFails_of_passes hl hw h0 hlt)
  · exact hfails (stringFails_of_unterminated hl hw h0 hle hbyte)
  · exact exec_dec_of_ok_payload (t := .string) hm rfl (decStringAt_of_terminated hl hw h0 hle hbyte)

/-- Settles O39: the body with its padding lies within `PLEN`, or passes it. -/
theorem decArrayReadsField : Obligations.DecArrayReadsField := by
  unfold Obligations.DecArrayReadsField
  intro s l hm hl hfour hlen
  subst hlen
  have hw := decU32_of_le hl hfour
  refine ⟨fun hlt => ?_, fun hle => ?_⟩
  · exact exec_dec_of_error (t := .array) hm rfl (decArrayAt_of_passes hl hw hlt)
  · exact exec_dec_of_ok_payload (t := .array) hm rfl (decArrayAt_of_fits hl hw hle)

/-- Settles O40: the tests of the name as in O38, then the read of the version where the name ends. -/
theorem decNewidReadsPair : Obligations.DecNewidReadsPair := by
  unfold Obligations.DecNewidReadsPair
  intro s l hm hl hfour hlen
  subst hlen
  have hw := decU32_of_le hl hfour
  have hfails {e} (h : StringFails s s.cur.toNat e) :=
    exec_dec_of_stringFails (i := .decNewid) (t := .newid) hm hl rfl (.inr rfl) h
  refine ⟨fun h0 => ?_, fun h0 hlt => ?_, fun h0 hle hbyte => ?_, fun h0 hle hlt hbyte => ?_,
    fun h0 hle hbyte => ?_⟩
  · exact hfails (stringFails_of_zero hl hw h0)
  · exact hfails (stringFails_of_passes hl hw h0 hlt)
  · exact hfails (stringFails_of_unterminated hl hw h0 hle hbyte)
  · exact exec_dec_of_error (t := .newid) hm rfl (decNewidAt_of_no_version hl hw h0 hle hlt hbyte)
  · exact exec_dec_of_ok_payload (t := .newid) hm rfl (decNewidAt_of_terminated hl hw h0 hle hbyte)

/-! ### Descriptors (42_decode.md R177) -/

theorem decFdAt_of_le {s : State} {c d : Nat} (h : s.dcnt.toNat ≤ d) : decFdAt s c d = .error .descUnderflow := by
  simp [decFdAt, State.descAt, Nat.not_lt.mpr h]

/-- Settles O41: the entry at `DCUR` exists, or `DCUR` has reached `DCNT`. -/
theorem decFdTakesDescriptor : Obligations.DecFdTakesDescriptor := by
  unfold Obligations.DecFdTakesDescriptor
  obtain ⟨-, -, ⟨-, -, -, -, -, -, hword⟩, -⟩ := printedWordsDecode
  refine ⟨hword, fun s h hm hd => ⟨fun hentry => ?_, fun hle => ?_⟩⟩
  · obtain ⟨hlt, -⟩ := List.getElem?_eq_some_iff.mp hentry
    have hdec := (decFdAt_ok (c := s.cur.toNat)).mpr ⟨descAt_eq_some.mpr ⟨hd ▸ hlt, hentry⟩, rfl, rfl⟩
    have hexec := exec_dec_of_ok (i := .decFd) (t := .fd) hm rfl hdec
    have hdcur : BitVec.ofNat 32 (s.dcur.toNat + 1) = s.dcur + 1 := by bv_omega
    rwa [hdcur, BitVec.ofNat_toNat, BitVec.setWidth_eq] at hexec
  · exact exec_dec_of_error (t := .fd) hm rfl (decFdAt_of_le hle)

/-! ### Sequences (42_decode.md R178, R182) -/

/-- Settles O42: `dec` answers a value exactly where its layout stands and fails exactly where none can be read, and it
does one or the other; an encoding is such a layout. -/
theorem decSeqReadsElements : Obligations.DecSeqReadsElements := by
  unfold Obligations.DecSeqReadsElements
  intro s depth base t hm hdepth ht hl hd
  have hi := exec_decSeq (s := s) hdepth ht
  refine ⟨fun vs c d h => ?_, fun e h => ?_, ?_, fun vs hcount => wireAt_of_enc hcount⟩
  · exact exec_dec_of_ok hm hi ((dec_ok_iff hl hd).mpr h)
  · exact exec_dec_of_error hm hi ((dec_error_iff hl hd).mpr h)
  · cases hdec : dec s (.seq t) s.cur.toNat s.dcur.toNat with
    | ok r =>
      obtain ⟨vs, c, d⟩ := r
      exact .inl ⟨vs, c, d, (dec_ok_iff hl hd).mp hdec⟩
    | error e => exact .inr ⟨e, (dec_error_iff hl hd).mp hdec⟩

/-- Elements that each take a word of the payload or a descriptor take so many of them together. -/
theorem decMany_consumes {α : Type} {f : Nat → Nat → DecResult α}
    (hf : ∀ {v c d c' d'}, f c d = .ok (v, c', d') → c + 4 * d + 4 ≤ c' + 4 * d')
    {n c d c' d' : Nat} {vs : List α} (h : decMany f n c d = .ok (vs, c', d')) : c + 4 * d + 4 * n ≤ c' + 4 * d' := by
  refine decMany_chain (fun n c d c' d' => c + 4 * d + 4 * n ≤ c' + 4 * d') (fun c d => le_rfl) ?_ h
  intro n c d c1 d1 c2 d2 v hv hrest
  have hfirst := hf hv
  omega

/-- Every value takes four payload bytes or a descriptor at least, an empty sequence its count (42_decode.md R182). -/
theorem dec_consumes {s : State} : ∀ {t : Ty} {v : t.Val} {c d c' d' : Nat},
    dec s t c d = .ok (v, c', d') → c + 4 * d + 4 ≤ c' + 4 * d' := by
  have hstring : ∀ {bs : List Byte} {c d c' d' : Nat},
      decStringAt s c d = .ok (bs, c', d') → c + 4 * d + 4 ≤ c' + 4 * d' := by
    intro bs c d c' d' h
    obtain ⟨l, body, -, -, -, -, -, rfl, rfl⟩ := decStringAt_ok.mp h
    omega
  intro t
  induction t with
  | int | uint | fixed =>
    intro v c d c' d' h
    obtain ⟨hv, rfl⟩ := decScalar_ok.mp h
    obtain ⟨b, -, -, rfl⟩ := decU32_ok.mp hv
    omega
  | string => exact hstring
  | array =>
    intro v c d c' d' h
    obtain ⟨l, body, -, -, -, rfl, rfl⟩ := decArrayAt_ok.mp h
    omega
  | newid =>
    rintro ⟨name, ver⟩ c d c' d' h
    obtain ⟨c1, hname, hver⟩ := decNewidAt_ok.mp h
    obtain ⟨b, -, -, rfl⟩ := decU32_ok.mp hver
    have := hstring hname
    omega
  | fd =>
    intro v c d c' d' h
    obtain ⟨-, rfl, rfl⟩ := decFdAt_ok.mp h
    omega
  | seq t ih =>
    intro vs c d c' d' h
    obtain ⟨n, -, hmany⟩ := dec_seq_ok.mp h
    have := decMany_consumes ih hmany
    omega

/-- Settles O45: the count takes a word, each element a word or a descriptor, and neither cursor goes back. -/
theorem sequenceLengthBounded : Obligations.SequenceLengthBounded := by
  unfold Obligations.SequenceLengthBounded
  intro s t vs c d c' d' h
  obtain ⟨hc, -, hd, -⟩ := cursorsAdvance_of_dec h
  obtain ⟨n, -, hmany⟩ := dec_seq_ok.mp h
  have hconsumed := decMany_consumes dec_consumes hmany
  have hlength := decMany_length hmany
  omega

end Sys2Proof.Proofs.Decoder
end

section
/-! The family `43_encode.md`: an ENC value command in `TX_OPEN` by whether its bytes fit (R200, R211), the layouts it
appends (R202 to R209), and a message from ENC.BEGIN to ENC.END and to the FRAME of another block (R201, R210). -/

namespace Sys2Proof.Proofs.Encoder

open Sys2Proof.Machine Sys2Proof.Safety Sys2Proof.Proofs.Beats Sys2Proof.Proofs.Packets Sys2Proof.Proofs.Wire
  Sys2Proof.Proofs.Framer

/-! ### An ENC value command in `TX_OPEN` (43_encode.md R200, R211; 60_exceptions.md R254)

The instruction is given with the value it carries, so that each lemma serves all ENC value commands. -/

/-- Every instruction that carries a value is the shared ENC command of that value. -/
theorem exec_of_encodedValue {i : Instr} {t : Ty} {v : t.Val} (h : encodedValue i = some ⟨t, v⟩) (s : State) :
    exec i s = .next (s.encCommand t v) := by
  cases i with
  | encInt | encUint | encFixed | encString | encArray | encNewid | encFd => cases h; rfl
  | encSeq depth base is =>
    simp only [encodedValue] at h
    split_ifs at h with hdepth
    split at h
    · cases h
    · rename_i ht
      split at h
      · rename_i hread
        cases h
        simp only [exec, execEncSeq, if_neg hdepth, ht, hread]
      · cases h
  | _ => cases h

section
variable {s : State} {i : Instr} {t : Ty} {v : t.Val} (hm : s.mode ≠ .dead) (ho : s.txmode = .txOpen)
  (hi : encodedValue i = some ⟨t, v⟩)
include hm ho hi

theorem exec_enc_of_open : exec i s = .next (s.encodeArg t v) := by
  rw [exec_of_encodedValue hi, State.encCommand, checked_of_legal _ hm (beq_iff_eq.mpr ho)]

/-- What fits is appended: the bytes to `TXBUF`, the handles to `TXDESC`. -/
theorem exec_enc_of_fits (hlen : s.txbuf.length = s.txlen.toNat) (hfit : s.txlen.toNat + wireLen t v ≤ 65527) :
    exec i s = .next { s with
      txbuf := s.txbuf ++ (enc s.bo t v).1
      txlen := BitVec.ofNat 16 (s.txlen.toNat + wireLen t v)
      txdesc := s.txdesc ++ (enc s.bo t v).2
      txdcnt := s.txdcnt + BitVec.ofNat 32 (enc s.bo t v).2.length
      cmdPort := s.cmdPort.tail
      out := s.out ++ [.response .ok []] } := by
  rw [← enc_length s.bo] at hfit ⊢
  rw [exec_enc_of_open hm ho hi]
  rcases s.encodeArg_cases t v with ⟨-, he⟩ | ⟨hgt, -⟩
  · rw [he, memWrite_append hlen]
    rfl
  · exact absurd hfit (Nat.not_le.mpr hgt)

/-- A value without handles leaves `TXDESC` and `TXDCNT`. -/
theorem exec_enc_of_fits_payload (hlen : s.txbuf.length = s.txlen.toNat)
    (hfit : s.txlen.toNat + wireLen t v ≤ 65527) (hhandles : (enc s.bo t v).2 = []) :
    exec i s = .next { s with
      txbuf := s.txbuf ++ (enc s.bo t v).1
      txlen := BitVec.ofNat 16 (s.txlen.toNat + wireLen t v)
      cmdPort := s.cmdPort.tail
      out := s.out ++ [.response .ok []] } := by
  rw [exec_enc_of_fits hm ho hi hlen hfit, hhandles]
  simp

/-- What does not fit is not appended. -/
theorem exec_enc_of_overflow (hgt : 65527 < s.txlen.toNat + (enc s.bo t v).1.length) :
    exec i s = .next { s with
      txmode := .txFault, txerr := 0x50,
      cmdPort := s.cmdPort.tail, out := s.out ++ [.response .encOverflow []] } := by
  rw [exec_enc_of_open hm ho hi]
  rcases s.encodeArg_cases t v with ⟨hle, -⟩ | ⟨-, he⟩
  · exact absurd hgt (Nat.not_lt.mpr hle)
  · rw [he]
    rfl

end

/-- Settles O51: the bound is on the bytes of the value, whichever command carries it. -/
theorem encodeOverflowFaults : Obligations.EncodeOverflowFaults := by
  unfold Obligations.EncodeOverflowFaults
  intro s i t v hi hm ho hgt
  exact exec_enc_of_overflow hm ho hi hgt

/-- Settles O47: each of the three carries a word, which is encoded in its four bytes. -/
theorem encScalarsAppendFourBytes : Obligations.EncScalarsAppendFourBytes := by
  unfold Obligations.EncScalarsAppendFourBytes
  intro s i v hm ho hlen hfit hi
  have htxlen : BitVec.ofNat 16 (s.txlen.toNat + 4) = s.txlen + 4 := by bv_omega
  rw [← htxlen]
  rcases hi with rfl | rfl | rfl
  · exact exec_enc_of_fits_payload (t := .int) hm ho rfl hlen hfit rfl
  · exact exec_enc_of_fits_payload (t := .uint) hm ho rfl hlen hfit rfl
  · exact exec_enc_of_fits_payload (t := .fixed) hm ho rfl hlen hfit rfl

/-! ### Fields with a length (43_encode.md R205 to R207; 30_encoding.md R100) -/

theorem wireLen_string (bs : List Byte) : wireLen .string bs = 4 + (bs.length + 4) / 4 * 4 := by
  rw [wireLen, Nat.add_assoc, add_pad_eq]

theorem wireLen_array (bs : List Byte) : wireLen .array bs = 4 + (bs.length + 3) / 4 * 4 := by
  rw [wireLen, Nat.add_assoc, add_pad_eq]

theorem wireLen_newid (bs : List Byte) (version : Word) :
    wireLen .newid (bs, version) = 8 + (bs.length + 4) / 4 * 4 := by
  have hname := wireLen_string bs
  simp only [wireLen] at hname ⊢
  omega

/-- Settles O48: the model's layouts are the ones written out, and their lengths the ones rounded up. -/
theorem encFieldsAppendLayout : Obligations.EncFieldsAppendLayout := by
  unfold Obligations.EncFieldsAppendLayout
  intro s bs version hm ho hlen
  refine ⟨fun hfit => ?_, fun hfit => ?_, fun hfit => ?_⟩ <;> rw [Nat.add_assoc] at hfit ⊢
  · rw [← wireLen_string] at hfit ⊢
    exact exec_enc_of_fits_payload hm ho rfl hlen hfit rfl
  · rw [← wireLen_array] at hfit ⊢
    exact exec_enc_of_fits_payload hm ho rfl hlen hfit rfl
  · rw [← wireLen_newid bs version] at hfit ⊢
    exact exec_enc_of_fits_payload hm ho rfl hlen hfit rfl

/-! ### Handles (43_encode.md R208) -/

/-- A write of no bytes is none, wherever it is. -/
theorem memWrite_nil (s : State) (a : Nat) : s.memWrite a [] = s := by simp [State.memWrite]

/-- Settles O49: a handle has no bytes, so it always fits and writes none. -/
theorem encFdAttachesHandle : Obligations.EncFdAttachesHandle := by
  unfold Obligations.EncFdAttachesHandle
  obtain ⟨-, -, -, -, -, -, -, hprinted, -⟩ := printedWordsDecode
  refine ⟨fun h => ?_, fun s h hm ho hle => ?_⟩
  · obtain ⟨-, -, -, hword, -⟩ := hprinted h
    exact hword
  · rw [exec_enc_of_open (t := .fd) hm ho rfl]
    rcases s.encodeArg_cases .fd h with ⟨-, he⟩ | ⟨hgt, -⟩
    · rw [he]
      simp [enc, memWrite_nil, State.respond]
    · exact absurd hle (Nat.not_le.mpr hgt)

/-! ### Sequences (43_encode.md R209; 30_encoding.md R99, R113) -/

/-- A value whose encoding is shorter than a `Bytes` item may be can be carried by one packet, if its counts fit. -/
theorem carried_of_wireLen_le : ∀ {t : Ty} {v : t.Val}, countsFit t v = true → wireLen t v ≤ 65535 →
    Carried t v := by
  intro t
  induction t with
  | int | uint | fixed | fd => intros; exact ⟨rfl, rfl⟩
  | string =>
    intro bs _ hle
    rw [wireLen_string] at hle
    exact carried_string.mpr (itemFits_bytes.mpr (by omega))
  | array =>
    intro bs _ hle
    rw [wireLen_array] at hle
    exact carried_array.mpr (itemFits_bytes.mpr (by omega))
  | newid =>
    rintro ⟨name, ver⟩ _ hle
    rw [wireLen_newid] at hle
    exact carried_newid.mpr (itemFits_bytes.mpr (by omega))
  | seq t ih =>
    intro vs hcount hle
    simp only [countsFit, Bool.and_eq_true, decide_eq_true_eq, List.all_eq_true] at hcount
    obtain ⟨hlen, hall⟩ := hcount
    refine carried_seq.mpr ⟨hlen, fun v hv => ih (hall v hv) ?_⟩
    have helement : wireLen t v ≤ (vs.map (wireLen t)).sum := List.le_sum_of_mem (List.mem_map_of_mem hv)
    simp only [wireLen] at hle
    omega

/-- ENC.SEQ with the items of a value that a packet can carry carries that value. -/
theorem encodedValue_encSeq {depth base : BitVec 4} {t : Ty} {v : t.Val} (hdepth : depth ≠ 0)
    (ht : typeOf depth base = some t) (hv : Carried t v) :
    encodedValue (.encSeq depth base (items t v)) = some ⟨t, v⟩ := by
  have hread := ofItems_items hv []
  rw [List.append_nil] at hread
  simp only [encodedValue, if_neg hdepth, ht, hread]

/-- Settles O50: a sequence that fits `TXBUF` is carried by its items, and its encoding is the count and the elements
in order. -/
theorem encSeqAppendsElements : Obligations.EncSeqAppendsElements := by
  unfold Obligations.EncSeqAppendsElements
  intro s depth base t vs hm ho hdepth ht hcount hlen hfit
  have hcarried : Carried (.seq t) vs := carried_of_wireLen_le hcount (by omega)
  exact exec_enc_of_fits hm ho (encodedValue_encSeq hdepth ht hcarried) hlen hfit

/-! ### A message from ENC.BEGIN to ENC.END (43_encode.md R201, R210) -/

/-- Settles O46: only `DEAD` stands in the way, and the message begun is empty. -/
theorem encBeginOpensMessage : Obligations.EncBeginOpensMessage := by
  unfold Obligations.EncBeginOpensMessage
  intro s opcode sender
  obtain ⟨-, hprinted, -⟩ := printedWordsDecode
  obtain ⟨-, -, hword⟩ := hprinted opcode
  exact ⟨hword sender, fun hm => congrArg _ (checked_of_legal (State.beginBody opcode sender) hm rfl),
    fun hm => congrArg _ (checked_of_refused (State.beginBody opcode sender) (.inl hm))⟩

/-- The second word of the header as a number (40_framer.md R134). -/
theorem headerWord_eq_ofNat (size opcode : Half) : (size.zeroExtend 32 <<< 16) ||| opcode.zeroExtend 32 =
    BitVec.ofNat 32 (65536 * size.toNat + opcode.toNat) := by
  have hsize : (size.zeroExtend 32 <<< 16).toNat = 2 ^ 16 * size.toNat := by
    rw [BitVec.toNat_shiftLeft, BitVec.toNat_setWidth, Nat.shiftLeft_eq]
    omega
  have hopcode : (opcode.zeroExtend 32).toNat = opcode.toNat := by
    rw [BitVec.toNat_setWidth]
    omega
  apply BitVec.eq_of_toNat_eq
  rw [BitVec.toNat_or, hsize, hopcode, ← Nat.two_pow_add_eq_or_of_lt opcode.isLt, BitVec.toNat_ofNat]
  omega

section
variable {s : State}

theorem exec_encEnd_of_refused (h : s.mode = .dead ∨ s.txmode ≠ .txOpen) :
    exec .encEnd s = .next (s.respond .badMode []) :=
  congrArg _ (checked_of_refused State.endBody (h.imp_right beq_eq_false_iff_ne.mpr))

/-- ENC.END on a whole buffer: the packed header, all of `TXBUF` and all of `TXDESC` leave as one message. -/
theorem exec_encEnd_of_open (hm : s.mode ≠ .dead) (ho : s.txmode = .txOpen)
    (hlen : s.txbuf.length = s.txlen.toNat) :
    exec .encEnd s = .next { s with
      txsender := 0, txopcode := 0, txbuf := [], txlen := 0, txdesc := [], txdcnt := 0, txmode := .txIdle,
      cmdPort := s.cmdPort.tail
      out := s.out ++
        [.txEmit (packHeader s.bo s.txsender (8 + s.txlen) s.txopcode ++ s.txbuf) s.txdesc,
          .response .ok [.word ((8 + s.txlen).zeroExtend 32)]] } := by
  have hsize : BitVec.ofNat 16 (8 + s.txlen.toNat) = 8 + s.txlen := by bv_omega
  have hexec : exec .encEnd s = .next s.endBody :=
    congrArg _ (checked_of_legal State.endBody hm (beq_iff_eq.mpr ho))
  rw [hexec, State.endBody, Config.headerBytes, hsize, ← hlen, List.take_length]
  simp [State.respond, State.txEmit]

end

/-- Settles O52: the size does not wrap, so the header word is the number written out. -/
theorem encEndEmitsMessage : Obligations.EncEndEmitsMessage := by
  unfold Obligations.EncEndEmitsMessage
  refine ⟨rfl, fun s => ⟨fun hm ho hlen hle => ?_, exec_encEnd_of_refused⟩⟩
  have hsize : (8 + s.txlen).toNat = 8 + s.txlen.toNat := by bv_omega
  have hword : (8 + s.txlen).zeroExtend 32 = BitVec.ofNat 32 (8 + s.txlen.toNat) := by bv_omega
  rw [exec_encEnd_of_open hm ho hlen, packHeader, headerWord_eq_ofNat, hsize, hword]

/-- Settles O53: the header that ENC.END packs is the one FRAME reads, and its size is that of the payload. -/
theorem emittedMessageIsFramed : Obligations.EmittedMessageIsFramed := by
  unfold Obligations.EmittedMessageIsFramed
  rintro s r bytes more hm ho hlen hle hmax rfl hidle hbo hrx hrecords
  have hsize : (8 + s.txlen).toNat = 8 + s.txlen.toNat := by bv_omega
  have hhandles : rightsHandles r.ancRecords = s.txdesc := by simp [hrecords, rightsHandles]
  have hframe := frameLoadsMessage r (bytes32 r.bo s.txsender)
    (bytes32 r.bo (((8 + s.txlen).zeroExtend 32 <<< 16) ||| s.txopcode.zeroExtend 32)) s.txbuf more
    (8 + s.txlen) s.txopcode (by simp [hidle]) (bytes32_length _ _) (bytes32_length _ _)
    (by rw [hrx, hbo, packHeader])
    (by rw [u32_bytes32, sizeField_headerWord]) (by rw [u32_bytes32, opcodeField_headerWord])
    (by omega) (by omega) (by simp [hrecords]) (by rwa [hhandles])
  rw [u32_bytes32, hhandles] at hframe
  exact ⟨_, _, exec_encEnd_of_open hm ho hlen, rfl, hframe, rfl, rfl, rfl, rfl, rfl, rfl, rfl, rfl⟩

end Sys2Proof.Proofs.Encoder
end

section
/-! The family `44_system.md`: RDREG by what the register map holds at its number (R230), and the values of the map
(10_state.md R40 to R42). -/

namespace Sys2Proof.Proofs.System

open Sys2Proof.Machine Sys2Proof.Proofs.Packets

/-! ### RDREG by what the map holds (44_system.md R230) -/

section
variable {s : State} {r : Half}

theorem exec_rdreg_of_some {v : Word} (h : s.readReg r = some v) :
    exec (.rdreg r) s = .next (s.respond .ok [.word v]) := by
  change execRdreg r s = _
  rw [execRdreg, h]

/-- The refusal writes no register, `ERR` among them (60_exceptions.md R248). -/
theorem exec_rdreg_of_none (h : s.readReg r = none) :
    exec (.rdreg r) s = .next (s.respond .badReg []) := by
  change execRdreg r s = _
  rw [execRdreg, h]
  exact congrArg _ (State.raise_refusal rfl 0)

end

/-! ### The register map (10_state.md R40 to R42) -/

/-- Two gaps: from 0x0C to 0x0F, and above the last register. -/
theorem readReg_of_reserved (s : State) {r : Half} (h : 0x0B < r.toNat ∧ r.toNat < 0x10 ∨ 0x14 < r.toNat) :
    s.readReg r = none := by
  have hne : ∀ n : Half, (n.toNat ≤ 0x0B ∨ 0x10 ≤ n.toNat ∧ n.toNat ≤ 0x14) → r ≠ n := by
    rintro n hn rfl
    omega
  unfold State.readReg
  repeat rw [if_neg (hne _ (by decide))]

theorem cfgReg_eq (s : State) : s.cfgReg = if s.bo = .be then 1 else 0 := by
  unfold State.cfgReg
  cases s.bo <;> rfl

/-- The three fields of `STATUS` do not overlap, whatever their values, and nothing stands above them. -/
theorem statusReg_fields (s : State) :
    s.statusReg.extractLsb' 0 2 = s.mode.bits ∧ s.statusReg.extractLsb' 2 2 = s.txmode.bits ∧
    s.statusReg.getLsbD 4 = s.leak ∧ s.statusReg.extractLsb' 5 27 = 0 := by
  unfold State.statusReg
  generalize s.mode.bits = mode, s.txmode.bits = txmode, s.leak = leak
  decide +revert

/-- Settles O60: each number of the map is looked up, and the others fall in its gaps. -/
theorem rdregReadsMap : Obligations.RdregReadsMap := by
  unfold Obligations.RdregReadsMap
  intro s r reads
  obtain ⟨-, hprinted, -⟩ := printedWordsDecode
  obtain ⟨-, hword, -⟩ := hprinted r
  have hread : ∀ {n : Half} {v : Word}, s.readReg n = some v → r = n → reads v :=
    fun hv hr => exec_rdreg_of_some (hr ▸ hv)
  exact ⟨hword, fun p hop => decode_unusedField_imm (by simp [hop]),
    hread (congrArg some (cfgReg_eq s)), fun hr => ⟨s.statusReg, hread rfl hr, statusReg_fields s⟩,
    hread rfl, hread rfl, hread rfl, hread rfl, hread rfl, hread rfl, hread rfl, hread rfl, hread rfl, hread rfl,
    hread rfl, hread rfl, hread rfl, hread rfl, hread rfl,
    fun hr => exec_rdreg_of_none (readReg_of_reserved s hr)⟩

end Sys2Proof.Proofs.System
end

section
/-! The family `60_exceptions.md`: the moves of `MODE` and `TXMODE` (R258, R265), what a command that is refused
changes (R247, R255) and which command is (R261), and a DEC command that fails (R252). -/

namespace Sys2Proof.Proofs.Exceptions

open Sys2Proof.Machine Sys2Proof.Safety Sys2Proof.Proofs.BlockState Sys2Proof.Proofs.Memory Sys2Proof.Proofs.Scope
  Sys2Proof.Proofs.Answers Sys2Proof.Proofs.Framer Sys2Proof.Proofs.FixedPoint Sys2Proof.Proofs.System

/-! ### `DEAD` (60_exceptions.md R258) -/

/-- Every outcome that writes `MODE`, `ERR` or `ERRINFO` starts outside `DEAD`. -/
theorem outcome_of_dead {d : Except Reject Instr} {s t : State} (hm : s.mode = .dead) (ho : Outcome d s t) :
    t.mode = .dead ∧ t.err = s.err ∧ t.errinfo = s.errinfo := by
  cases ho with
  | refused | answered | begun | appended | overflowed | ended => exact ⟨hm, rfl, rfl⟩
  | frameHolds => simp [State.await_frame s, hm]
  | contract _ _ _ hm' | frameFails _ _ _ _ _ hm' | frameBadRecord _ _ _ _ _ hm'
  | frameLoads _ _ _ _ _ _ _ _ _ hm' | discarded _ _ _ hm' => exact absurd hm hm'
  | cursorsMoved _ _ _ hm' | decodeFailed _ hm' => simp [hm] at hm'

/-- Settles O19: reset restores `IDLE`, a wait touches no register, and no command changes the failure kept in
`DEAD`. -/
theorem deadLeftOnlyByReset : Obligations.DeadLeftOnlyByReset := by
  unfold Obligations.DeadLeftOnlyByReset
  intro s t hm hstep
  rcases step_outcome hstep with ⟨hr, rfl⟩ | ⟨hr, rfl⟩ | ⟨p, rest, hr, -, ho⟩
  · exact ⟨by simp [hr], fun _ => rfl⟩
  · exact ⟨fun _ => by simp [State.await_frame s, hm], by simp [hr]⟩
  · exact ⟨fun _ => outcome_of_dead hm ho, by simp [hr]⟩

/-! ### DEC commands and SKIP (60_exceptions.md R252, R265) -/

/-- What a command of the row `readyOnly` can do to `MODE`: leave it, or fail in `READY` with nothing committed. -/
theorem exec_of_readyOnly {i : Instr} {s t : State} (hlegality : legality i = .readyOnly)
    (hsupported : typeSupported i = true) (hexec : exec i s = .next t) :
    t.mode = s.mode ∨ (s.mode = .ready ∧ ∃ e : Status, e.cls = .decode ∧
      t = { s with mode := .decodeFault, err := e.code, errinfo := s.cur.zeroExtend 32 }.respond e []) := by
  have hother : ∀ {j : Instr}, (Except.ok i : Except Reject Instr) = .ok j → legality j = .readyOnly :=
    fun hj => Except.ok.inj hj ▸ hlegality
  cases exec_outcome hexec with
  | refused | answered | cursorsMoved | begun | appended | overflowed | ended => exact .inl rfl
  | contract _ _ hd => exact absurd hsupported (by simp [hd i rfl])
  | frameHolds => exact .inl (by simp [State.await_frame s])
  | frameFails _ _ _ _ hd | frameBadRecord _ _ _ _ hd | frameLoads _ _ _ _ _ _ _ _ hd | discarded _ _ hd =>
    exact nomatch hother hd
  | decodeFailed e hm he => exact .inr ⟨hm, e, he, rfl⟩

/-- Settles O43: in `READY` the only end that leaves `READY` is the failure. -/
theorem failedDecodeCommitsNothing : Obligations.FailedDecodeCommitsNothing := by
  unfold Obligations.FailedDecodeCommitsNothing
  intro i s t hlegality hsupported hm hexec hleft
  rcases exec_of_readyOnly hlegality hsupported hexec with hmode | ⟨-, e, he, ht⟩
  · exact absurd (hmode.trans hm) hleft
  · exact ⟨e, he, ht⟩

/-! ### The moves of `MODE` and `TXMODE` by command (60_exceptions.md R265) -/

section
variable {i : Instr} {s t : State}

/-- RDREG and the FX commands answer, and write the counter of free values at most. -/
theorem exec_of_anywhere (hlegality : legality i = .anywhere) (s : State) :
    ∃ n st is, exec i s = .next ({ s with draws := n }.respond st is) := by
  cases i with
  | rdreg r =>
    cases hread : s.readReg r with
    | some v => exact ⟨s.draws, _, _, exec_rdreg_of_some hread⟩
    | none => exact ⟨s.draws, _, _, exec_rdreg_of_none hread⟩
  | fxFromfloat x =>
    cases hfixed : fixedOfF64 x with
    | some v => exact ⟨s.draws, _, _, exec_fxFromfloat_of_some hfixed⟩
    | none => exact ⟨s.draws + 1, _, _, exec_fxFromfloat_of_none hfixed⟩
  | fxFromint | fxInteger | fxFraction | fxFloat => exact ⟨s.draws, _, _, rfl⟩
  | _ => cases hlegality

/-- An ENC value command of a supported type is the shared ENC command, or malformed. -/
theorem exec_of_txOpenOnly (hlegality : legality i = .txOpenOnly) (hend : i ≠ .encEnd)
    (hsupported : typeSupported i = true) (s : State) :
    (∃ ty v, exec i s = .next (s.encCommand ty v)) ∨ exec i s = .next (s.respond .badCmd []) := by
  cases i with
  | encInt | encUint | encFixed | encString | encArray | encNewid | encFd => exact .inl ⟨_, _, rfl⟩
  | encSeq depth base is =>
    rcases execEncSeq_cases depth base is s with ⟨-, he⟩ | ⟨-, hbase, -⟩ | ⟨ty, v, -, -, -, -, -, he⟩
    · exact .inr he
    · exact absurd (of_decide_eq_true hsupported) hbase
    · exact .inl ⟨ty, v, he⟩
  | encEnd => exact absurd rfl hend
  | _ => cases hlegality

/-- FRAME holds, enters `DEAD`, or loads an envelope (40_framer.md R130, R135 to R137). -/
theorem mode_frame (hexec : exec .frame s = .next t) :
    t.mode = s.mode ∨ (s.mode ≠ .dead ∧ (t.mode = .ready ∨ t.mode = .dead)) := by
  obtain rfl := Host.Outcome.next.inj hexec
  rcases s.checked_cases true State.frameBody with ⟨hm, -, he⟩ | ⟨-, he⟩ <;> rw [he]
  · rcases s.frameBody_cases with ⟨-, he⟩ | ⟨e, info, rest, -, he⟩ | ⟨w, z, o, p, rest, j, ds, -, -, he⟩ |
      ⟨w, z, o, p, rest, ds, -, -, he⟩ <;> rw [he]
    · exact .inl (by simp [State.await_frame s])
    · exact .inr ⟨hm, .inr rfl⟩
    · exact .inr ⟨hm, .inr rfl⟩
    · exact .inr ⟨hm, .inl rfl⟩
  · exact .inl rfl

theorem mode_discard (hexec : exec .discard s = .next t) : t.mode = if s.mode = .dead then .dead else .idle := by
  cases hm : s.mode with
  | dead => obtain rfl := Host.Outcome.next.inj ((exec_discard_of_dead hm).symm.trans hexec); exact hm
  | idle => obtain rfl := Host.Outcome.next.inj ((exec_discard_of_idle hm).symm.trans hexec); exact hm
  | ready | decodeFault =>
    obtain rfl := Host.Outcome.next.inj ((exec_discard_of_loaded (by simp [hm])).symm.trans hexec)
    rfl

theorem mode_of_anywhere (hlegality : legality i = .anywhere) (hexec : exec i s = .next t) : t.mode = s.mode := by
  obtain ⟨n, st, is, he⟩ := exec_of_anywhere hlegality s
  obtain rfl := Host.Outcome.next.inj (he.symm.trans hexec)
  rfl

theorem modes_encBegin {o : Half} {w : Word} (hexec : exec (.encBegin o w) s = .next t) :
    t.mode = s.mode ∧ t.txmode = if s.mode = .dead then s.txmode else .txOpen := by
  obtain rfl := Host.Outcome.next.inj hexec
  by_cases hm : s.mode = .dead
  · rw [checked_of_refused _ (.inl hm), if_pos hm]
    exact ⟨rfl, rfl⟩
  · rw [checked_of_legal _ hm rfl, if_neg hm]
    exact ⟨rfl, rfl⟩

theorem txmode_encEnd (hexec : exec .encEnd s = .next t) :
    t.txmode = if s.mode ≠ .dead ∧ s.txmode = .txOpen then .txIdle else s.txmode := by
  obtain rfl := Host.Outcome.next.inj hexec
  by_cases h : s.mode ≠ .dead ∧ s.txmode = .txOpen
  · obtain ⟨hm, ho⟩ := h
    rw [checked_of_legal _ hm (beq_iff_eq.mpr ho), if_pos ⟨hm, ho⟩]
    rfl
  · rw [checked_of_refused _ ((not_and_or.mp h).imp not_not.mp beq_eq_false_iff_ne.mpr), if_neg h]
    rfl

/-- An ENC value command leaves `TXMODE`, or overflows in `TX_OPEN` (43_encode.md R211). -/
theorem txmode_of_txOpenOnly (hlegality : legality i = .txOpenOnly) (hend : i ≠ .encEnd)
    (hsupported : typeSupported i = true) (hexec : exec i s = .next t) :
    t.txmode = s.txmode ∨ (s.txmode = .txOpen ∧ t.txmode = .txFault) := by
  rcases exec_of_txOpenOnly hlegality hend hsupported s with ⟨ty, v, hx⟩ | hx <;>
    obtain rfl := Host.Outcome.next.inj (hx.symm.trans hexec)
  · rcases s.checked_cases (s.txmode == .txOpen) (State.encodeArg ty v) with ⟨-, ho, hc⟩ | ⟨-, hc⟩ <;>
      rw [State.encCommand, hc]
    · rcases s.encodeArg_cases ty v with ⟨-, he⟩ | ⟨-, he⟩ <;> rw [he]
      · exact .inl rfl
      · exact .inr ⟨beq_iff_eq.mp ho, rfl⟩
    · exact .inl rfl
  · exact .inl rfl

end

/-- Settles O23: each command by its row of the legality table; what a row does not name is on the side that the
command does not work on. -/
theorem modesMoveByCommand : Obligations.ModesMoveByCommand := by
  unfold Obligations.ModesMoveByCommand
  intro i s t hsupported hexec
  obtain ⟨-, hreceive, htransmit⟩ := sidesAreSeparate i s t hsupported hexec
  refine ⟨fun hi => mode_frame (hi ▸ hexec), fun hi => mode_discard (hi ▸ hexec), fun hl => ?_, fun hl => ?_,
    fun o w hi => modes_encBegin (hi ▸ hexec), fun hi => txmode_encEnd (hi ▸ hexec),
    fun hl hend => txmode_of_txOpenOnly hl hend hsupported hexec, fun hl hbegin => (htransmit hl hbegin).1⟩
  · exact (exec_of_readyOnly hl hsupported hexec).imp_right fun ⟨hm, e, _, ht⟩ => ⟨hm, ht ▸ rfl⟩
  · rcases hl with hl | hl
    · exact (hreceive (.inl hl)).1
    · exact mode_of_anywhere hl hexec

/-! ### Answers that are no refusal (60_exceptions.md R247, R255) -/

/-- No output that `t` adds to those of `s` answers a refusal. -/
def NoRefusal (s t : State) : Prop :=
  ∀ st : Status, st.cls = .refusal → Output.response st [] ∉ t.out.drop s.out.length

theorem mem_responsesOf {os : List Output} {st : Status} {is : List Item} (h : Output.response st is ∈ os) :
    (st, is) ∈ responsesOf os := by
  induction os with
  | nil => cases h
  | cons o os ih =>
    rcases List.mem_cons.mp h with rfl | hrest
    · exact List.mem_cons_self
    · cases o with
      | response => exact List.mem_cons_of_mem _ (ih hrest)
      | close | txEmit => exact ih hrest

section
variable {s t u : State}

theorem noRefusal_of_out_eq (hout : t.out = s.out) : NoRefusal s t := fun _ _ => by simp [hout]

/-- After outputs without a response, a response that is no refusal. -/
theorem noRefusal_of_unanswered (hu : Unanswered s u) {st : Status} {is : List Item} (hst : st.cls ≠ .refusal)
    (hout : t.out = u.out ++ [.response st is]) : NoRefusal s t := by
  obtain ⟨-, evs, hevs, hnone⟩ := hu
  intro st' hst' hmem
  rw [hout, hevs, List.append_assoc, List.drop_left, List.mem_append, List.mem_singleton] at hmem
  rcases hmem with hmem | hmem
  · simpa [hnone] using mem_responsesOf hmem
  · cases hmem
    exact hst hst'

theorem noRefusal_of_response {st : Status} {is : List Item} (hst : st.cls ≠ .refusal)
    (hout : t.out = s.out ++ [.response st is]) : NoRefusal s t :=
  noRefusal_of_unanswered (unanswered_of_eq (s := s) rfl rfl) hst hout

end

section
variable {s : State}

/-- FRAME answers nothing while it holds, and otherwise `OK`, a Transport or a Framing failure (40_framer.md R130). -/
theorem noRefusal_frameBody : NoRefusal s s.frameBody := by
  have hdiscard := unanswered_discardLoaded s
  rcases s.frameBody_cases with ⟨-, he⟩ | ⟨e, info, rest, hread, he⟩ | ⟨w, z, o, p, rest, j, ds, -, -, he⟩ |
    ⟨w, z, o, p, rest, ds, -, -, he⟩ <;> rw [he]
  · exact noRefusal_of_out_eq (by simp [State.await_frame s])
  · have hcls : e.cls ≠ .refusal := by rcases readFrame_fails_cls hread with rfl | rfl | rfl <;> decide
    exact noRefusal_of_unanswered hdiscard hcls rfl
  · exact noRefusal_of_unanswered (unanswered_closeAll hdiscard ds) (st := .ancParse) (by decide) rfl
  · exact noRefusal_of_unanswered hdiscard (st := .ok) (by decide) rfl

theorem noRefusal_discardBody : NoRefusal s s.discardBody := by
  unfold State.discardBody
  split
  · exact noRefusal_of_response (st := .ok) (by decide) rfl
  · exact noRefusal_of_unanswered (unanswered_doDiscard s) (st := .ok) (by decide) rfl

theorem noRefusal_skipBody (n : Half) : NoRefusal s (s.skipBody n) := by
  unfold State.skipBody
  split
  · exact noRefusal_of_response (st := .payloadUnderrun) (by decide) rfl
  · exact noRefusal_of_response (st := .ok) (by decide) rfl

theorem noRefusal_decodeArg (t : Ty) : NoRefusal s (s.decodeArg t) := by
  rcases s.decodeArg_cases t with ⟨v, c, d, -, he⟩ | ⟨e, -, hcls, he⟩ <;> rw [he]
  · exact noRefusal_of_response (st := .ok) (by decide) rfl
  · exact noRefusal_of_response (by simp [hcls]) rfl

theorem noRefusal_encodeArg (t : Ty) (v : t.Val) : NoRefusal s (s.encodeArg t v) := by
  rcases s.encodeArg_cases t v with ⟨-, he⟩ | ⟨-, he⟩ <;> rw [he]
  · exact noRefusal_of_response (st := .ok) (by decide) rfl
  · exact noRefusal_of_response (st := .encOverflow) (by decide) rfl

/-- ENC.END answers after the message it emits (43_encode.md R210). -/
theorem noRefusal_endBody : NoRefusal s s.endBody :=
  noRefusal_of_unanswered (u := s.txEmit _ s.txdesc) ⟨rfl, [_], rfl, rfl⟩ (st := .ok) (by decide) rfl

/-- A type-contract violation is refused in `DEAD` only (60_exceptions.md R248, R253). -/
theorem unsupported_refused_or_noRefusal (s : State) (w : Word) :
    (s.mode = .dead ∧ s.unsupported w = s.respond .badMode []) ∨ NoRefusal s (s.unsupported w) := by
  rcases s.unsupported_cases w with h | ⟨-, he⟩
  · exact .inl h
  · rw [he]
    exact .inr (noRefusal_of_unanswered (unanswered_discardLoaded s) (st := .typeContract) (by decide) rfl)

end

/-! ### The legality table (60_exceptions.md R261)

Check 3 and check 5 of R248 are two tests in the model, `DEAD` and the rest of the row; the table is their
conjunction. -/

section
variable {i : Instr} {s t : State}

theorem legalIn_of_anywhere (h : legality i = .anywhere) : legalIn i s = true := by simp [legalIn, h]

theorem legalIn_of_unlessDead (h : legality i = .unlessDead) : legalIn i s = (s.mode != .dead && true) := by
  simp [legalIn, h]

theorem legalIn_of_readyOnly (h : legality i = .readyOnly) :
    legalIn i s = (s.mode != .dead && s.mode == .ready) := by
  cases hm : s.mode <;> simp [legalIn, h, hm]

theorem legalIn_of_txOpenOnly (h : legality i = .txOpenOnly) :
    legalIn i s = (s.mode != .dead && s.txmode == .txOpen) := by
  simp [legalIn, h]

theorem legalIn_of_dead (hm : s.mode = .dead) (h : legality i ≠ .anywhere) : legalIn i s = false := by
  cases hl : legality i <;> simp_all [legalIn]

/-- How a command ends with regard to the legality table: refused as not legal; refused for another reason, RDREG of a
reserved number or a malformed command; or not refused, in a state where the table lets it pass or as a command that
the table does not speak of. -/
def AnsweredByTable (i : Instr) (s t : State) : Prop :=
  (legalIn i s = false ∧ t = s.respond .badMode []) ∨
  ((legality i = .anywhere ∨ i.wf = false) ∧
    ∃ st : Status, st.cls = .refusal ∧ st ≠ .badMode ∧ t = s.respond st []) ∨
  ((legalIn i s = true ∨ typeSupported i = false) ∧ NoRefusal s t)

/-- A command passes its mode check exactly where the table says yes. -/
theorem answeredByTable_checked {legal : Bool} {body : State → State}
    (hlegal : legalIn i s = (s.mode != .dead && legal)) (hbody : NoRefusal s (body s)) :
    AnsweredByTable i s (s.checked legal body) := by
  rcases s.checked_cases legal body with ⟨hm, hl, he⟩ | ⟨h, he⟩ <;> rw [he]
  · exact .inr (.inr ⟨.inl (by simp [hlegal, hm, hl]), hbody⟩)
  · exact .inl ⟨by rcases h with h | h <;> simp [hlegal, h], rfl⟩

theorem exec_answeredByTable (hexec : exec i s = .next t) : AnsweredByTable i s t := by
  rcases exec_cases i s with ⟨rfl, hx⟩ | ⟨rfl, hx⟩ | ⟨n, rfl, hx⟩ | ⟨ty, hl, -, hx⟩ | ⟨o, w, rfl, hx⟩ |
    ⟨ty, v, hl, -, -, -, hx⟩ | ⟨rfl, hx⟩ | ⟨n, it, hl, hx⟩ | ⟨r, rfl, -, hx⟩ | ⟨hl, hu, hx⟩ | ⟨-, -, hwf, hx⟩ <;>
    obtain rfl := Host.Outcome.next.inj (hx.symm.trans hexec)
  · exact answeredByTable_checked (legalIn_of_unlessDead rfl) noRefusal_frameBody
  · exact answeredByTable_checked (legalIn_of_unlessDead rfl) noRefusal_discardBody
  · exact answeredByTable_checked (legalIn_of_readyOnly rfl) (noRefusal_skipBody n)
  · exact answeredByTable_checked (legalIn_of_readyOnly hl) (noRefusal_decodeArg ty)
  · exact answeredByTable_checked (legalIn_of_unlessDead rfl) (noRefusal_of_response (st := .ok) (by decide) rfl)
  · exact answeredByTable_checked (legalIn_of_txOpenOnly hl) (noRefusal_encodeArg ty v)
  · exact answeredByTable_checked (legalIn_of_txOpenOnly rfl) noRefusal_endBody
  · exact .inr (.inr ⟨.inl (legalIn_of_anywhere hl), noRefusal_of_response (st := .ok) (by decide) rfl⟩)
  · exact .inr (.inl ⟨.inl rfl, .badReg, rfl, by decide, rfl⟩)
  · rcases unsupported_refused_or_noRefusal s (encodeWord i) with ⟨hm, he⟩ | h
    · exact .inl ⟨legalIn_of_dead hm hl, he⟩
    · exact .inr (.inr ⟨.inr hu, h⟩)
  · exact .inr (.inl ⟨.inr hwf, .badCmd, rfl, by decide, rfl⟩)

/-- The only response of a refused command is the refusal. -/
theorem response_mem_respond {st st' : Status} {is is' : List Item} :
    Output.response st' is' ∈ (s.respond st is).out.drop s.out.length ↔ st' = st ∧ is' = is := by
  simp

end

/-- Settles O27: by how the command ends with regard to the table. -/
theorem legalityTable : Obligations.LegalityTable := by
  unfold Obligations.LegalityTable
  intro i s t hwf hsupported hexec
  rcases exec_answeredByTable hexec with ⟨hl, ht⟩ | ⟨hreason, st, -, hst, rfl⟩ | ⟨hpass, hnone⟩
  · exact ⟨fun _ => ht, fun hl' => absurd hl' (by simp [hl])⟩
  · have hl : legalIn i s = true := legalIn_of_anywhere (hreason.resolve_right (by simpa using hwf))
    exact ⟨fun hl' => absurd hl (by simp [hl']), fun _ hmem => hst (response_mem_respond.mp hmem).1.symm⟩
  · have hl : legalIn i s = true := hpass.resolve_right (by simp [hsupported])
    exact ⟨fun hl' => absurd hl (by simp [hl']), fun _ => hnone .badMode rfl⟩

/-! ### A refusal changes nothing (60_exceptions.md R247, R255) -/

/-- A packet is refused, with the response only, or its answer is no refusal. -/
theorem step_refused_or_noRefusal {s t : State} {p : Packet} {rest : List Packet} (hreset : s.resetIn = false)
    (hport : s.cmdPort = p :: rest) (hstep : step s = .next t) :
    (∃ st : Status, t = s.respond st []) ∨ NoRefusal s t := by
  cases hdecode : decode p with
  | ok i =>
    rw [stepRunsDecodedInstruction s p rest i hreset hport hdecode] at hstep
    rcases exec_answeredByTable hstep with ⟨-, ht⟩ | ⟨-, st, -, -, ht⟩ | ⟨-, hnone⟩
    · exact .inl ⟨_, ht⟩
    · exact .inl ⟨st, ht⟩
    · exact .inr hnone
  | error r =>
    rw [step_of_decode_error hreset hport hdecode] at hstep
    obtain rfl := Host.Outcome.next.inj hstep
    rcases s.reject_cases r with ⟨-, he⟩ | ⟨w, -, he⟩ <;> rw [he]
    · exact .inl ⟨_, rfl⟩
    · exact (unsupported_refused_or_noRefusal s w).imp_left fun ⟨_, hrefused⟩ => ⟨_, hrefused⟩

/-- Settles O26: the refusal that the step adds is the one response of a refused packet. -/
theorem refusalChangesNothing : Obligations.RefusalChangesNothing := by
  unfold Obligations.RefusalChangesNothing
  intro s t p rest st hreset hport hstep hst hmem
  rcases step_refused_or_noRefusal hreset hport hstep with ⟨st', rfl⟩ | hnone
  · obtain ⟨rfl, -⟩ := response_mem_respond.mp hmem
    exact respond_of_cmdPort hport st []
  · exact absurd hmem (hnone st hst)

end Sys2Proof.Proofs.Exceptions
end

section
/-! The family `70_reset_and_hazards.md`: a step under reset (R280 to R282), a step with nothing to carry out (R280;
20_memory.md R68), and that no step stops the block (R293). -/

namespace Sys2Proof.Proofs.Reset

open Sys2Proof.Machine Sys2Proof.Safety

/-! ### Reset and the wait (70_reset_and_hazards.md R280) -/

/-- Reset comes before whatever stands at the command port. -/
theorem step_of_reset {s : State} (hreset : s.resetIn = true) : step s = .next s.applyReset := by
  simp [step, hreset]

theorem step_of_idle {s : State} (hreset : s.resetIn = false) (hport : s.cmdPort = []) : step s = .next s.await := by
  simp [step, hreset, hport]

theorem sameBlock_await (s : State) : SameBlock s s.await := by
  simp [SameBlock, SameReceive, SameTransmit, s.await_frame]

/-- Settles O17: the step is `applyReset`, whose value at each field that the statement names is the one it names, and
which keeps every other field. -/
theorem resetInputRestoresBlock : Obligations.ResetInputRestoresBlock := by
  unfold Obligations.ResetInputRestoresBlock
  intro s hreset
  rw [step_of_reset hreset]
  rfl

/-- Settles O18: the step is a move of the outside world, which touches neither the block nor its outputs. -/
theorem idleBlockWaits : Obligations.IdleBlockWaits := by
  unfold Obligations.IdleBlockWaits
  intro s hreset hport
  have hout : s.await.out = s.out := by simp [s.await_frame]
  exact ⟨step_of_idle hreset hport, sameBlock_await s, hout, State.await_nil⟩

/-! ### No step stops the block (70_reset_and_hazards.md R293; 42_decode.md R182) -/

/-- Whatever family a command belongs to, and legal or not, it comes to a next state. -/
theorem exec_next (i : Instr) (s : State) : ∃ t, exec i s = .next t := by
  rcases exec_cases i s with ⟨-, hx⟩ | ⟨-, hx⟩ | ⟨_, -, hx⟩ | ⟨_, -, -, hx⟩ | ⟨_, _, -, hx⟩ |
    ⟨_, _, -, -, -, -, hx⟩ | ⟨-, hx⟩ | ⟨_, _, -, hx⟩ | ⟨_, -, -, hx⟩ | ⟨-, -, hx⟩ | ⟨-, -, -, hx⟩ <;>
    exact ⟨_, hx⟩

/-- Settles O14: reset, a wait and the answer to a malformed packet are next states, and so is the end of every
command. -/
theorem stepNeverStops : Obligations.StepNeverStops := by
  unfold Obligations.StepNeverStops
  intro s
  rcases step_cases s with ⟨-, hs⟩ | ⟨-, -, hs⟩ | ⟨_, _, i, -, -, -, hs⟩ | ⟨_, _, _, -, -, -, hs⟩
  · exact ⟨_, hs⟩
  · exact ⟨_, hs⟩
  · exact hs ▸ exec_next i s
  · exact ⟨_, hs⟩

end Sys2Proof.Proofs.Reset
end
